-- ==== Sys2Proof/Word.lean ====
section
/-! DEFINITION. The machine's word types.

IRCODEC has no byte-addressed store (spec/20_memory.md R64). Its ports carry 32-bit words (R90), a tick count has
at most 16 bits (R3, TICK_BITS), and a codeword chunk has 32 or 64 bits (R3, WORD_BITS). -/

namespace Sys2Proof

/-- One word of the command, response and descriptor interfaces (R90, R96, R38). -/
abbrev Word := BitVec 32

/-- A tick count: `elapsed` and one RawFrame entry. TICK_BITS is at most 16 (R3), so 16 bits hold every width the
spec admits; that only the low TICK_BITS bits are ever used is the invariant `CaptureInv` of Safety.lean. -/
abbrev Entry := BitVec 16

/-- One codeword chunk of WORD_BITS bits, held in 64 (R31). With WORD_BITS = 32 the upper half is 0 (DEDUCED,
log entry 16). -/
abbrev Chunk := BitVec 64

end Sys2Proof
end

