-- ==== Sys2Proof/Config.lean ====
section
/-! DEFINITION. What is fixed for one IRCODEC instance: the scalar parameters of spec/00_scope.md R3, the decoder table of
spec/10_state.md R36 and R37, and the model's two free values. The check that a configuration is one the spec admits
is `Config.wf` in Machine/Configure.lean. -/

namespace Sys2Proof

/-- WORD_BITS, the native width of a codeword chunk: 32 or 64 (R3). -/
inductive WordBits where
  | w32
  | w64
  deriving DecidableEq, Repr

/-- The order of a slot's bits in time (R37 `bitOrder`, R65). -/
inductive BitOrder where
  | lsbFirst
  | msbFirst
  deriving DecidableEq, Repr

/-- The bit-encoding convention of a slot (R37 `convention`). Code 3 is reserved and no slot has it (R39 item 1). -/
inductive Convention where
  | pulseDistance
  | pulseWidth
  | biphase
  deriving DecidableEq, Repr

/-- How address and command are cut from the decoded bits (R217). Codes 3 to 15 are reserved and no slot has one. -/
inductive Layout where
  | raw
  | acpar
  | rc5
  deriving DecidableEq, Repr

/-- The repeat-only frame's header (R37 `repeatMarkMicros`, `repeatSpaceMicros`). -/
structure RepeatSignal where
  markMicros : Word
  spaceMicros : Word
  deriving DecidableEq, Repr

/-- One decoder slot: the document's ProtocolTiming and the extension fields of R37. `trailerMarkMicros` is absent
when `hasTrailer = 0`, and `repeatSignal` is absent when `hasRepeatSignal = 0`. -/
structure Slot where
  headerMarkMicros : Word
  headerSpaceMicros : Word
  oneMarkMicros : Word
  zeroMarkMicros : Word
  oneSpaceMicros : Word
  zeroSpaceMicros : Word
  bitCount : BitVec 16
  bitOrder : BitOrder
  frequencyKHz : BitVec 8
  repeatPeriodMillis : BitVec 16
  trailerMarkMicros : Option Word
  convention : Convention
  layout : Layout
  tag : BitVec 8
  repeatSignal : Option RepeatSignal
  minCommandGapMicros : Word
  deriving DecidableEq, Repr

/-- The configuration (R3). `NDEC` is the length of `dtab`. -/
structure Config where
  dt : Nat
  tol : Nat
  markExcess : Nat
  gapTicks : Nat
  rawCap : Nat
  activeLow : Bool
  wordBits : WordBits
  tickBits : Nat
  nwmax : Nat
  dtab : List Slot
  deriving DecidableEq, Repr

/-- NDEC, the number of decoder slots (R3). -/
def Config.ndec (c : Config) : Nat := c.dtab.length

/-- Free value (DESIGN CHOICE, log entry 7): SR[8] bits 31:24 when NWMAX does not fit the eight bits R40 gives it. -/
opaque Config.freeNwmaxField : Nat → BitVec 8

/-- Free value (DESIGN CHOICE, log entry 8): SR[15] bits 7:0 when the count of meaningful words does not fit the eight bits R40
gives it. -/
opaque Config.freeNwordsField : Nat → BitVec 8

/-! The reference slots of spec/95_test_vectors.md §1.1, used by CFG-A and by the tests. -/

def Slot.refPd : Slot where
  headerMarkMicros := 9000
  headerSpaceMicros := 4500
  oneMarkMicros := 560
  zeroMarkMicros := 560
  oneSpaceMicros := 1690
  zeroSpaceMicros := 560
  bitCount := 32
  bitOrder := .lsbFirst
  frequencyKHz := 38
  repeatPeriodMillis := 110
  trailerMarkMicros := some 560
  convention := .pulseDistance
  layout := .acpar
  tag := 1
  repeatSignal := some { markMicros := 9000, spaceMicros := 2250 }
  minCommandGapMicros := 60000

def Slot.refPw : Slot where
  headerMarkMicros := 2400
  headerSpaceMicros := 600
  oneMarkMicros := 1200
  zeroMarkMicros := 600
  oneSpaceMicros := 600
  zeroSpaceMicros := 600
  bitCount := 12
  bitOrder := .lsbFirst
  frequencyKHz := 40
  repeatPeriodMillis := 45
  trailerMarkMicros := none
  convention := .pulseWidth
  layout := .raw
  tag := 2
  repeatSignal := none
  minCommandGapMicros := 30000

def Slot.refBi : Slot where
  headerMarkMicros := 0
  headerSpaceMicros := 0
  oneMarkMicros := 889
  zeroMarkMicros := 889
  oneSpaceMicros := 889
  zeroSpaceMicros := 889
  bitCount := 14
  bitOrder := .msbFirst
  frequencyKHz := 36
  repeatPeriodMillis := 114
  trailerMarkMicros := none
  convention := .biphase
  layout := .rc5
  tag := 3
  repeatSignal := none
  minCommandGapMicros := 100000

/-- CFG-A of spec/95_test_vectors.md §1.2: the configuration of `State.reset` (DESIGN CHOICE, log entry 3). -/
def Config.cfgA : Config where
  dt := 50
  tol := 25
  markExcess := 20
  gapTicks := 100
  rawCap := 100
  activeLow := false
  wordBits := .w32
  tickBits := 16
  nwmax := 8
  dtab := [Slot.refPd, Slot.refPw, Slot.refBi]

end Sys2Proof
end

