-- ==== Sys2Proof/Syntax.lean ====
section
/-! DEFINITION. The operations of IRCODEC as syntax: one constructor for each row of spec/opcode_table.json
(spec/30_encoding.md R95), with the operands of R92 in the order of the encoding. -/

namespace Sys2Proof

/-- The TICK event and the sixteen host commands. -/
inductive Instr where
  /-- The tick port's event with its pin sample (R94, R150). -/
  | tick (pin : Bool)
  | start
  | resume
  | isIdle
  | isAvail
  /-- `n`: the status-register number. -/
  | rdsr (n : BitVec 16)
  /-- `i`: the RawFrame index. -/
  | rdraw (i : BitVec 16)
  | rddesc (slot : BitVec 8) (word : BitVec 16)
  /-- `t`: a tick count. -/
  | toMicros (t : BitVec 16)
  | matchMark (ticks : BitVec 16) (target : Word)
  | matchSpace (ticks : BitVec 16) (target : Word)
  | matchExact (ticks : BitVec 16) (target : Word)
  | decode
  | tryDec (slot : BitVec 8)
  | send (slot : BitVec 8) (nbits : BitVec 16) (repeats : Word) (chunks : List Chunk)
  | sendRaw (durations : List Word)
  | sendBi (nbits : BitVec 16) (unit : Word) (codeword : Chunk)
  deriving DecidableEq, Repr

end Sys2Proof
end

