-- ==== Sys2Proof/WellFormed.lean ====
section
/-! DEFINITION. Which operations have an encoding (spec/30_encoding.md R92, R99), for a given WORD_BITS. -/

namespace Sys2Proof

/-- W, the number of bits in a chunk (R3). -/
def WordBits.bits : WordBits → Nat
  | .w32 => 32
  | .w64 => 64

/-- W32 = W / 32, the number of 32-bit words in a chunk (R92). -/
def WordBits.words : WordBits → Nat
  | .w32 => 1
  | .w64 => 2

/-- ⌈n / W⌉, the number of chunks an `n`-bit codeword occupies (R215). -/
def WordBits.chunkCount (wb : WordBits) (n : Nat) : Nat := (n + (wb.bits - 1)) / wb.bits

/-- A chunk is a W-bit number (R100). -/
def WordBits.fits (wb : WordBits) (c : Chunk) : Bool := decide (c.toNat < 2 ^ wb.bits)

/-- The operation has an encoding: SEND carries exactly the chunks its bit count needs, SENDRAW's count fits its
16-bit field, and every chunk is a W-bit number. Every other operand's type already is its field. -/
def Instr.wf (wb : WordBits) : Instr → Bool
  | .tick _ | .start | .resume | .isIdle | .isAvail => true
  | .rdsr _ | .rdraw _ | .rddesc _ _ | .toMicros _ => true
  | .matchMark _ _ | .matchSpace _ _ | .matchExact _ _ => true
  | .decode | .tryDec _ => true
  | .send _ nbits _ chunks =>
    decide (chunks.length = wb.chunkCount nbits.toNat) && chunks.all wb.fits
  | .sendRaw durations => decide (durations.length < 2 ^ 16)
  | .sendBi _ _ codeword => wb.fits codeword

end Sys2Proof
end

