-- ==== Sys2Proof/Decode.lean ====
section
/-! DEFINITION. The packet decoder and the encoder (spec/30_encoding.md R90 to R99). The decoder is total: any input of
either port gives one operation or is rejected by name. The encoder is written from the same tables. -/

namespace Sys2Proof

/-- One input of the block's two input ports (R90): a TICK event with its pin sample, or a packet of 32-bit words. -/
inductive PortInput where
  | tick (pin : Bool)
  | packet (words : List Word)
  deriving DecidableEq, Repr

/-- Why a packet is no operation (R97). All three are answered BadCommand (R339). -/
inductive DecodeError where
  /-- The packet has no command word at all (DEDUCED, log entry 13). -/
  | emptyPacket
  /-- The command word matches no row of R95. -/
  | noRow
  /-- The number of words differs from `L(CW)` (R93). -/
  | wrongLength
  deriving DecidableEq, Repr

/-- The rows of R95 that are packets. -/
inductive Op where
  | start | resume | isIdle | isAvail
  | rdsr | rdraw | rddesc | toMicros
  | matchMark | matchSpace | matchExact
  | decode | tryDec
  | send | sendRaw | sendBi
  deriving DecidableEq, Repr

/-- The packet formats of R92. -/
inductive Format where
  | z | i | s | m | t | v | b
  deriving DecidableEq, Repr

/-! ## The command word (R91) -/

def opField (cw : Word) : BitVec 8 := cw.extractLsb' 24 8
def aField (cw : Word) : BitVec 8 := cw.extractLsb' 16 8
def bField (cw : Word) : BitVec 16 := cw.extractLsb' 0 16

/-- `op ## a ## b`. -/
def commandWord (op a : BitVec 8) (b : BitVec 16) : Word := op ++ a ++ b

/-! ## The opcode map (R95) -/

def Op.code : Op → BitVec 8
  | .start => 0x01
  | .resume => 0x02
  | .isIdle => 0x03
  | .isAvail => 0x04
  | .rdsr => 0x05
  | .rdraw => 0x06
  | .rddesc => 0x07
  | .toMicros => 0x08
  | .matchMark => 0x10
  | .matchSpace => 0x11
  | .matchExact => 0x12
  | .decode => 0x20
  | .tryDec => 0x21
  | .send => 0x30
  | .sendRaw => 0x31
  | .sendBi => 0x32

def Op.format : Op → Format
  | .start | .resume | .isIdle | .isAvail | .decode => .z
  | .rdsr | .rdraw | .toMicros => .i
  | .rddesc | .tryDec => .s
  | .matchMark | .matchSpace | .matchExact => .m
  | .send => .t
  | .sendRaw => .v
  | .sendBi => .b

/-- Field `a` is part of the opcode pattern and must be 0 (R92): in every format but S and T. -/
def Op.aMustBeZero (o : Op) : Bool :=
  match o.format with
  | .z | .i | .m | .v | .b => true
  | .s | .t => false

/-- Field `b` is part of the opcode pattern and must be 0 (R92): in format Z and in TRYDEC. -/
def Op.bMustBeZero (o : Op) : Bool :=
  match o.format with
  | .z => true
  | .s => o == .tryDec
  | .i | .m | .t | .v | .b => false

/-- `match` of R95. -/
def Op.matchWord (o : Op) : Word := commandWord o.code 0 0

/-- `mask` of R95. -/
def Op.maskWord (o : Op) : Word :=
  commandWord 0xFF (if o.aMustBeZero then 0xFF else 0) (if o.bMustBeZero then 0xFFFF else 0)

/-- The row an opcode is assigned to; the unassigned opcodes of R97 have none. -/
def opOfCode (c : BitVec 8) : Option Op :=
  match c.toNat with
  | 0x01 => some .start
  | 0x02 => some .resume
  | 0x03 => some .isIdle
  | 0x04 => some .isAvail
  | 0x05 => some .rdsr
  | 0x06 => some .rdraw
  | 0x07 => some .rddesc
  | 0x08 => some .toMicros
  | 0x10 => some .matchMark
  | 0x11 => some .matchSpace
  | 0x12 => some .matchExact
  | 0x20 => some .decode
  | 0x21 => some .tryDec
  | 0x30 => some .send
  | 0x31 => some .sendRaw
  | 0x32 => some .sendBi
  | _ => none

/-- The row a command word selects (R95, R97): its opcode is assigned and its must-be-zero fields are 0. -/
def selectRow (cw : Word) : Option Op :=
  match opOfCode (opField cw) with
  | none => none
  | some o =>
    if (o.aMustBeZero && aField cw != 0) || (o.bMustBeZero && bField cw != 0) then none else some o

/-- `L(CW)`, the packet's length in words (R93). -/
def packetLength (wb : WordBits) (cw : Word) : Nat :=
  match selectRow cw with
  | none => 1
  | some o =>
    match o.format with
    | .z | .i | .s => 1
    | .m => 2
    | .t => 2 + wb.chunkCount (bField cw).toNat * wb.words
    | .v => 1 + (bField cw).toNat
    | .b => 2 + wb.words

/-! ## Operand assembly (R99) -/

/-- The chunks held by operand words: one word each, or two with the low half first. `none` when half a chunk is
left over. -/
def chunksOfWords : WordBits → List Word → Option (List Chunk)
  | .w32, ws => some (ws.map fun w => w.zeroExtend 64)
  | .w64, [] => some []
  | .w64, [_] => none
  | .w64, lo :: hi :: ws => (chunksOfWords .w64 ws).map ((hi ++ lo : Chunk) :: ·)

/-- The operand words of a chunk (R99). -/
def wordsOfChunk : WordBits → Chunk → List Word
  | .w32, c => [c.extractLsb' 0 32]
  | .w64, c => [c.extractLsb' 0 32, c.extractLsb' 32 32]

/-- The operation a row and its operand words stand for (R92, R99). -/
def assemble (wb : WordBits) (o : Op) (cw : Word) (operands : List Word) : Except DecodeError Instr :=
  match o, operands with
  | .start, _ => .ok .start
  | .resume, _ => .ok .resume
  | .isIdle, _ => .ok .isIdle
  | .isAvail, _ => .ok .isAvail
  | .rdsr, _ => .ok (.rdsr (bField cw))
  | .rdraw, _ => .ok (.rdraw (bField cw))
  | .rddesc, _ => .ok (.rddesc (aField cw) (bField cw))
  | .toMicros, _ => .ok (.toMicros (bField cw))
  | .matchMark, [target] => .ok (.matchMark (bField cw) target)
  | .matchSpace, [target] => .ok (.matchSpace (bField cw) target)
  | .matchExact, [target] => .ok (.matchExact (bField cw) target)
  | .decode, _ => .ok .decode
  | .tryDec, _ => .ok (.tryDec (aField cw))
  | .send, repeats :: ws =>
    match chunksOfWords wb ws with
    | some chunks => .ok (.send (aField cw) (bField cw) repeats chunks)
    | none => .error .wrongLength
  | .sendRaw, durations => .ok (.sendRaw durations)
  | .sendBi, unit :: ws =>
    match chunksOfWords wb ws with
    | some [codeword] => .ok (.sendBi (bField cw) unit codeword)
    | _ => .error .wrongLength
  | _, _ => .error .wrongLength

/-- The packet decoder (R95, R97): total, and illegal packets are rejected by name. -/
def decodePacket (wb : WordBits) (words : List Word) : Except DecodeError Instr :=
  match words with
  | [] => .error .emptyPacket
  | cw :: operands =>
    match selectRow cw with
    | none => .error .noRow
    | some o =>
      if words.length = packetLength wb cw then assemble wb o cw operands else .error .wrongLength

/-- What an input of either port asks for. -/
def decodeInput (wb : WordBits) : PortInput → Except DecodeError Instr
  | .tick pin => .ok (.tick pin)
  | .packet words => decodePacket wb words

/-! ## The encoder (R91 to R95, R99) -/

def encode (wb : WordBits) : Instr → PortInput
  | .tick pin => .tick pin
  | .start => .packet [commandWord 0x01 0 0]
  | .resume => .packet [commandWord 0x02 0 0]
  | .isIdle => .packet [commandWord 0x03 0 0]
  | .isAvail => .packet [commandWord 0x04 0 0]
  | .rdsr n => .packet [commandWord 0x05 0 n]
  | .rdraw i => .packet [commandWord 0x06 0 i]
  | .rddesc slot word => .packet [commandWord 0x07 slot word]
  | .toMicros t => .packet [commandWord 0x08 0 t]
  | .matchMark ticks target => .packet [commandWord 0x10 0 ticks, target]
  | .matchSpace ticks target => .packet [commandWord 0x11 0 ticks, target]
  | .matchExact ticks target => .packet [commandWord 0x12 0 ticks, target]
  | .decode => .packet [commandWord 0x20 0 0]
  | .tryDec slot => .packet [commandWord 0x21 slot 0]
  | .send slot nbits repeats chunks =>
    .packet (commandWord 0x30 slot nbits :: repeats :: chunks.flatMap (wordsOfChunk wb))
  | .sendRaw durations =>
    .packet (commandWord 0x31 0 (BitVec.ofNat 16 durations.length) :: durations)
  | .sendBi nbits unit codeword =>
    .packet (commandWord 0x32 0 nbits :: unit :: wordsOfChunk wb codeword)

/-! ## Words numbered as spec/opcode_table.json numbers them -/

/-- The 32-bit words of a number, the first word in its low bits. -/
def wordsOfNat : Nat → Nat → List Word
  | 0, _ => []
  | k + 1, w => BitVec.ofNat 32 w :: wordsOfNat k (w / 2 ^ 32)

/-- The port input whose bits are `w` (DESIGN CHOICE, log entry 18). Fewer than 32 bits can only be the tick port's single bit
(R94); otherwise `w` is a packet, lengthened with operand words of zeros to `L(CW)`. -/
def inputOfTableWord (wb : WordBits) (nbits w : Nat) : PortInput :=
  if nbits < 32 then .tick (w % 2 == 1)
  else .packet (wordsOfNat (max (nbits / 32) (packetLength wb (BitVec.ofNat 32 w))) w)

/-- The operation the decoder reads from an opcode-table word, with WORD_BITS = 32, which is that of
`State.reset`. A tick port input has one bit, so a wider value there is no operation. -/
def decodeTableWord (nbits w : Nat) : Option Instr :=
  if nbits < 32 && decide (2 ≤ w) then none
  else
    match decodeInput .w32 (inputOfTableWord .w32 nbits w) with
    | .ok i => some i
    | .error _ => none

end Sys2Proof
end

