-- ==== Sys2Proof/Machine/State.lean ====
section
/-! DEFINITION. The machine's state (spec/10_state.md), its reset value (R42, R370), and the reasons a step can stop.

The state is plain data. The configuration is a field of it, constant under every operation, so that a claim about
every state is a claim about every configuration (DEDUCED, log entry 4). -/

namespace Sys2Proof.Machine

/-- The capture state (R20). -/
inductive CapState where
  | idle
  | mark
  | space
  | stop
  deriving DecidableEq, Repr

/-- The level of the receiver pin (R151). -/
inductive Level where
  | mark
  | space
  deriving DecidableEq, Repr

/-- One event handed to PulseOutput (R35, R290). Durations are exact microseconds. -/
inductive TxEvent where
  | carrier (kHz : BitVec 8)
  | mark (micros : Nat)
  | space (micros : Nat)
  | wait (micros : Nat)
  deriving DecidableEq, Repr

/-- The status codes' names (R330). `parityFailed`, `classificationFailed` and `invalidRepeatConfiguration` are
reserved numbers that no command answers with (R335 to R337). -/
inductive Status where
  | ok
  | noFrameAvailable
  | overflow
  | decodeMismatch
  | parityFailed
  | classificationFailed
  | invalidRepeatConfiguration
  | badCommand
  | badOperand
  deriving DecidableEq, Repr

/-- One response (R96): the status of RW0 bits 7:0 and the value word RW1. -/
structure Response where
  status : Status
  value : Word
  deriving DecidableEq, Repr

/-- The DecodedFrame result registers (R29). `raw` is DF_RAW as "an explicit sized list of fixed-width words" (R31). -/
structure DecodedFrame where
  valid : Bool
  tag : BitVec 8
  addr : BitVec 16
  cmd : BitVec 16
  nbits : BitVec 16
  flags : BitVec 6
  extra : BitVec 16
  raw : List Chunk
  deriving DecidableEq, Repr

/-- Every DecodedFrame register at 0 (R42, R206). -/
def DecodedFrame.cleared : DecodedFrame where
  valid := false
  tag := 0
  addr := 0
  cmd := 0
  nbits := 0
  flags := 0
  extra := 0
  raw := []

/-- The LAST registers (R32). -/
structure LastDecode where
  valid : Bool
  tag : BitVec 8
  addr : BitVec 16
  cmd : BitVec 16
  deriving DecidableEq, Repr

/-- A cell of RAWBUF: a unit index and its entry (R60). -/
abbrev RawCell := Nat × Entry

/-- RAWBUF in canonical form: indices strictly rising, no entry equal to `Memory.unlisted` (DEDUCED, log entry 6). -/
abbrev Memory := List RawCell

/-- What an entry that nothing has written reads as. The spec leaves it unspecified and lets no operation show it
(R25, R42): DESIGN CHOICE 0, log entry 5. -/
def Memory.unlisted : Entry := 0

/-- The whole state of one instance (R348; DEDUCED, log entry 12). -/
structure State where
  cfg : Config
  run : Bool
  capState : CapState
  elapsed : Entry
  len : Nat
  ovf : Bool
  rawbuf : Memory
  df : DecodedFrame
  last : LastDecode
  txRepdeg : Bool
  txCarrier : BitVec 8
  txTrace : List TxEvent
  responses : List Response
  pending : List PortInput
  deriving DecidableEq, Repr

/-- A fault would be a condition that stops the machine. IRCODEC has none (R331): "No condition in IRCODEC transfers
control, saves state, or interrupts the host", and every error is a status in the response. No one raises one (DEDUCED, log entry 21). -/
inductive Fault : Type
  deriving DecidableEq, Repr

/-- Why a step can be refused. -/
inductive Refusal where
  /-- Raised by an arm of `exec` for an instruction without a meaning; no arm uses it. Safe. -/
  | notModelled (mnemonic : String)
  /-- Raised by `step` in a state whose configuration is outside the spec's ranges: "A configuration that violates a
  range of the table in rule R3 or this constraint is not a configuration of IRCODEC; a model refuses it" (R4; R39
  for the slots). Safe. -/
  | badConfiguration
  deriving DecidableEq, Repr

/-- The outcome of an operation. -/
abbrev Out := Host.Outcome State Fault Refusal

/-- The state right after reset of an instance configured as `c` (R42, R370). Nothing is pending on the input ports
and no response has been given (DESIGN CHOICE, log entries 1, 2). -/
def State.resetWith (c : Config) : State where
  cfg := c
  run := false
  capState := .idle
  elapsed := 0
  len := 0
  ovf := false
  rawbuf := []
  df := .cleared
  last := { valid := false, tag := 0, addr := 0, cmd := 0 }
  txRepdeg := false
  txCarrier := 0
  txTrace := []
  responses := []
  pending := []

/-- The machine right after reset, configured as CFG-A (DESIGN CHOICE, log entry 3). -/
def State.reset : State := .resetWith .cfgA

end Sys2Proof.Machine
end

