-- ==== Sys2Proof/Machine/Ops.lean ====
section
/-! DEFINITION. The shared operations: reading and writing RAWBUF, the response (which is this hardware's "trap entry",
spec/60_exceptions.md R342), the push and overflow of the capture unit, and the emission of transmit events. -/

namespace Sys2Proof.Machine

/-! ## RAWBUF (R60, R61) -/

/-- `MemRead(RAWBUF, a, 1)`. -/
def Memory.read : Memory → Nat → Entry
  | [], _ => Memory.unlisted
  | (b, x) :: m, a => if a = b then x else Memory.read m a

/-- `MemWrite(RAWBUF, a, 1, v)`, keeping the canonical form. -/
def Memory.write : Memory → Nat → Entry → Memory
  | [], a, v => if v = Memory.unlisted then [] else [(a, v)]
  | (b, x) :: m, a, v =>
    if a < b then
      if v = Memory.unlisted then (b, x) :: m else (a, v) :: (b, x) :: m
    else if a = b then
      if v = Memory.unlisted then m else (a, v) :: m
    else (b, x) :: Memory.write m a v

/-- Index `b` lies above the one listed before it, if there is one. -/
def Memory.above : Option Nat → Nat → Bool
  | none, _ => true
  | some l, b => decide (l < b)

/-- The indices above `lo` rise strictly and no entry is the unlisted one. -/
def Memory.wfFrom : Option Nat → Memory → Bool
  | _, [] => true
  | lo, (b, x) :: m => Memory.above lo b && decide (x ≠ Memory.unlisted) && Memory.wfFrom (some b) m

/-- The canonical form (DEDUCED, log entry 6). -/
def Memory.wf (m : Memory) : Bool := Memory.wfFrom none m

/-- `buf[i]` as the number it is (R25). -/
def State.entry (s : State) (i : Nat) : Nat := (Memory.read s.rawbuf i).toNat

/-! ## Ending a host command (R96) -/

/-- The code of a status (R330). -/
def Status.code : Status → BitVec 8
  | .ok => 0x00
  | .noFrameAvailable => 0x01
  | .overflow => 0x02
  | .decodeMismatch => 0x03
  | .parityFailed => 0x04
  | .classificationFailed => 0x05
  | .invalidRepeatConfiguration => 0x06
  | .badCommand => 0x80
  | .badOperand => 0x81

/-- RW0: the status in bits 7:0 and zeros above (R96). -/
def Response.rw0 (r : Response) : Word := r.status.code.zeroExtend 32

/-- RW1: the value (R96). -/
def Response.rw1 (r : Response) : Word := r.value

/-- `respond(st, v)`: the one response of a packet (R96). -/
def respond (st : Status) (v : Word) (s : State) : State :=
  { s with responses := s.responses ++ [{ status := st, value := v }] }

/-- `raise <Status>`: the response carries the code and the value 0; nothing is saved, no mode changes and control
goes nowhere (R342; spec/00_scope.md §5.3). The host's "return" from it does not exist (R343). -/
def raise (st : Status) (s : State) : State := respond st 0 s

/-- The answer to a malformed packet: "No state changes; the response is `(BadCommand, 0)`" (R339). -/
def rejectPacket (s : State) : State := raise .badCommand s

/-- A truth value as the value word of a response (R96). -/
def boolWord (b : Bool) : Word := if b then 1 else 0

/-! ## The capture unit's writes (R153 to R160) -/

/-- `sat_TICK_BITS(elapsed + 1)` (R152). -/
def satInc (tickBits : Nat) (e : Entry) : Entry :=
  BitVec.ofNat 16 (min (e.toNat + 1) (2 ^ tickBits - 1))

/-- `level(pin)` (R151): Mark iff `pin XOR ACTIVE_LOW = 1`. -/
def levelOf (c : Config) (pin : Bool) : Level := if xor pin c.activeLow then .mark else .space

/-- R153: the old frame is replaced by one entry, the leading gap. -/
def startFrame (e : Entry) (s : State) : State :=
  { s with rawbuf := Memory.write s.rawbuf 0 e, len := 1, ovf := false, capState := .mark, elapsed := 0 }

/-- R160: the push has no room. -/
def overflowFrame (s : State) : State :=
  { s with ovf := true, capState := .stop, elapsed := 0 }

/-- The push of R156 and R157, into `next`, or R160 when `len = RAW_CAP` (DESIGN CHOICE, log entry 14, for `len > RAW_CAP`). -/
def pushEntry (e : Entry) (next : CapState) (s : State) : State :=
  if s.len < s.cfg.rawCap then
    { s with rawbuf := Memory.write s.rawbuf s.len e, len := s.len + 1, capState := next, elapsed := 0 }
  else overflowFrame s

/-- What RESUME does, and START on a running unit (R167, R168): STOP → IDLE and nothing else. -/
def releaseFrame (s : State) : State :=
  match s.capState with
  | .stop => { s with capState := .idle }
  | .idle | .mark | .space => s

/-! ## The result registers (R206) -/

/-- `clearDF()`. -/
def clearDF (s : State) : State := { s with df := .cleared }

/-! ## Transmit events (R291) -/

/-- The duration an event stands for; a carrier setting takes no time. -/
def TxEvent.micros : TxEvent → Nat
  | .carrier _ => 0
  | .mark d | .space d | .wait d => d

/-- `emit` of each pulse in order: "An event of zero duration is not appended" (R291). -/
def emitted (pulses : List TxEvent) : List TxEvent := pulses.filter fun p => decide (0 < p.micros)

/-- The sum of what `emit` returns: a zero duration "still counts in the sums" (R291). -/
def totalMicros (pulses : List TxEvent) : Nat := (pulses.map TxEvent.micros).sum

/-- Append the emitted pulses to TXTRACE. -/
def emit (pulses : List TxEvent) (s : State) : State :=
  { s with txTrace := s.txTrace ++ emitted pulses }

end Sys2Proof.Machine
end

