-- ==== Sys2Proof/Machine/Operands.lean ====
section
/-! DEFINITION. The forms in which bits are put together and taken apart: chunks (spec/42_decode_common.md R215, R216),
fields (R217), the bits to send (spec/46_encode.md R293, R301) and the runs of levels (R302). -/

namespace Sys2Proof.Machine

/-- The number whose bit `k` is `bits[k]`. -/
def bitsToNat : List Bool → Nat
  | [] => 0
  | b :: bs => b.toNat + 2 * bitsToNat bs

/-- A run of bits in transmission order, read as a number in the slot's bit order (R217; R216 for one chunk): with
LSB-first the first bit received is bit 0, with MSB-first it is the top bit of the run. -/
def orderedNat (o : BitOrder) (bits : List Bool) : Nat :=
  match o with
  | .lsbFirst => bitsToNat bits
  | .msbFirst => bitsToNat bits.reverse

/-- `field(c, p, w)` (R217). -/
def field (o : BitOrder) (c : List Bool) (p w : Nat) : Nat := orderedNat o ((c.drop p).take w)

/-- Chunk `j` of the decoded bits `c` (R215, R216). -/
def chunkAt (wb : WordBits) (o : BitOrder) (c : List Bool) (j : Nat) : Chunk :=
  BitVec.ofNat 64 (orderedNat o ((c.drop (j * wb.bits)).take wb.bits))

/-- `chunks(d, c)` (R215, R216): ⌈n/W⌉ chunks. -/
def chunksOfBits (wb : WordBits) (o : BitOrder) (c : List Bool) : List Chunk :=
  (List.range (wb.chunkCount c.length)).map (chunkAt wb o c)

/-- Bit `i` of an `n`-bit codeword in transmission order (R293), with `i = jW + k` and `n_j = min(W, n − jW)`. A chunk
that is not there reads 0; R93 leaves no such packet (DESIGN CHOICE, log entry 17). -/
def txBit (wb : WordBits) (o : BitOrder) (chunks : List Chunk) (n i : Nat) : Bool :=
  let j := i / wb.bits
  let k := i % wb.bits
  let nj := min wb.bits (n - j * wb.bits)
  let chunk := chunks.getD j 0
  match o with
  | .lsbFirst => chunk.getLsbD k
  | .msbFirst => chunk.getLsbD (nj - 1 - k)

/-- `txbits(bitOrder, chunk, N)` (R293). -/
def txBits (wb : WordBits) (o : BitOrder) (chunks : List Chunk) (n : Nat) : List Bool :=
  (List.range n).map (txBit wb o chunks n)

/-- The bits of SENDBI: the most significant of the `n` bits first (R301). -/
def biBitsToSend (codeword : Chunk) (n : Nat) : List Bool :=
  (List.range n).map fun k => codeword.getLsbD (n - 1 - k)

/-- The two half-units of a bit cell (R270, R301): 1 is (Space, Mark), 0 is (Mark, Space). -/
def halvesOfBit : Bool → List Level
  | true => [.space, .mark]
  | false => [.mark, .space]

/-- The maximal runs of equal levels, in order (R301, R302). -/
def runs : List Level → List (Level × Nat)
  | [] => []
  | l :: ls =>
    match runs ls with
    | [] => [(l, 1)]
    | (l', k) :: rs => if l = l' then (l, k + 1) :: rs else (l, 1) :: (l', k) :: rs

/-- DF_RAW32[i], the chunks as 32-bit words (R31); 0 beyond the last. -/
def rawWord (wb : WordBits) (raw : List Chunk) (i : Nat) : Word :=
  match wb with
  | .w32 => (raw.getD i 0).extractLsb' 0 32
  | .w64 => (raw.getD (i / 2) 0).extractLsb' (32 * (i % 2)) 32

end Sys2Proof.Machine
end

