-- ==== Sys2Proof/Machine/Flags.lean ====
section
/-! DEFINITION. The flag computations: DF_FLAGS (spec/10_state.md R30), parity (spec/42_decode_common.md R219) and the
auto-repeat test (R209). IRCODEC has no condition codes (R41); `ovf`, `run` and TX_REPDEG are written where their rules
are. -/

namespace Sys2Proof.Machine

/-- DF_FLAGS from its six bits (R30). -/
def dfFlags (isRepeat isAutoRepeat parityFailed extraInfoPresent overflow : Bool) (order : BitOrder) : BitVec 6 :=
  BitVec.ofBool (order == .msbFirst) ++ BitVec.ofBool overflow ++ BitVec.ofBool extraInfoPresent ++
    BitVec.ofBool parityFailed ++ BitVec.ofBool isAutoRepeat ++ BitVec.ofBool isRepeat

def flagIsRepeat (f : BitVec 6) : Bool := f.getLsbD 0
def flagIsAutoRepeat (f : BitVec 6) : Bool := f.getLsbD 1
def flagParityFailed (f : BitVec 6) : Bool := f.getLsbD 2
def flagExtraInfoPresent (f : BitVec 6) : Bool := f.getLsbD 3
def flagOverflow (f : BitVec 6) : Bool := f.getLsbD 4
def flagBitOrder (f : BitVec 6) : Bool := f.getLsbD 5

/-- The flags of a failed DECODE or TRYDEC on an overflowed frame: only `overflow` (R213). -/
def overflowFlags : BitVec 6 := dfFlags false false false false true .lsbFirst

/-- A complemented field does not XOR to all ones with its field (R219). -/
def complementFails (x y : Nat) : Bool := (BitVec.ofNat 8 x ^^^ BitVec.ofNat 8 y) != 0xFF

/-- `isAutoRepeat` (R209): the leading gap is strictly shorter than the slot's minimum command gap. The flag is set
alone: R207 step 6 puts it at bit 1 and R211 says that `isRepeat` is 0 in a full result (DEDUCED against D19, log
entry 9). -/
def autoRepeat (c : Config) (d : Slot) (s : State) : Bool :=
  decide (s.entry 0 * c.dt < d.minCommandGapMicros.toNat)

end Sys2Proof.Machine
end

