-- ==== Sys2Proof/Machine/Configure.lean ====
section
/-! DEFINITION. Which configurations are configurations of IRCODEC (spec/00_scope.md R3, R4; spec/10_state.md R39), and
the words a slot occupies in DTAB (R38). -/

namespace Sys2Proof.Machine

/-- hasTrailer (R37). -/
def hasTrailer (d : Slot) : Bool := d.trailerMarkMicros.isSome

/-- `trailerMarkMicros`, 0 when there is none (R38 word 8). -/
def trailerMicros (d : Slot) : Word := d.trailerMarkMicros.getD 0

/-- hasRepeatSignal (R37). -/
def hasRepeatSignal (d : Slot) : Bool := d.repeatSignal.isSome

/-- The number of output bits of a slot (R39 item 7, R278). -/
def outputBits (d : Slot) : Nat :=
  match d.convention with
  | .pulseDistance | .pulseWidth => d.bitCount.toNat
  | .biphase => d.bitCount.toNat - 1

/-! ## The conditions of R39, by item. The reserved codes of item 1 are not values of the types (DEDUCED, log entry 15). -/

/-- Item 2. -/
def bitCountOk (nwmax : Nat) (d : Slot) : Bool :=
  match d.convention with
  | .pulseDistance | .pulseWidth => decide (1 ≤ d.bitCount.toNat ∧ d.bitCount.toNat ≤ 32 * nwmax)
  | .biphase => decide (2 ≤ d.bitCount.toNat ∧ d.bitCount.toNat ≤ 32 * nwmax + 1)

/-- Items 3 to 5: what each convention asks of the timing. -/
def timingOk (d : Slot) : Bool :=
  match d.convention with
  | .pulseDistance =>
    decide (d.oneMarkMicros = d.zeroMarkMicros ∧ 0 < d.zeroMarkMicros.toNat ∧
      d.zeroSpaceMicros.toNat < d.oneSpaceMicros.toNat ∧ 0 < d.zeroSpaceMicros.toNat ∧
      0 < d.headerMarkMicros.toNat ∧ 0 < d.headerSpaceMicros.toNat ∧
      hasTrailer d = true ∧ 0 < (trailerMicros d).toNat)
  | .pulseWidth =>
    decide (d.oneSpaceMicros = d.zeroSpaceMicros ∧ 0 < d.zeroSpaceMicros.toNat ∧
      d.zeroMarkMicros.toNat < d.oneMarkMicros.toNat ∧ 0 < d.zeroMarkMicros.toNat ∧
      0 < d.headerMarkMicros.toNat ∧ 0 < d.headerSpaceMicros.toNat ∧
      (hasTrailer d = true → 0 < (trailerMicros d).toNat))
  | .biphase =>
    decide (d.oneMarkMicros = d.zeroMarkMicros ∧ d.zeroMarkMicros = d.oneSpaceMicros ∧
      d.oneSpaceMicros = d.zeroSpaceMicros ∧ 0 < d.zeroSpaceMicros.toNat ∧
      d.headerMarkMicros = 0 ∧ d.headerSpaceMicros = 0 ∧
      hasTrailer d = false ∧ hasRepeatSignal d = false)

/-- Item 6. -/
def repeatOk (d : Slot) : Bool :=
  match d.repeatSignal with
  | none => true
  | some r => hasTrailer d && decide (0 < r.markMicros.toNat) && decide (0 < r.spaceMicros.toNat)

/-- Item 7. -/
def layoutOk (d : Slot) : Bool :=
  match d.layout with
  | .raw => true
  | .acpar => outputBits d == 32
  | .rc5 => outputBits d == 13

/-- A slot is well-formed (R39). -/
def slotWf (nwmax : Nat) (d : Slot) : Bool :=
  d.tag != 0 && bitCountOk nwmax d && timingOk d && repeatOk d && layoutOk d

/-- The ranges of R3 and the constraint of R4. -/
def rangesOk (c : Config) : Bool :=
  decide (1 ≤ c.dt ∧ c.dt ≤ 65535) && decide (c.tol ≤ 100) && decide (c.markExcess ≤ 65535) &&
    decide (8 ≤ c.tickBits ∧ c.tickBits ≤ 16) && decide (1 ≤ c.gapTicks ∧ c.gapTicks ≤ 2 ^ c.tickBits - 2) &&
    decide (4 ≤ c.rawCap ∧ c.rawCap ≤ 65535) && decide (c.wordBits.words ≤ c.nwmax) && decide (c.ndec ≤ 255)

/-- A configuration of IRCODEC (R3, R4, R39). -/
def configWf (c : Config) : Bool := rangesOk c && c.dtab.all (slotWf c.nwmax)

/-! ## The slot as sixteen words (R38) -/

def bitOrderBit : BitOrder → Bool
  | .lsbFirst => false
  | .msbFirst => true

def conventionCode : Convention → BitVec 2
  | .pulseDistance => 0
  | .pulseWidth => 1
  | .biphase => 2

def layoutCode : Layout → BitVec 4
  | .raw => 0
  | .acpar => 1
  | .rc5 => 2

/-- Word 6: `layout` at 27:24, `convention` at 21:20, the three flags at 18:16, `bitCount` at 15:0. -/
def slotShapeWord (d : Slot) : Word :=
  0#4 ++ layoutCode d.layout ++ 0#2 ++ conventionCode d.convention ++ 0#1 ++ BitVec.ofBool (hasRepeatSignal d) ++
    BitVec.ofBool (hasTrailer d) ++ BitVec.ofBool (bitOrderBit d.bitOrder) ++ d.bitCount

/-- Word 7: `tag` at 31:24, `repeatPeriodMillis` at 23:8, `frequencyKHz` at 7:0. -/
def slotRateWord (d : Slot) : Word := d.tag ++ d.repeatPeriodMillis ++ d.frequencyKHz

/-- The sixteen words of a slot, word 0 first (R38). -/
def slotWords (d : Slot) : List Word :=
  [d.headerMarkMicros, d.headerSpaceMicros, d.oneMarkMicros, d.zeroMarkMicros, d.oneSpaceMicros, d.zeroSpaceMicros,
    slotShapeWord d, slotRateWord d, trailerMicros d,
    (d.repeatSignal.map RepeatSignal.markMicros).getD 0, (d.repeatSignal.map RepeatSignal.spaceMicros).getD 0,
    d.minCommandGapMicros, 0, 0, 0, 0]

/-- The convention a code stands for; 3 is reserved (R37). -/
def conventionOfCode (c : BitVec 2) : Option Convention :=
  match c.toNat with
  | 0 => some .pulseDistance
  | 1 => some .pulseWidth
  | 2 => some .biphase
  | _ => none

/-- The layout a code stands for; 3 to 15 are reserved (R37). -/
def layoutOfCode (c : BitVec 4) : Option Layout :=
  match c.toNat with
  | 0 => some .raw
  | 1 => some .acpar
  | 2 => some .rc5
  | _ => none

/-- The optional value of a word that reads 0 when it is absent (R38 words 8 to 10): a present one is any word, an
absent one is 0 and nothing else. -/
def optionalWord (present : Bool) (w : Word) : Option (Option Word) :=
  if present then some (some w) else if w = 0 then some none else none

/-- The slot sixteen words stand for, refused when a reserved bit is set, a reserved code is used, or a field that is
absent is not 0 (R38, R39 item 1; spec/93_implementation_defined.md U6, U7). -/
def slotOfWords (ws : List Word) : Option Slot :=
  match ws with
  | [hm, hs, om, zm, os, zs, shape, rate, tr, rm, rs, gap, 0, 0, 0, 0] =>
    if shape.extractLsb' 28 4 = 0 ∧ shape.extractLsb' 22 2 = 0 ∧ shape.extractLsb' 19 1 = 0 then
      match conventionOfCode (shape.extractLsb' 20 2), layoutOfCode (shape.extractLsb' 24 4),
        optionalWord (shape.getLsbD 17) tr, optionalWord (shape.getLsbD 18) rm,
        optionalWord (shape.getLsbD 18) rs with
      | some conv, some lay, some trailer, some repMark, some repSpace =>
        some
          { headerMarkMicros := hm
            headerSpaceMicros := hs
            oneMarkMicros := om
            zeroMarkMicros := zm
            oneSpaceMicros := os
            zeroSpaceMicros := zs
            bitCount := shape.extractLsb' 0 16
            bitOrder := if shape.getLsbD 16 then .msbFirst else .lsbFirst
            frequencyKHz := rate.extractLsb' 0 8
            repeatPeriodMillis := rate.extractLsb' 8 16
            trailerMarkMicros := trailer
            convention := conv
            layout := lay
            tag := rate.extractLsb' 24 8
            repeatSignal :=
              match repMark, repSpace with
              | some m, some sp => some { markMicros := m, spaceMicros := sp }
              | _, _ => none
            minCommandGapMicros := gap }
      | _, _, _, _, _ => none
    else none
  | _ => none

end Sys2Proof.Machine
end

