-- ==== Sys2Proof/Machine/Matcher.lean ====
section
/-! DEFINITION. The ToleranceMatcher (spec/40_matcher.md): the common predicate, the three functions every decoder calls,
and MATCHMARK, MATCHSPACE, MATCHEXACT. -/

namespace Sys2Proof.Machine

/-- `within(m, a)` (R130), exact in ℤ: `a(100 − TOL) ≤ 100·m·DT` and `100·m·DT ≤ a(100 + TOL)`. -/
def within (c : Config) (m : Nat) (a : Int) : Bool :=
  decide (a * (100 - (c.tol : Int)) ≤ 100 * (m : Int) * (c.dt : Int)) &&
    decide (100 * (m : Int) * (c.dt : Int) ≤ a * (100 + (c.tol : Int)))

/-- `matchMark(m, t)` (R131): marks read long, so the correction is added. -/
def matchMark (c : Config) (m t : Nat) : Bool := within c m ((t : Int) + (c.markExcess : Int))

/-- `matchSpace(m, t)` (R132): spaces read short; the corrected target may be negative. -/
def matchSpace (c : Config) (m t : Nat) : Bool := within c m ((t : Int) - (c.markExcess : Int))

/-- `matchExact(m, t)` (R133): no correction. -/
def matchExact (c : Config) (m t : Nat) : Bool := within c m (t : Int)

/-- MATCHMARK (R131). -/
def execMatchMark (ticks : BitVec 16) (target : Word) (s : State) : Out :=
  .next (respond .ok (boolWord (matchMark s.cfg ticks.toNat target.toNat)) s)

/-- MATCHSPACE (R132). -/
def execMatchSpace (ticks : BitVec 16) (target : Word) (s : State) : Out :=
  .next (respond .ok (boolWord (matchSpace s.cfg ticks.toNat target.toNat)) s)

/-- MATCHEXACT (R133). -/
def execMatchExact (ticks : BitVec 16) (target : Word) (s : State) : Out :=
  .next (respond .ok (boolWord (matchExact s.cfg ticks.toNat target.toNat)) s)

end Sys2Proof.Machine
end

