-- ==== Sys2Proof/Machine/Capture.lean ====
section
/-! DEFINITION. EdgeCapture (spec/41_capture_quantizer.md): the TICK event, and the capture control START, RESUME, ISIDLE,
ISAVAIL. -/

namespace Sys2Proof.Machine

/-- The transition of a running unit on a level, with the incremented counter `e` (R153 to R160; the twelve rows of
R161, in their order). -/
def captureTransition (lvl : Level) (e : Entry) (s : State) : State :=
  match s.capState, lvl with
  | .idle, .space => { s with elapsed := e }
  | .idle, .mark => if s.cfg.gapTicks ≤ e.toNat then startFrame e s else { s with elapsed := 0 }
  | .mark, .mark => { s with elapsed := e }
  | .mark, .space => pushEntry e .space s
  | .space, .mark => pushEntry e .mark s
  | .space, .space =>
    if s.cfg.gapTicks < e.toNat then { s with elapsed := e, capState := .stop } else { s with elapsed := e }
  | .stop, .mark => { s with elapsed := 0 }
  | .stop, .space => { s with elapsed := e }

/-- A TICK on a running unit: map the pin (R151), increment first (R152), then one transition. -/
def tickRunning (pin : Bool) (s : State) : State :=
  captureTransition (levelOf s.cfg pin) (satInc s.cfg.tickBits s.elapsed) s

/-- TICK (R150): "If `run = 0` the event is ignored". It has no response (R94). -/
def execTick (pin : Bool) (s : State) : Out :=
  .next (if s.run then tickRunning pin s else s)

/-- The first START initialises the capture registers (R167). -/
def enableCapture (s : State) : State :=
  { s with run := true, capState := .idle, elapsed := 0, len := 0, ovf := false }

/-- START (R167): on a running unit it is a RESUME. -/
def execStart (s : State) : Out :=
  .next (respond .ok 0 (if s.run then releaseFrame s else enableCapture s))

/-- RESUME (R168). -/
def execResume (s : State) : Out := .next (respond .ok 0 (releaseFrame s))

/-- ISIDLE (R169). -/
def execIsIdle (s : State) : Out := .next (respond .ok (boolWord (s.capState == .idle)) s)

/-- ISAVAIL (R170). -/
def execIsAvail (s : State) : Out := .next (respond .ok (boolWord (s.capState == .stop)) s)

end Sys2Proof.Machine
end

