-- ==== Sys2Proof/Machine/Reads.lean ====
section
/-! DEFINITION. The reads (spec/41_capture_quantizer.md R166, R171 to R173): the status-register map of
spec/10_state.md R40, the descriptor words of R38, and RDSR, RDRAW, RDDESC, TOMICROS. -/

namespace Sys2Proof.Machine

/-- The code of a capture state (R20). -/
def CapState.code : CapState → BitVec 2
  | .idle => 0
  | .mark => 1
  | .space => 2
  | .stop => 3

/-- A number as a field of an SR word, zero-extended (R40). -/
def srNat (width n : Nat) : Word := (BitVec.ofNat width n).zeroExtend 32

/-- NWMAX in the eight bits of CFG_MISC; a free value when it does not fit (DESIGN CHOICE, log entry 7). -/
def nwmaxField (n : Nat) : BitVec 8 := if n < 256 then BitVec.ofNat 8 n else Config.freeNwmaxField n

/-- DF_NWORDS, `⌈DF_NBITS/W⌉ · (W/32)` (R40); a free value when it does not fit its eight bits (DESIGN CHOICE, log entry 8). -/
def nwordsField (n : Nat) : BitVec 8 := if n < 256 then BitVec.ofNat 8 n else Config.freeNwordsField n

/-- SR[0], CAP_STATUS. -/
def capStatus (s : State) : Word :=
  0#28 ++ BitVec.ofBool s.ovf ++ BitVec.ofBool s.run ++ s.capState.code

/-- SR[8], CFG_MISC. -/
def cfgMisc (c : Config) : Word :=
  nwmaxField c.nwmax ++ BitVec.ofNat 8 c.ndec ++ 0#3 ++ BitVec.ofNat 5 c.tickBits ++ 0#6 ++
    BitVec.ofBool (c.wordBits == .w64) ++ BitVec.ofBool c.activeLow

/-- SR[9] and SR[16]: the tag in 15:8 and the valid bit in 0. -/
def validTag (valid : Bool) (tag : BitVec 8) : Word := 0#16 ++ tag ++ 0#7 ++ BitVec.ofBool valid

/-- `MemRead(SR, n, 1)` (R40, R63); `none` for a reserved number. -/
def srRead (n : Nat) (s : State) : Option Word :=
  match n with
  | 0 => some (capStatus s)
  | 1 => some (s.elapsed.zeroExtend 32)
  | 2 => some (srNat 16 s.len)
  | 3 => some (srNat 16 s.cfg.dt)
  | 4 => some (srNat 8 s.cfg.tol)
  | 5 => some (srNat 16 s.cfg.markExcess)
  | 6 => some (srNat 16 s.cfg.gapTicks)
  | 7 => some (srNat 16 s.cfg.rawCap)
  | 8 => some (cfgMisc s.cfg)
  | 9 => some (validTag s.df.valid s.df.tag)
  | 10 => some (s.df.addr.zeroExtend 32)
  | 11 => some (s.df.cmd.zeroExtend 32)
  | 12 => some (s.df.nbits.zeroExtend 32)
  | 13 => some (s.df.flags.zeroExtend 32)
  | 14 => some (s.df.extra.zeroExtend 32)
  | 15 =>
    some ((nwordsField (s.cfg.wordBits.chunkCount s.df.nbits.toNat * s.cfg.wordBits.words)).zeroExtend 32)
  | 16 => some (validTag s.last.valid s.last.tag)
  | 17 => some (s.last.addr.zeroExtend 32)
  | 18 => some (s.last.cmd.zeroExtend 32)
  | 19 => some ((BitVec.ofBool s.txRepdeg).zeroExtend 32)
  | 20 => some (s.txCarrier.zeroExtend 32)
  | n => if 32 ≤ n ∧ n < 32 + s.cfg.nwmax then some (rawWord s.cfg.wordBits s.df.raw (n - 32)) else none

/-- `MemRead(DTAB, a, 1)` (R38, R62): word `a mod 16` of slot `a / 16`. -/
def dtabRead (a : Nat) (c : Config) : Option Word :=
  match c.dtab[a / 16]? with
  | none => none
  | some d => (slotWords d)[a % 16]?

/-- RDSR (R171). -/
def execRdsr (n : BitVec 16) (s : State) : Out :=
  match srRead n.toNat s with
  | some w => .next (respond .ok w s)
  | none => .next (raise .badOperand s)

/-- RDRAW (R172): in any capture state; the entry is zero-extended. -/
def execRdraw (i : BitVec 16) (s : State) : Out :=
  if s.len ≤ i.toNat then .next (raise .badOperand s)
  else .next (respond .ok ((Memory.read s.rawbuf i.toNat).zeroExtend 32) s)

/-- RDDESC (R173): "if s >= NDEC or w > 15 then raise BadOperand". -/
def execRddesc (slot : BitVec 8) (word : BitVec 16) (s : State) : Out :=
  if s.cfg.ndec ≤ slot.toNat ∨ 15 < word.toNat then .next (raise .badOperand s)
  else
    match dtabRead (16 * slot.toNat + word.toNat) s.cfg with
    | some w => .next (respond .ok w s)
    | none => .next (raise .badOperand s)

/-- TOMICROS (R166): the product is exact. -/
def execToMicros (t : BitVec 16) (s : State) : Out :=
  .next (respond .ok (BitVec.ofNat 32 (t.toNat * s.cfg.dt)) s)

end Sys2Proof.Machine
end

