-- ==== Sys2Proof/Machine/PulseDistance.lean ====
section
/-! DEFINITION. The pulse-distance decoder `pdBits` (spec/43_decode_pulse_distance.md). -/

namespace Sys2Proof.Machine

/-- The shared bit-loop (spec/42_decode_common.md R214): `f` for `n` bits in ascending order from bit `k`, ending at the
first mismatch. -/
def collectBits (f : Nat → Option Bool) : Nat → Nat → Option (List Bool)
  | _, 0 => some []
  | k, n + 1 =>
    match f k with
    | none => none
    | some b =>
      match collectBits f (k + 1) n with
      | none => none
      | some bs => some (b :: bs)

/-- The header of R241 and R256: a mark and a space. -/
def headerMatches (d : Slot) (s : State) : Bool :=
  matchMark s.cfg (s.entry 1) d.headerMarkMicros.toNat && matchSpace s.cfg (s.entry 2) d.headerSpaceMicros.toNat

/-- Bit `k` of R242: the constant mark is checked for every bit (R245), and one is tested before zero (R244). -/
def pdBit (d : Slot) (s : State) (k : Nat) : Option Bool :=
  if matchMark s.cfg (s.entry (3 + 2 * k)) d.oneMarkMicros.toNat then
    if matchSpace s.cfg (s.entry (4 + 2 * k)) d.oneSpaceMicros.toNat then some true
    else if matchSpace s.cfg (s.entry (4 + 2 * k)) d.zeroSpaceMicros.toNat then some false
    else none
  else none

/-- `pdBits(d)` (R242); `none` is mismatch (R205). -/
def pdBits (d : Slot) (s : State) : Option (List Bool) :=
  let n := d.bitCount.toNat
  if s.len ≠ 2 * n + 4 then none
  else if !headerMatches d s then none
  else
    match collectBits (pdBit d s) 0 n with
    | none => none
    | some c =>
      if matchMark s.cfg (s.entry (3 + 2 * n)) (trailerMicros d).toNat then some c else none

end Sys2Proof.Machine
end

