-- ==== Sys2Proof/Machine/PulseWidth.lean ====
section
/-! DEFINITION. The pulse-width decoder `pwBits` (spec/44_decode_pulse_width.md). -/

namespace Sys2Proof.Machine

/-- The frame length a slot implies (R256): the last bit's space and the trailer are there only with a trailer. -/
def pwLength (d : Slot) : Nat :=
  if hasTrailer d then 2 * d.bitCount.toNat + 4 else 2 * d.bitCount.toNat + 2

/-- The mark of bit `k` (R257): one is tested before zero (R259). -/
def pwMark (d : Slot) (s : State) (k : Nat) : Option Bool :=
  if matchMark s.cfg (s.entry (3 + 2 * k)) d.oneMarkMicros.toNat then some true
  else if matchMark s.cfg (s.entry (3 + 2 * k)) d.zeroMarkMicros.toNat then some false
  else none

/-- The space of bit `k` is recorded (R256). -/
def pwSpacePresent (d : Slot) (k : Nat) : Bool := decide (k + 1 < d.bitCount.toNat) || hasTrailer d

/-- Bit `k` of R257: its mark, then its constant space where it is recorded (R260). -/
def pwBit (d : Slot) (s : State) (k : Nat) : Option Bool :=
  match pwMark d s k with
  | none => none
  | some b =>
    if pwSpacePresent d k && !matchSpace s.cfg (s.entry (4 + 2 * k)) d.oneSpaceMicros.toNat then none else some b

/-- `pwBits(d)` (R257); `none` is mismatch (R205). -/
def pwBits (d : Slot) (s : State) : Option (List Bool) :=
  let n := d.bitCount.toNat
  if s.len ≠ pwLength d then none
  else if !headerMatches d s then none
  else
    match collectBits (pwBit d s) 0 n with
    | none => none
    | some c =>
      if hasTrailer d && !matchMark s.cfg (s.entry (3 + 2 * n)) (trailerMicros d).toNat then none else some c

end Sys2Proof.Machine
end

