-- ==== Sys2Proof/Machine/Biphase.lean ====
section
/-! DEFINITION. The biphase (Manchester) decoder `biBits` (spec/45_decode_biphase.md). -/

namespace Sys2Proof.Machine

/-- The cursor `(off, used)` of one attempt (R28, R271). -/
structure Cursor where
  off : Nat
  used : Nat
  deriving DecidableEq, Repr

/-- The half-unit U of a biphase slot (R270). -/
def halfUnit (d : Slot) : Nat := d.oneMarkMicros.toNat

/-- The level of RawFrame entry `i`: "odd indices are marks" (R272, R25). -/
def entryLevel (i : Nat) : Level := if i % 2 = 1 then .mark else .space

/-- The matcher of an entry's level (R272). -/
def matchLevel (c : Config) (l : Level) (m t : Nat) : Bool :=
  match l with
  | .mark => matchMark c m t
  | .space => matchSpace c m t

/-- `width(e, match)` (R273): 1, then 2, then 3 half-units, the first that passes. -/
def entryWidth (c : Config) (u : Nat) (l : Level) (e : Nat) : Option Nat :=
  if matchLevel c l e (1 * u) then some 1
  else if matchLevel c l e (2 * u) then some 2
  else if matchLevel c l e (3 * u) then some 3
  else none

/-- `nextHalf()` (R272); past the end it returns Space and leaves the cursor (R274). -/
def nextHalf (d : Slot) (s : State) (cur : Cursor) : Option (Level × Cursor) :=
  if s.len ≤ cur.off then some (.space, cur)
  else
    match entryWidth s.cfg (halfUnit d) (entryLevel cur.off) (s.entry cur.off) with
    | none => none
    | some w =>
      if w ≤ cur.used + 1 then some (entryLevel cur.off, { off := cur.off + 1, used := 0 })
      else some (entryLevel cur.off, { off := cur.off, used := cur.used + 1 })

/-- The bit of a cell: the transition in its middle (R270); equal halves are no bit. -/
def bitOfHalves (a b : Level) : Option Bool :=
  match a, b with
  | .space, .mark => some true
  | .mark, .space => some false
  | .mark, .mark => none
  | .space, .space => none

/-- `n` cells from the cursor (the loop of R276): the bits and where the cursor stands afterwards. -/
def biCells (d : Slot) (s : State) : Nat → Cursor → Option (List Bool × Cursor)
  | 0, cur => some ([], cur)
  | n + 1, cur =>
    match nextHalf d s cur with
    | none => none
    | some (a, cur1) =>
      match nextHalf d s cur1 with
      | none => none
      | some (b, cur2) =>
        match bitOfHalves a b with
        | none => none
        | some bit =>
          match biCells d s n cur2 with
          | none => none
          | some (bits, cur3) => some (bit :: bits, cur3)

/-- `biBits(d)` (R276): the start bit's second half (R275), N − 1 cells, and the end check `off = len` (R277; DEDUCED, log
entry 10); `none` is mismatch. -/
def biBits (d : Slot) (s : State) : Option (List Bool) :=
  if s.len < 2 then none
  else
    match nextHalf d s { off := 1, used := 0 } with
    | none => none
    | some (.space, _) => none
    | some (.mark, cur) =>
      match biCells d s (d.bitCount.toNat - 1) cur with
      | none => none
      | some (c, cur') => if cur'.off = s.len then some c else none

end Sys2Proof.Machine
end

