-- ==== Sys2Proof/Machine/Receive.lean ====
section
/-! DEFINITION. Decoding common to all conventions (spec/42_decode_common.md): the layouts, one decoder attempt, the
chain, DECODE and TRYDEC. -/

namespace Sys2Proof.Machine

/-- What a layout cuts from the decoded bits (R217). -/
structure LayoutFields where
  addr : BitVec 16
  cmd : BitVec 16
  extra : BitVec 16
  parityFailed : Bool
  extraInfoPresent : Bool
  deriving DecidableEq, Repr

/-- Layout RAW (R218). -/
def rawFields : LayoutFields where
  addr := 0
  cmd := 0
  extra := 0
  parityFailed := false
  extraInfoPresent := false

/-- Layout ACPAR (R219). -/
def acparFields (o : BitOrder) (c : List Bool) : LayoutFields where
  addr := BitVec.ofNat 16 (field o c 0 8)
  cmd := BitVec.ofNat 16 (field o c 16 8)
  extra := 0
  parityFailed :=
    complementFails (field o c 0 8) (field o c 8 8) || complementFails (field o c 16 8) (field o c 24 8)
  extraInfoPresent := false

/-- Layout RC5 (R220): mismatch unless the second start bit is 1; `extra` is the toggle bit. -/
def rc5Fields (o : BitOrder) (c : List Bool) : Option LayoutFields :=
  if c.getD 0 false then
    some
      { addr := BitVec.ofNat 16 (field o c 2 5)
        cmd := BitVec.ofNat 16 (field o c 7 6)
        extra := (BitVec.ofBool (c.getD 1 false)).zeroExtend 16
        parityFailed := false
        extraInfoPresent := true }
  else none

/-- `layoutFields(d, c)` (R217). -/
def layoutFields (d : Slot) (c : List Bool) : Option LayoutFields :=
  match d.layout with
  | .raw => some rawFields
  | .acpar => some (acparFields d.bitOrder c)
  | .rc5 => rc5Fields d.bitOrder c

/-- `isRepeatFrame(d)` (R208), false for a slot without a repeat signal. -/
def isRepeatFrame (d : Slot) (s : State) : Bool :=
  match d.repeatSignal with
  | none => false
  | some r =>
    decide (s.len = 4) && matchMark s.cfg (s.entry 1) r.markMicros.toNat &&
      matchSpace s.cfg (s.entry 2) r.spaceMicros.toNat && matchMark s.cfg (s.entry 3) (trailerMicros d).toNat

/-- `writeRepeatResult(d)` (R208): address and command are copied from the LAST registers, which are not written. -/
def writeRepeatResult (d : Slot) (s : State) : State :=
  { s with
    df :=
      { valid := true
        tag := d.tag
        addr := s.last.addr
        cmd := s.last.cmd
        nbits := 0
        flags := dfFlags true false false false false d.bitOrder
        extra := 0
        raw := [] } }

/-- `writeFullResult` (R211, R212) and the LAST registers (R210). -/
def writeFullResult (d : Slot) (c : List Bool) (f : LayoutFields) (s : State) : State :=
  { s with
    df :=
      { valid := true
        tag := d.tag
        addr := f.addr
        cmd := f.cmd
        nbits := BitVec.ofNat 16 c.length
        flags := dfFlags false (autoRepeat s.cfg d s) f.parityFailed f.extraInfoPresent false d.bitOrder
        extra := f.extra
        raw := chunksOfBits s.cfg.wordBits d.bitOrder c }
    last := { valid := true, tag := d.tag, addr := f.addr, cmd := f.cmd } }

/-- Step 2 of R207: the slot's bit list, or mismatch. -/
def conventionBits (d : Slot) (s : State) : Option (List Bool) :=
  match d.convention with
  | .pulseDistance => pdBits d s
  | .pulseWidth => pwBits d s
  | .biphase => biBits d s

/-- `tryDecode(s)` (R207): the state with the result written, or `none` for a mismatch, which writes nothing (R205). -/
def tryDecode (d : Slot) (s : State) : Option State :=
  if isRepeatFrame d s then some (writeRepeatResult d s)
  else
    match conventionBits d s with
    | none => none
    | some c =>
      match layoutFields d c with
      | none => none
      | some f => some (writeFullResult d c f s)

/-- The chain (R200): slots in ascending order, "first success wins". -/
def firstDecode : List Slot → State → Option State
  | [], _ => none
  | d :: ds, s =>
    match tryDecode d s with
    | some s' => some s'
    | none => firstDecode ds s

/-- R201 and R202 after `clearDF()`: availability, then overflow (R203), then the slots. -/
def decodeWith (slots : List Slot) (s : State) : State :=
  if s.capState ≠ .stop then raise .noFrameAvailable s
  else if s.ovf then raise .overflow { s with df := { s.df with flags := overflowFlags } }
  else
    match firstDecode slots s with
    | some s' => respond .ok 0 s'
    | none => raise .decodeMismatch s

/-- DECODE (R201). -/
def execDecode (s : State) : Out := .next (decodeWith s.cfg.dtab (clearDF s))

/-- TRYDEC (R202): BadOperand is raised before anything is written. -/
def execTryDec (slot : BitVec 8) (s : State) : Out :=
  match s.cfg.dtab[slot.toNat]? with
  | none => .next (raise .badOperand s)
  | some d => .next (decodeWith [d] (clearDF s))

end Sys2Proof.Machine
end

