-- ==== Sys2Proof/Machine/Transmit.lean ====
section
/-! DEFINITION. The encoders (spec/46_encode.md): frames and repeats, SEND, SENDRAW, SENDBI. A command appends its whole
list in one step (R292; DEDUCED, log entry 11). What the external PulseOutput makes of an event is not modelled
(DEDUCED, log entry 19). -/

namespace Sys2Proof.Machine

/-- The mark and space of one bit (R294). -/
def bitPulses (d : Slot) (b : Bool) : List TxEvent :=
  if b then [.mark d.oneMarkMicros.toNat, .space d.oneSpaceMicros.toNat]
  else [.mark d.zeroMarkMicros.toNat, .space d.zeroSpaceMicros.toNat]

/-- The stop bit of a slot that has one (R294). -/
def trailerPulses (d : Slot) : List TxEvent :=
  match d.trailerMarkMicros with
  | none => []
  | some t => [.mark t.toNat]

/-- The pulses of `fullFrame(d, t)` (R294): header, the bits in order, the optional stop bit. -/
def fullFrame (d : Slot) (t : List Bool) : List TxEvent :=
  [.mark d.headerMarkMicros.toNat, .space d.headerSpaceMicros.toNat] ++ t.flatMap (bitPulses d) ++ trailerPulses d

/-- The pulses of `repeatFrame(d)` (R295). -/
def repeatFrame (d : Slot) (r : RepeatSignal) : List TxEvent :=
  [.mark r.markMicros.toNat, .space r.spaceMicros.toNat, .mark (trailerMicros d).toNat]

/-- Transmission `r` (R296): the repeat signal replaces the full frame in every transmission after the first. -/
def transmission (d : Slot) (t : List Bool) (r : Nat) : List TxEvent :=
  match r, d.repeatSignal with
  | 0, _ => fullFrame d t
  | _ + 1, some sig => repeatFrame d sig
  | _ + 1, none => fullFrame d t

/-- The wait after a frame, in ℤ (R297). -/
def repeatWait (d : Slot) (frame : List TxEvent) : Int :=
  (d.repeatPeriodMillis.toNat : Int) * 1000 - (totalMicros frame : Int)

/-- The pulses of transmissions `r .. r + left` with the waits between them (R296); a negative wait is 0 (R298). -/
def sendPulses (d : Slot) (t : List Bool) (r : Nat) : Nat → List TxEvent
  | 0 => transmission d t r
  | left + 1 =>
    transmission d t r ++ [.wait (repeatWait d (transmission d t r)).toNat] ++ sendPulses d t (r + 1) left

/-- Some wait of transmissions `r .. r + left` was clamped (R298). -/
def sendDegraded (d : Slot) (t : List Bool) (r : Nat) : Nat → Bool
  | 0 => false
  | left + 1 => decide (repeatWait d (transmission d t r) < 0) || sendDegraded d t (r + 1) left

/-- SEND (R296), its operand checks first (R305). -/
def execSend (slot : BitVec 8) (nbits : BitVec 16) (repeats : Word) (chunks : List Chunk) (s : State) : Out :=
  match s.cfg.dtab[slot.toNat]? with
  | none => .next (raise .badOperand s)
  | some d =>
    if d.convention = .biphase ∨ nbits.toNat < 1 ∨ 32 * s.cfg.nwmax < nbits.toNat then
      .next (raise .badOperand s)
    else
      let t := txBits s.cfg.wordBits d.bitOrder chunks nbits.toNat
      .next (respond .ok 0
        { s with
          txRepdeg := sendDegraded d t 0 repeats.toNat
          txCarrier := d.frequencyKHz
          txTrace := s.txTrace ++ [.carrier d.frequencyKHz] ++ emitted (sendPulses d t 0 repeats.toNat) })

/-- The pulses of SENDRAW from an element that is a mark (`true`) or a space (R300). -/
def rawPulses : Bool → List Word → List TxEvent
  | _, [] => []
  | true, w :: ws => .mark w.toNat :: rawPulses false ws
  | false, w :: ws => .space w.toNat :: rawPulses true ws

/-- SENDRAW (R300): element 0 is a mark. -/
def execSendRaw (durations : List Word) (s : State) : Out :=
  .next (respond .ok 0 (emit (rawPulses true durations) s))

/-- One run of half-units as one pulse (R301, R302). -/
def runPulse (u : Nat) : Level × Nat → TxEvent
  | (.mark, k) => .mark (k * u)
  | (.space, k) => .space (k * u)

/-- The pulses of SENDBI (R301). -/
def biPulses (u : Nat) (bits : List Bool) : List TxEvent :=
  (runs (bits.flatMap halvesOfBit)).map (runPulse u)

/-- SENDBI (R301), its operand checks first (R305). -/
def execSendBi (nbits : BitVec 16) (unit : Word) (codeword : Chunk) (s : State) : Out :=
  if nbits.toNat < 1 ∨ s.cfg.wordBits.bits < nbits.toNat ∨ unit.toNat < 1 then .next (raise .badOperand s)
  else .next (respond .ok 0 (emit (biPulses unit.toNat (biBitsToSend codeword nbits.toNat)) s))

end Sys2Proof.Machine
end

