-- ==== Sys2Proof/Machine/Dispatch.lean ====
section
/-! DEFINITION. One arm per operation, each a direct call of its meaning. -/

namespace Sys2Proof.Machine

def exec (i : Instr) (s : State) : Host.Outcome State Fault Refusal :=
  match i with
  | .tick pin => Sys2Proof.Machine.execTick pin s
  | .start => Sys2Proof.Machine.execStart s
  | .resume => Sys2Proof.Machine.execResume s
  | .isIdle => Sys2Proof.Machine.execIsIdle s
  | .isAvail => Sys2Proof.Machine.execIsAvail s
  | .rdsr n => Sys2Proof.Machine.execRdsr n s
  | .rdraw idx => Sys2Proof.Machine.execRdraw idx s
  | .rddesc slot word => Sys2Proof.Machine.execRddesc slot word s
  | .toMicros t => Sys2Proof.Machine.execToMicros t s
  | .matchMark ticks target => Sys2Proof.Machine.execMatchMark ticks target s
  | .matchSpace ticks target => Sys2Proof.Machine.execMatchSpace ticks target s
  | .matchExact ticks target => Sys2Proof.Machine.execMatchExact ticks target s
  | .decode => Sys2Proof.Machine.execDecode s
  | .tryDec slot => Sys2Proof.Machine.execTryDec slot s
  | .send slot nbits repeats chunks => Sys2Proof.Machine.execSend slot nbits repeats chunks s
  | .sendRaw durations => Sys2Proof.Machine.execSendRaw durations s
  | .sendBi nbits unit codeword => Sys2Proof.Machine.execSendBi nbits unit codeword s

end Sys2Proof.Machine
end

