-- ==== Sys2Proof/Machine/Fetch.lean ====
section
/-! DEFINITION. Taking the next input of the two input ports (spec/30_encoding.md R90, spec/20_memory.md R66), and the host
macros of R101 (DEDUCED, log entry 20). -/

namespace Sys2Proof.Machine

/-- The next input in the order in which the operations are serialised (R66), and the state without it. -/
def fetch (s : State) : Option (PortInput × State) :=
  match s.pending with
  | [] => none
  | input :: rest => some (input, { s with pending := rest })

/-- Put an input before all that are pending, so that the next step takes it. -/
def placeInput (input : PortInput) (s : State) : State := { s with pending := input :: s.pending }

/-! ## Pseudo-operations (R101): what the host issues -/

/-- `TICK p *k`. -/
def tickTimes (pin : Bool) (k : Nat) : List PortInput := List.replicate k (.tick pin)

/-- `TICKS p0 p1 …`. -/
def ticks (pins : List Bool) : List PortInput := pins.map .tick

/-- REPLAY: the SENDRAW that a host issues after reading the frame with RDSR, RDRAW and TOMICROS; it requires STOP and
no overflow. Entry 0, the leading gap, is not replayed. -/
def replayCommand (s : State) : Option Instr :=
  if s.capState = .stop ∧ s.ovf = false then
    some (.sendRaw ((List.range (s.len - 1)).map fun i => BitVec.ofNat 32 (s.entry (i + 1) * s.cfg.dt)))
  else none

/-- POLL: the commands a host issues after ISAVAIL has answered `v`; `reads` are the status registers it reads. -/
def pollCommands (v : Bool) (reads : List (BitVec 16)) : List Instr :=
  if v then .decode :: reads.map .rdsr ++ [.resume] else []

end Sys2Proof.Machine
end

