-- ==== Sys2Proof/Machine/Step.lean ====
section
/-! DEFINITION. One step: take the next input of the ports and run it. -/

namespace Sys2Proof.Machine

/-- One operation (spec/20_memory.md R66). A configuration that is none of IRCODEC's is refused (R4, R39). With nothing
pending on either port nothing happens (DESIGN CHOICE, log entry 1). An illegal packet is answered BadCommand (R97, R339). -/
def step (s : State) : Host.Outcome State Fault Refusal :=
  if configWf s.cfg then
    match fetch s with
    | none => .next s
    | some (input, s') =>
      match decodeInput s'.cfg.wordBits input with
      | .ok i => exec i s'
      | .error _ => .next (rejectPacket s')
  else .refused .badConfiguration

/-- The state in which the very next step takes the input whose bits are `w` (DESIGN CHOICE, log entry 18). -/
def State.withFetchWord (s : State) (nbits w : Nat) : State :=
  placeInput (inputOfTableWord s.cfg.wordBits nbits w) s

end Sys2Proof.Machine
end

