-- ==== Sys2Proof/Safety.lean ====
section
/-! DEFINITION. What claims about runs are stated in: runs of several operations, the invariants of the capture registers,
of the result registers and of the transmit trace, and the relation of two states that differ only in what the spec
leaves unspecified. -/

namespace Sys2Proof.Machine

/-- Several operations in order, stopping at the first that does not answer a next state. -/
def runInstrs : List Instr → State → Out
  | [], s => .next s
  | i :: is, s =>
    match exec i s with
    | .next s' => runInstrs is s'
    | .fault f => .fault f
    | .refused r => .refused r

/-- The pin value that is a level (R151). -/
def pinOf (c : Config) (l : Level) : Bool := xor (l == .mark) c.activeLow

/-- `k` TICK events whose level is `l`. -/
def ticksAt (c : Config) (l : Level) (k : Nat) : List Instr := List.replicate k (.tick (pinOf c l))

/-- `2^TICK_BITS − 1`, the largest tick count (R21). -/
def tickMax (c : Config) : Nat := 2 ^ c.tickBits - 1

/-! ## The capture registers -/

/-- What each capture state says of `len`, `ovf` and `elapsed` (R22, R158, R160, R174). -/
def phaseOk (s : State) : Prop :=
  match s.capState with
  | .mark => s.len % 2 = 1 ∧ s.ovf = false
  | .space => s.len % 2 = 0 ∧ 2 ≤ s.len ∧ s.ovf = false ∧ s.elapsed.toNat ≤ s.cfg.gapTicks
  | .stop => if s.ovf then s.len = s.cfg.rawCap else s.len % 2 = 0 ∧ 2 ≤ s.len
  | .idle => if s.ovf then s.len = s.cfg.rawCap else s.len % 2 = 0

/-- The invariant of the capture registers. -/
structure CaptureInv (s : State) : Prop where
  /-- RAWBUF is in canonical form (log entry 6). -/
  memory_wf : Memory.wf s.rawbuf = true
  /-- "no TICK ever writes an index ≥ RAW_CAP" (R61). -/
  indices_below_cap : ∀ cell ∈ s.rawbuf, cell.1 < s.cfg.rawCap
  /-- Every entry is a TICK_BITS-bit number (R25). -/
  entries_fit : ∀ i, s.entry i ≤ tickMax s.cfg
  /-- `elapsed` is a TICK_BITS-bit number (R21). -/
  elapsed_fits : s.elapsed.toNat ≤ tickMax s.cfg
  /-- `0 ≤ len ≤ RAW_CAP` (R22). -/
  len_le_cap : s.len ≤ s.cfg.rawCap
  phase : phaseOk s
  /-- Before the first START nothing has moved (R24, R150). -/
  not_running : s.run = false → s.capState = .idle ∧ s.elapsed = 0 ∧ s.len = 0 ∧ s.ovf = false
  /-- The leading gap passed the test of R153. -/
  leading_gap : 1 ≤ s.len → s.cfg.gapTicks ≤ s.entry 0
  /-- A recorded mark or space lasted at least one sample (R163). -/
  recorded_pos : ∀ i, 1 ≤ i → i < s.len → 1 ≤ s.entry i
  /-- "The longest space that can be recorded inside a frame is `GAP_TICKS + 1` ticks" (R174). -/
  recorded_spaces : ∀ i, 2 ≤ i → i < s.len → i % 2 = 0 → s.entry i ≤ s.cfg.gapTicks + 1

/-! ## The result registers -/

/-- The invariant of the DecodedFrame and LAST registers. -/
structure ResultInv (s : State) : Prop where
  /-- DF_RAW has `⌈DF_NBITS / W⌉` chunks of W bits (R31). -/
  raw_length : s.df.raw.length = s.cfg.wordBits.chunkCount s.df.nbits.toNat
  raw_fits : ∀ ch ∈ s.df.raw, s.cfg.wordBits.fits ch = true
  /-- A result with DF_VALID = 0 is all zero but for the overflow flag (R204, R206, R213). -/
  invalid_clear : s.df.valid = false → s.df = .cleared ∨ s.df = { DecodedFrame.cleared with flags := overflowFlags }
  /-- A valid result carries its slot's tag and bit order (R211, R212). -/
  valid_slot : s.df.valid = true →
    ∃ d ∈ s.cfg.dtab, s.df.tag = d.tag ∧ flagBitOrder s.df.flags = bitOrderBit d.bitOrder
  /-- A valid result never has the overflow flag (R208, R211). -/
  valid_no_overflow : s.df.valid = true → flagOverflow s.df.flags = false
  /-- A repeat result has no bits and is not an auto-repeat (R208). -/
  repeat_empty : flagIsRepeat s.df.flags = true →
    s.df.nbits = 0 ∧ s.df.raw = [] ∧ s.df.extra = 0 ∧ flagIsAutoRepeat s.df.flags = false ∧
      flagParityFailed s.df.flags = false
  /-- A valid result that is not a repeat is in the LAST registers (R210). -/
  full_in_last : s.df.valid = true → flagIsRepeat s.df.flags = false →
    s.last = { valid := true, tag := s.df.tag, addr := s.df.addr, cmd := s.df.cmd }
  /-- LAST is 0 until a full decode has succeeded (R32, R42). -/
  last_clear : s.last.valid = false → s.last = { valid := false, tag := 0, addr := 0, cmd := 0 }

/-! ## The ports -/

/-- An event of TXTRACE: "with `d` a positive number of microseconds" (R35). -/
def txEventOk : TxEvent → Bool
  | .carrier _ => true
  | .mark d | .space d | .wait d => decide (0 < d)

/-- The statuses a command may answer with: "only the six codes that are actually returned" (R330). -/
def Status.returned : Status → Bool
  | .ok | .noFrameAvailable | .overflow | .decodeMismatch | .badCommand | .badOperand => true
  | .parityFailed | .classificationFailed | .invalidRepeatConfiguration => false

/-- A response as R96 and R330 allow it: a status that is returned, and the value 0 unless it is OK. -/
def responseOk (r : Response) : Bool := r.status.returned && (r.status == .ok || r.value == 0)

/-- The invariant of the output ports. -/
structure PortInv (s : State) : Prop where
  trace_ok : ∀ ev ∈ s.txTrace, txEventOk ev = true
  responses_ok : ∀ r ∈ s.responses, responseOk r = true

/-! ## What the spec leaves unspecified -/

/-- Two states that differ at most in RawFrame entries with index ≥ `len` (R25: such an entry "holds no defined
value"). -/
def SameButUnwritten (s t : State) : Prop :=
  t = { s with rawbuf := t.rawbuf } ∧ ∀ i, i < s.len → Memory.read s.rawbuf i = Memory.read t.rawbuf i

/-! ## Frames -/

/-- Every capture register and every RawFrame entry is the same. -/
def SameCapture (s t : State) : Prop :=
  t.run = s.run ∧ t.capState = s.capState ∧ t.elapsed = s.elapsed ∧ t.len = s.len ∧ t.ovf = s.ovf ∧
    ∀ a, Memory.read t.rawbuf a = Memory.read s.rawbuf a

/-- The transmit registers and TXTRACE are the same. -/
def SameTransmit (s t : State) : Prop :=
  t.txRepdeg = s.txRepdeg ∧ t.txCarrier = s.txCarrier ∧ t.txTrace = s.txTrace

/-- The DecodedFrame and LAST registers are the same. -/
def SameResults (s t : State) : Prop := t.df = s.df ∧ t.last = s.last

/-- The configuration and the inputs still pending are the same. -/
def SameInputs (s t : State) : Prop := t.cfg = s.cfg ∧ t.pending = s.pending

/-- The capture registers of `t`, with every RawFrame entry as `entry` says. -/
def CaptureIs (t : State) (st : CapState) (elapsed len : Nat) (ovf : Bool) (entry : Nat → Nat) : Prop :=
  t.capState = st ∧ t.elapsed.toNat = elapsed ∧ t.len = len ∧ t.ovf = ovf ∧ ∀ a, t.entry a = entry a

/-- The RawFrame index a TICK stores to (R61, R79): 0 when a frame starts, `len` on a push. -/
def tickStoreIndex (pin : Bool) (s : State) : Option Nat :=
  if s.run then
    match s.capState, levelOf s.cfg pin with
    | .idle, .mark => if s.cfg.gapTicks ≤ (satInc s.cfg.tickBits s.elapsed).toNat then some 0 else none
    | .mark, .space => if s.len < s.cfg.rawCap then some s.len else none
    | .space, .mark => if s.len < s.cfg.rawCap then some s.len else none
    | _, _ => none
  else none

/-- R338, the complete list: the operand values a command does not accept. -/
def BadOperandCondition (s : State) : Instr → Prop
  | .rdsr n => (21 ≤ n.toNat ∧ n.toNat ≤ 31) ∨ 32 + s.cfg.nwmax ≤ n.toNat
  | .rdraw i => s.len ≤ i.toNat
  | .rddesc slot word => s.cfg.ndec ≤ slot.toNat ∨ 15 < word.toNat
  | .tryDec slot => s.cfg.ndec ≤ slot.toNat
  | .send slot nbits _ _ =>
    s.cfg.ndec ≤ slot.toNat ∨ (∃ d, s.cfg.dtab[slot.toNat]? = some d ∧ d.convention = .biphase) ∨
      nbits.toNat < 1 ∨ 32 * s.cfg.nwmax < nbits.toNat
  | .sendBi nbits unit _ => nbits.toNat < 1 ∨ s.cfg.wordBits.bits < nbits.toNat ∨ unit.toNat < 1
  | .tick _ | .start | .resume | .isIdle | .isAvail | .toMicros _ => False
  | .matchMark _ _ | .matchSpace _ _ | .matchExact _ _ | .decode | .sendRaw _ => False

/-! ## Frames of the transmitter seen by the receiver (R223) -/

/-- The pulses of a transmission that a RawFrame can record: a final space merges with the gap after the frame and is
never pushed (R158, R255). -/
def recordedPulses (pulses : List TxEvent) : List TxEvent :=
  match pulses.getLast? with
  | some (.space _) => pulses.dropLast
  | _ => pulses

/-- RawFrame entry `e` is one the matcher accepts for a pulse. -/
def pulseAccepted (c : Config) (e : Nat) : TxEvent → Bool
  | .mark d => matchMark c e d
  | .space d => matchSpace c e d
  | .carrier _ | .wait _ => false

/-- The captured frame is one whose every entry the matcher accepts for the pulse that was sent (R223). -/
def FrameAccepted (pulses : List TxEvent) (s : State) : Prop :=
  s.len = pulses.length + 1 ∧ ∀ i (h : i < pulses.length), pulseAccepted s.cfg (s.entry (i + 1)) pulses[i] = true

/-- The runs of a biphase transmission that a RawFrame can record: the leading Space half of the start bit and a final
Space merge with the silence around the frame (R274, R275, R301). -/
def recordedRuns (rs : List (Level × Nat)) : List (Level × Nat) :=
  match rs.tail.getLast? with
  | some (.space, _) => rs.tail.dropLast
  | _ => rs.tail

/-- The captured frame is one whose every entry has the width of the run that was sent (R273). -/
def RunsRecorded (u : Nat) (rs : List (Level × Nat)) (s : State) : Prop :=
  s.len = rs.length + 1 ∧
    ∀ i (h : i < rs.length), entryWidth s.cfg u (entryLevel (i + 1)) (s.entry (i + 1)) = some rs[i].2

/-- A chunk list holding `n` bits and nothing in the unused high bits of the last chunk (R31, R216). -/
def chunksCanonical (wb : WordBits) (n : Nat) (chunks : List Chunk) : Prop :=
  chunks.length = wb.chunkCount n ∧
    ∀ j (h : j < chunks.length), chunks[j].toNat < 2 ^ min wb.bits (n - j * wb.bits)

end Sys2Proof.Machine
end

