-- ==== Sys2Proof/Certificates/Slice0/Obligations.lean ====
section
/-! DEFINITION. The statements for the provers. Each formalises the rules of spec/ its docstring names. -/

open Sys2Proof Sys2Proof.Machine

/-! ## Encoding -/

/-- Decoding what the encoder gives returns the operation, with every operand at every value (R92, R93, R95, R99). -/
def Obligations.DecodeOfEncodeIsIdentity : Prop :=
  ∀ (wb : WordBits) (i : Instr), i.wf wb = true → decodeInput wb (encode wb i) = .ok i

/-- An input that is an operation is exactly that operation's encoding: no two inputs mean the same, no bit of a legal
packet is dropped, and what is decoded is well-formed (R95, R97, R99). -/
def Obligations.EncodeOfDecodeIsIdentity : Prop :=
  ∀ (wb : WordBits) (inp : PortInput) (i : Instr), decodeInput wb inp = .ok i → i.wf wb = true ∧ encode wb i = inp

/-- R95: a command word selects the row iff `CW AND mask = match`, with the `match` and `mask` of the rule's table. -/
def Obligations.RowSelectionIsMatchAndMask : Prop :=
  (∀ (cw : Word) (o : Op), selectRow cw = some o ↔ cw &&& o.maskWord = o.matchWord) ∧
  [Op.start, .resume, .isIdle, .isAvail, .rdsr, .rdraw, .rddesc, .toMicros, .matchMark, .matchSpace, .matchExact,
      .decode, .tryDec, .send, .sendRaw, .sendBi].map (fun o => (o.matchWord, o.maskWord)) =
    [(0x01000000, 0xFFFFFFFF), (0x02000000, 0xFFFFFFFF), (0x03000000, 0xFFFFFFFF), (0x04000000, 0xFFFFFFFF),
      (0x05000000, 0xFFFF0000), (0x06000000, 0xFFFF0000), (0x07000000, 0xFF000000), (0x08000000, 0xFFFF0000),
      (0x10000000, 0xFFFF0000), (0x11000000, 0xFFFF0000), (0x12000000, 0xFFFF0000), (0x20000000, 0xFFFFFFFF),
      (0x21000000, 0xFF00FFFF), (0x30000000, 0xFF000000), (0x31000000, 0xFFFF0000), (0x32000000, 0xFFFF0000)]

/-- R97, R339: a packet whose command word matches no row or whose length is not `L(CW)` is answered
`(BadCommand, 0)` and changes no other state; every other packet is an operation. That the step takes the packet off
the list `pending` is the model's choice (log entry 1); the empty packet is left out (log entry 13). -/
def Obligations.IllegalPacketsAnswerBadCommand : Prop :=
  ∀ (s : State) (cw : Word) (operands : List Word) (rest : List PortInput),
    configWf s.cfg = true → s.pending = .packet (cw :: operands) :: rest →
    ((selectRow cw = none ∨ (cw :: operands).length ≠ packetLength s.cfg.wordBits cw) →
      step s = .next { s with
        pending := rest, responses := s.responses ++ [{ status := .badCommand, value := 0 }] }) ∧
    ((∃ o, selectRow cw = some o) ∧ (cw :: operands).length = packetLength s.cfg.wordBits cw →
      ∃ i, decodeInput s.cfg.wordBits (.packet (cw :: operands)) = .ok i)

/-- Words of spec/30_encoding.md §8 decode to the operations they stand for. A sanity statement. -/
def Obligations.SampleWordsDecode : Prop :=
  decodeInput .w32 (.tick true) = .ok (.tick true) ∧
  decodeInput .w32 (.packet [0x0500000D]) = .ok (.rdsr 13) ∧
  decodeInput .w32 (.packet [0x07020006]) = .ok (.rddesc 2 6) ∧
  decodeInput .w32 (.packet [0x1000000B, 0x00000230]) = .ok (.matchMark 11 560) ∧
  decodeInput .w32 (.packet [0x21010000]) = .ok (.tryDec 1) ∧
  decodeInput .w64 (.packet [0x30000030, 0x00000002, 0x89ABCDEF, 0x00004567]) =
    .ok (.send 0 48 2 [0x456789ABCDEF]) ∧
  decodeInput .w32 (.packet [0x3200000E, 0x00000379, 0x0000300C]) = .ok (.sendBi 14 889 0x300C) ∧
  decodeInput .w32 (.packet [0x21010001]) = .error .noRow

/-- R38: a slot is read back from its sixteen words, and sixteen words that are a slot are that slot's. -/
def Obligations.DescriptorWordsRoundTrip : Prop :=
  (∀ d : Slot, slotOfWords (slotWords d) = some d) ∧
  (∀ (ws : List Word) (d : Slot), slotOfWords ws = some d → slotWords d = ws)

/-! ## The step and the whole machine -/

/-- A step runs the operation the next input decodes to, in the state without that input; with nothing pending nothing
happens (log entry 1). -/
def Obligations.StepRunsDecodedInput : Prop :=
  (∀ (s : State) (inp : PortInput) (rest : List PortInput) (i : Instr),
    configWf s.cfg = true → s.pending = inp :: rest → decodeInput s.cfg.wordBits inp = .ok i →
    step s = exec i { s with pending := rest }) ∧
  (∀ s : State, configWf s.cfg = true → s.pending = [] → step s = .next s)

/-- R4, R39: a configuration outside the ranges, or with a slot that is not well-formed, is refused; with any other
every step answers a next state, since no condition stops the machine (R331). -/
def Obligations.OnlyBadConfigurationsAreRefused : Prop :=
  ∀ s : State,
    (configWf s.cfg = false → step s = .refused .badConfiguration) ∧
    (configWf s.cfg = true → ∃ t, step s = .next t)

/-- R96, R94, R330: every packet gets exactly one response, whose status is one of the six that are returned and whose
value is 0 unless it is OK; RW0 is the number R330 gives the status, and RW1 the value; a TICK has no response. The list
of responses is the model's choice (log entry 2). -/
def Obligations.OneResponsePerPacket : Prop :=
  ∀ (s t : State) (inp : PortInput) (rest : List PortInput),
    s.pending = inp :: rest → step s = .next t →
    match inp with
    | .tick _ => t.responses = s.responses
    | .packet _ =>
      ∃ r, t.responses = s.responses ++ [r] ∧ r.rw1 = r.value ∧
        ((r.status = .ok ∧ r.rw0.toNat = 0x00) ∨
          (r.value = 0 ∧
            ((r.status = .noFrameAvailable ∧ r.rw0.toNat = 0x01) ∨ (r.status = .overflow ∧ r.rw0.toNat = 0x02) ∨
              (r.status = .decodeMismatch ∧ r.rw0.toNat = 0x03) ∨ (r.status = .badCommand ∧ r.rw0.toNat = 0x80) ∨
              (r.status = .badOperand ∧ r.rw0.toNat = 0x81))))

/-- R3, R76: no operation writes a parameter or DTAB. -/
def Obligations.ConfigurationIsConstant : Prop :=
  ∀ s t : State, step s = .next t → t.cfg = s.cfg

/-- R24: `run` is 0 after reset, is set by START and is never cleared by any operation; while it is 0 TICK events are
ignored, and while it is 1 they are processed. -/
def Obligations.RunIsSetByStartOnly : Prop :=
  (∀ c : Config, (State.resetWith c).run = false) ∧
  (∀ (i : Instr) (s t : State), exec i s = .next t → (t.run = true ↔ s.run = true ∨ i = .start)) ∧
  (∀ (pin : Bool) (s : State), s.run = false → exec (.tick pin) s = .next s) ∧
  (∀ (pin : Bool) (s : State), s.run = true → exec (.tick pin) s = .next (tickRunning pin s))

/-- R345: a TICK never leaves STOP; a host command changes `state` only from STOP to IDLE by RESUME or START, or to
IDLE by the first START. -/
def Obligations.StateLeavesStopInHostContextOnly : Prop :=
  ∀ (i : Instr) (s t : State), exec i s = .next t →
    (∀ pin, i = .tick pin → s.capState = .stop → t.capState = .stop) ∧
    ((∀ pin, i ≠ .tick pin) → t.capState ≠ s.capState →
      t.capState = .idle ∧
        ((s.capState = .stop ∧ (i = .resume ∨ i = .start)) ∨ (i = .start ∧ s.run = false)))

/-- R35: TXTRACE is append-only, only SEND, SENDRAW and SENDBI append to it, and every timed event has a positive
duration. -/
def Obligations.TransmitTraceIsAppendOnly : Prop :=
  ∀ (i : Instr) (s t : State), exec i s = .next t →
    ∃ evs, t.txTrace = s.txTrace ++ evs ∧ (∀ ev ∈ evs, txEventOk ev = true) ∧
      (evs ≠ [] → (∃ a b c d, i = .send a b c d) ∨ (∃ a, i = .sendRaw a) ∨ ∃ a b c, i = .sendBi a b c)

/-- R338: the complete list. On every value of it the command responds `(BadOperand, 0)` and changes no other state;
on no other does any operation give that response. -/
def Obligations.BadOperandExactlyWhenListed : Prop :=
  ∀ (i : Instr) (s : State),
    (BadOperandCondition s i →
      exec i s = .next { s with responses := s.responses ++ [{ status := .badOperand, value := 0 }] }) ∧
    (¬ BadOperandCondition s i → ∀ t r, exec i s = .next t → t.responses = s.responses ++ [r] →
      r.status ≠ .badOperand)

/-- R69: RDSR, RDRAW, RDDESC, ISIDLE, ISAVAIL, TOMICROS and the matcher commands change no state: all that is new
afterwards is the response, and the same command again gives the same response. -/
def Obligations.ReadsAndMatchesChangeNothing : Prop :=
  ∀ (i : Instr) (s t : State),
    (i = .isIdle ∨ i = .isAvail ∨ (∃ n, i = .rdsr n) ∨ (∃ n, i = .rdraw n) ∨ (∃ a b, i = .rddesc a b) ∨
      (∃ a, i = .toMicros a) ∨ (∃ a b, i = .matchMark a b) ∨ (∃ a b, i = .matchSpace a b) ∨
      (∃ a b, i = .matchExact a b)) →
    exec i s = .next t →
    SameCapture s t ∧ SameResults s t ∧ SameTransmit s t ∧ SameInputs s t ∧
      ∃ r, t.responses = s.responses ++ [r] ∧ exec i t = .next { t with responses := t.responses ++ [r] }

/-- The frame of TICK (R345, R61): it writes only `state`, `elapsed`, `len`, `ovf` and the one RawFrame entry it
stores to; it gives no response. -/
def Obligations.TickWritesOnlyCapture : Prop :=
  ∀ (pin : Bool) (s t : State), Memory.wf s.rawbuf = true → exec (.tick pin) s = .next t →
    t.run = s.run ∧ SameResults s t ∧ SameTransmit s t ∧ SameInputs s t ∧ t.responses = s.responses ∧
      ∀ a, tickStoreIndex pin s ≠ some a → Memory.read t.rawbuf a = Memory.read s.rawbuf a

/-- The frame of the control and decode commands (R345, R222): START and RESUME write capture registers and no RawFrame
entry; DECODE and TRYDEC write only the DecodedFrame and LAST registers. -/
def Obligations.ControlAndDecodeFrames : Prop :=
  ∀ (i : Instr) (s t : State), exec i s = .next t →
    ((i = .start ∨ i = .resume) →
      SameResults s t ∧ SameTransmit s t ∧ SameInputs s t ∧
        ∀ a, Memory.read t.rawbuf a = Memory.read s.rawbuf a) ∧
    ((i = .decode ∨ ∃ n, i = .tryDec n) → SameCapture s t ∧ SameTransmit s t ∧ SameInputs s t)

/-- The frame of the transmit commands (R78, R345): SEND writes only TXTRACE, TX_REPDEG and TX_CARRIER; SENDRAW and
SENDBI write only TXTRACE. -/
def Obligations.TransmitFrames : Prop :=
  ∀ (i : Instr) (s t : State), exec i s = .next t →
    ((∃ a b c d, i = .send a b c d) ∨ (∃ a, i = .sendRaw a) ∨ (∃ a b c, i = .sendBi a b c) →
      SameCapture s t ∧ SameResults s t ∧ SameInputs s t) ∧
    ((∃ a, i = .sendRaw a) ∨ (∃ a b c, i = .sendBi a b c) →
      t.txRepdeg = s.txRepdeg ∧ t.txCarrier = s.txCarrier)

/-- R78: a transmit command and a TICK commute. -/
def Obligations.TransmitCommutesWithTick : Prop :=
  ∀ (i : Instr) (pin : Bool) (s : State),
    (∃ a b c d, i = .send a b c d) ∨ (∃ a, i = .sendRaw a) ∨ (∃ a b c, i = .sendBi a b c) →
    runInstrs [i, .tick pin] s = runInstrs [.tick pin, i] s

/-- R25, and U3 of spec/93_implementation_defined.md: the content of entries with index ≥ `len` is never observed. Two
states that differ only there take steps to states that differ only there. -/
def Obligations.UnwrittenEntriesNeverObserved : Prop :=
  ∀ s t : State, SameButUnwritten s t → Memory.wf s.rawbuf = true → Memory.wf t.rawbuf = true →
    ∀ s', step s = .next s' → ∃ t', step t = .next t' ∧ SameButUnwritten s' t'

/-! ## Reset and invariants -/

/-- R42, R370: the values after reset, for every configuration. (The content of `buf` is unspecified and not
stated.) -/
def Obligations.ResetValues : Prop :=
  ∀ c : Config,
    let s := State.resetWith c
    s.run = false ∧ s.capState = .idle ∧ s.elapsed = 0 ∧ s.len = 0 ∧ s.ovf = false ∧
      s.df = ⟨false, 0, 0, 0, 0, 0, 0, []⟩ ∧ (∀ i, rawWord c.wordBits s.df.raw i = 0) ∧
      s.last = ⟨false, 0, 0, 0⟩ ∧ s.txRepdeg = false ∧ s.txCarrier = 0 ∧ s.txTrace = [] ∧ s.cfg = c

/-- The invariants hold right after reset, for every configuration, and CFG-A, which `State.reset` has by the model's
choice (log entry 3), is one of IRCODEC's. -/
def Obligations.ResetHasInvariants : Prop :=
  (∀ c : Config, CaptureInv (State.resetWith c) ∧ ResultInv (State.resetWith c) ∧ PortInv (State.resetWith c)) ∧
    configWf State.reset.cfg = true

/-- Every step keeps the invariant of the capture registers: RAWBUF canonical and below RAW_CAP, TICK_BITS-bit counts,
`len ≤ RAW_CAP`, the parity of `len` in each state, and the bounds of R174 on what is recorded. -/
def Obligations.StepKeepsCaptureInvariant : Prop :=
  ∀ s t : State, CaptureInv s → step s = .next t → CaptureInv t

/-- Every step keeps the invariant of the DecodedFrame and LAST registers. -/
def Obligations.StepKeepsResultInvariant : Prop :=
  ∀ s t : State, ResultInv s → step s = .next t → ResultInv t

/-- Every step keeps the invariant of the output ports: positive durations in TXTRACE, and responses as R96 and R330
allow them. -/
def Obligations.StepKeepsPortInvariant : Prop :=
  ∀ s t : State, PortInv s → step s = .next t → PortInv t

/-! ## Capture -/

/-- R161, with the increment of R152 first: the twelve rows, and nothing else is written. The level is that of R151.
Nothing but RESUME and START leaves STOP. -/
def Obligations.TickFollowsTransitionTable : Prop :=
  (∀ (i : Instr) (s t : State), exec i s = .next t → s.capState = .stop → t.capState ≠ .stop →
    i = .resume ∨ i = .start) ∧
  ∀ (s : State) (pin : Bool), s.run = true → Memory.wf s.rawbuf = true → s.cfg.tickBits ≤ 16 →
    let e := min (s.elapsed.toNat + 1) (2 ^ s.cfg.tickBits - 1)
    let isMark := xor pin s.cfg.activeLow
    let pushed := fun a => if a = s.len then e else s.entry a
    ∃ t, exec (.tick pin) s = .next t ∧ t.run = true ∧ SameResults s t ∧ SameTransmit s t ∧ SameInputs s t ∧
      t.responses = s.responses ∧
      (s.capState = .idle → isMark = false → CaptureIs t .idle e s.len s.ovf s.entry) ∧
      (s.capState = .idle → isMark = true → s.cfg.gapTicks ≤ e →
        CaptureIs t .mark 0 1 false fun a => if a = 0 then e else s.entry a) ∧
      (s.capState = .idle → isMark = true → e < s.cfg.gapTicks → CaptureIs t .idle 0 s.len s.ovf s.entry) ∧
      (s.capState = .mark → isMark = true → CaptureIs t .mark e s.len s.ovf s.entry) ∧
      (s.capState = .mark → isMark = false → s.len < s.cfg.rawCap →
        CaptureIs t .space 0 (s.len + 1) s.ovf pushed) ∧
      (s.capState = .mark → isMark = false → s.len = s.cfg.rawCap → CaptureIs t .stop 0 s.len true s.entry) ∧
      (s.capState = .space → isMark = true → s.len < s.cfg.rawCap →
        CaptureIs t .mark 0 (s.len + 1) s.ovf pushed) ∧
      (s.capState = .space → isMark = true → s.len = s.cfg.rawCap → CaptureIs t .stop 0 s.len true s.entry) ∧
      (s.capState = .space → isMark = false → s.cfg.gapTicks < e → CaptureIs t .stop e s.len s.ovf s.entry) ∧
      (s.capState = .space → isMark = false → e ≤ s.cfg.gapTicks → CaptureIs t .space e s.len s.ovf s.entry) ∧
      (s.capState = .stop → isMark = true → CaptureIs t .stop 0 s.len s.ovf s.entry) ∧
      (s.capState = .stop → isMark = false → CaptureIs t .stop e s.len s.ovf s.entry)

/-- R163: a mark of `k` samples is recorded as `k` (as `2^TICK_BITS − 1` when it is longer), and a space of `k` samples
followed by a Mark as `k`, for every `k` a space inside a frame can have (R174). -/
def Obligations.RecordedDurationIsSampleCount : Prop :=
  ∀ (s : State) (k : Nat), configWf s.cfg = true → Memory.wf s.rawbuf = true → s.run = true → s.elapsed = 0 →
    s.len < s.cfg.rawCap → 1 ≤ k →
    (s.capState = .mark →
      ∃ t, runInstrs (ticksAt s.cfg .mark (k - 1) ++ ticksAt s.cfg .space 1) s = .next t ∧
        CaptureIs t .space 0 (s.len + 1) s.ovf
          fun a => if a = s.len then min k (2 ^ s.cfg.tickBits - 1) else s.entry a) ∧
    (s.capState = .space → k ≤ s.cfg.gapTicks + 1 →
      ∃ t, runInstrs (ticksAt s.cfg .space (k - 1) ++ ticksAt s.cfg .mark 1) s = .next t ∧
        CaptureIs t .mark 0 (s.len + 1) s.ovf fun a => if a = s.len then k else s.entry a)

/-- R174 (b): from the first Space sample after a mark (which leaves `elapsed = 0`), `GAP_TICKS + 1` more Space samples
end the frame and no fewer do. -/
def Obligations.FrameEndsAfterGap : Prop :=
  ∀ (s : State) (j : Nat), configWf s.cfg = true → s.run = true → s.capState = .space → s.elapsed = 0 →
    ∃ t, runInstrs (ticksAt s.cfg .space j) s = .next t ∧
      (j ≤ s.cfg.gapTicks → CaptureIs t .space j s.len s.ovf s.entry) ∧
      (j = s.cfg.gapTicks + 1 → CaptureIs t .stop j s.len s.ovf s.entry)

/-- R77, R26: while `state = STOP` every TICK leaves `buf`, `len` and `ovf` unchanged, however many come. -/
def Obligations.StopHoldsTheFrame : Prop :=
  ∀ (pins : List Bool) (s : State), s.capState = .stop →
    ∃ t, runInstrs (pins.map .tick) s = .next t ∧ t.capState = .stop ∧ t.len = s.len ∧ t.ovf = s.ovf ∧
      ∀ a, t.entry a = s.entry a

/-- R167, R168: what START and RESUME write, and that they answer OK. -/
def Obligations.StartAndResume : Prop :=
  ∀ s : State,
    (s.run = false →
      exec .start s = .next { s with
        run := true, capState := .idle, elapsed := 0, len := 0, ovf := false
        responses := s.responses ++ [{ status := .ok, value := 0 }] }) ∧
    (s.run = true →
      exec .start s = .next { s with
        capState := if s.capState = .stop then .idle else s.capState
        responses := s.responses ++ [{ status := .ok, value := 0 }] }) ∧
    exec .resume s = .next { s with
      capState := if s.capState = .stop then .idle else s.capState
      responses := s.responses ++ [{ status := .ok, value := 0 }] }

/-- R169, R170: ISIDLE and ISAVAIL. -/
def Obligations.PollsReportState : Prop :=
  ∀ s : State,
    exec .isIdle s = .next { s with
      responses := s.responses ++ [{ status := .ok, value := if s.capState = .idle then 1 else 0 }] } ∧
    exec .isAvail s = .next { s with
      responses := s.responses ++ [{ status := .ok, value := if s.capState = .stop then 1 else 0 }] }

/-! ## Reads -/

/-- R40, R171, and the codes of R20: the status registers, each as the number its fields make. `CFG_MISC` and `DF_NWORDS` are stated where
their values fit the fields (log entries 7, 8). -/
def Obligations.StatusRegisterMap : Prop :=
  ∀ (s : State) (n : BitVec 16), configWf s.cfg = true → s.len ≤ s.cfg.rawCap →
    n.toNat ≤ 20 ∨ (32 ≤ n.toNat ∧ n.toNat < 32 + s.cfg.nwmax) →
    ∃ v : Word,
      exec (.rdsr n) s = .next { s with responses := s.responses ++ [{ status := .ok, value := v }] } ∧
      (n = 0 →
        v.toNat =
          (match s.capState with
            | .idle => 0
            | .mark => 1
            | .space => 2
            | .stop => 3) + 4 * s.run.toNat + 8 * s.ovf.toNat) ∧
      (n = 1 → v.toNat = s.elapsed.toNat) ∧
      (n = 2 → v.toNat = s.len) ∧
      (n = 3 → v.toNat = s.cfg.dt) ∧
      (n = 4 → v.toNat = s.cfg.tol) ∧
      (n = 5 → v.toNat = s.cfg.markExcess) ∧
      (n = 6 → v.toNat = s.cfg.gapTicks) ∧
      (n = 7 → v.toNat = s.cfg.rawCap) ∧
      (n = 8 → s.cfg.nwmax ≤ 255 →
        v.toNat = s.cfg.activeLow.toNat + 2 * (s.cfg.wordBits == .w64).toNat + 256 * s.cfg.tickBits +
          65536 * s.cfg.dtab.length + 16777216 * s.cfg.nwmax) ∧
      (n = 9 → v.toNat = s.df.valid.toNat + 256 * s.df.tag.toNat) ∧
      (n = 10 → v.toNat = s.df.addr.toNat) ∧
      (n = 11 → v.toNat = s.df.cmd.toNat) ∧
      (n = 12 → v.toNat = s.df.nbits.toNat) ∧
      (n = 13 → v.toNat = s.df.flags.toNat) ∧
      (n = 14 → v.toNat = s.df.extra.toNat) ∧
      (n = 15 → s.cfg.wordBits.chunkCount s.df.nbits.toNat * s.cfg.wordBits.words ≤ 255 →
        v.toNat = s.cfg.wordBits.chunkCount s.df.nbits.toNat * s.cfg.wordBits.words) ∧
      (n = 16 → v.toNat = s.last.valid.toNat + 256 * s.last.tag.toNat) ∧
      (n = 17 → v.toNat = s.last.addr.toNat) ∧
      (n = 18 → v.toNat = s.last.cmd.toNat) ∧
      (n = 19 → v.toNat = s.txRepdeg.toNat) ∧
      (n = 20 → v.toNat = s.txCarrier.toNat) ∧
      (32 ≤ n.toNat → s.cfg.wordBits = .w32 → v.toNat = (s.df.raw.getD (n.toNat - 32) 0).toNat % 2 ^ 32) ∧
      (32 ≤ n.toNat → s.cfg.wordBits = .w64 → n.toNat % 2 = 0 →
        v.toNat = (s.df.raw.getD ((n.toNat - 32) / 2) 0).toNat % 2 ^ 32) ∧
      (32 ≤ n.toNat → s.cfg.wordBits = .w64 → n.toNat % 2 = 1 →
        v.toNat = (s.df.raw.getD ((n.toNat - 32) / 2) 0).toNat / 2 ^ 32)

/-- R172: RDRAW returns the entry, zero-extended, below `len`, and BadOperand from `len` on. -/
def Obligations.RdrawReturnsEntry : Prop :=
  ∀ (s : State) (i : BitVec 16),
    (i.toNat < s.len →
      ∃ v : Word, v.toNat = s.entry i.toNat ∧
        exec (.rdraw i) s = .next { s with responses := s.responses ++ [{ status := .ok, value := v }] }) ∧
    (s.len ≤ i.toNat →
      exec (.rdraw i) s = .next { s with responses := s.responses ++ [{ status := .badOperand, value := 0 }] })

/-- R38, R173: RDDESC returns the word of the slot, and the fields of that word are where R38 puts them, with the codes
R37 gives the conventions and layouts. -/
def Obligations.RddescReturnsDescriptorWord : Prop :=
  ∀ (s : State) (slot : BitVec 8) (word : BitVec 16) (d : Slot),
    s.cfg.dtab[slot.toNat]? = some d → word.toNat ≤ 15 →
    ∃ v : Word,
      exec (.rddesc slot word) s = .next { s with responses := s.responses ++ [{ status := .ok, value := v }] } ∧
      (word = 0 → v = d.headerMarkMicros) ∧ (word = 1 → v = d.headerSpaceMicros) ∧
      (word = 2 → v = d.oneMarkMicros) ∧ (word = 3 → v = d.zeroMarkMicros) ∧
      (word = 4 → v = d.oneSpaceMicros) ∧ (word = 5 → v = d.zeroSpaceMicros) ∧
      (word = 6 →
        v.toNat = d.bitCount.toNat + 2 ^ 16 * (d.bitOrder == .msbFirst).toNat +
          2 ^ 17 * d.trailerMarkMicros.isSome.toNat + 2 ^ 18 * d.repeatSignal.isSome.toNat +
          2 ^ 20 *
            (match d.convention with
              | .pulseDistance => 0
              | .pulseWidth => 1
              | .biphase => 2) +
          2 ^ 24 *
            (match d.layout with
              | .raw => 0
              | .acpar => 1
              | .rc5 => 2)) ∧
      (word = 7 →
        v.toNat = d.frequencyKHz.toNat + 2 ^ 8 * d.repeatPeriodMillis.toNat + 2 ^ 24 * d.tag.toNat) ∧
      (word = 8 → v = d.trailerMarkMicros.getD 0) ∧
      (word = 9 → ∀ r, d.repeatSignal = some r → v = r.markMicros) ∧
      (word = 10 → ∀ r, d.repeatSignal = some r → v = r.spaceMicros) ∧
      (word = 9 ∨ word = 10 → d.repeatSignal = none → v = 0) ∧
      (word = 11 → v = d.minCommandGapMicros) ∧ (12 ≤ word.toNat → v = 0)

/-- R166: TOMICROS returns `t·DT`, exact. -/
def Obligations.ToMicrosIsExact : Prop :=
  ∀ (s : State) (t : BitVec 16), configWf s.cfg = true →
    ∃ v : Word, v.toNat = t.toNat * s.cfg.dt ∧
      exec (.toMicros t) s = .next { s with responses := s.responses ++ [{ status := .ok, value := v }] }

/-! ## The matcher -/

/-- R130 to R133: the three commands answer 1 exactly when `100·m·DT` lies in the closed interval around the corrected
target, in ℤ. -/
def Obligations.MatchCommandsDecideInterval : Prop :=
  ∀ (s : State) (m : BitVec 16) (t : Word),
    let answer := fun a : Int =>
      if a * (100 - (s.cfg.tol : Int)) ≤ 100 * (m.toNat : Int) * (s.cfg.dt : Int) ∧
        100 * (m.toNat : Int) * (s.cfg.dt : Int) ≤ a * (100 + (s.cfg.tol : Int)) then (1 : Word) else 0
    exec (.matchMark m t) s = .next { s with
      responses := s.responses ++ [{ status := .ok, value := answer ((t.toNat : Int) + s.cfg.markExcess) }] } ∧
    exec (.matchSpace m t) s = .next { s with
      responses := s.responses ++ [{ status := .ok, value := answer ((t.toNat : Int) - s.cfg.markExcess) }] } ∧
    exec (.matchExact m t) s = .next { s with
      responses := s.responses ++ [{ status := .ok, value := answer (t.toNat : Int) }] }

/-- R134: the passing tick counts of a positive corrected target are exactly those from `⌈a(100 − TOL) / (100 DT)⌉` to
`⌊a(100 + TOL) / (100 DT)⌋`, with the rule's table for `DT = 50, TOL = 25, MARK_EXCESS = 20`. -/
def Obligations.MatcherTickBoundaries : Prop :=
  (∀ (c : Config) (m a : Nat), configWf c = true → 0 < a →
    (within c m (a : Int) = true ↔
      ⌈(a * (100 - c.tol) : ℚ) / (100 * c.dt)⌉ ≤ (m : Int) ∧
        (m : Int) ≤ ⌊(a * (100 + c.tol) : ℚ) / (100 * c.dt)⌋)) ∧
  ∀ (c : Config) (m : Nat), c.dt = 50 → c.tol = 25 → c.markExcess = 20 →
    (∀ row ∈ [(560, 9, 14), (9000, 136, 225), (600, 10, 15), (1200, 19, 30), (2400, 37, 60), (889, 14, 22),
        (1778, 27, 44), (2667, 41, 67)],
      matchMark c m row.1 = true ↔ row.2.1 ≤ m ∧ m ≤ row.2.2) ∧
    (∀ row ∈ [(560, 9, 13), (1690, 26, 41), (4500, 68, 112), (2250, 34, 55), (600, 9, 14), (889, 14, 21),
        (1778, 27, 43), (2667, 40, 66)],
      matchSpace c m row.1 = true ↔ row.2.1 ≤ m ∧ m ≤ row.2.2) ∧
    (matchExact c m 560 = true ↔ 9 ≤ m ∧ m ≤ 14)

/-- R132: a target below MARK_EXCESS matches no space at all, and a target equal to it only 0 ticks. -/
def Obligations.SpaceTargetBelowCorrection : Prop :=
  ∀ (c : Config) (m t : Nat), configWf c = true →
    (t < c.markExcess → matchSpace c m t = false) ∧
    (t = c.markExcess → (matchSpace c m t = true ↔ m = 0))

/-! ## From bits to codewords, fields and results -/

/-- R216, R215: where each decoded bit stands in its chunk, that every other bit is 0, and how many chunks there are. -/
def Obligations.ChunkBitPlacement : Prop :=
  ∀ (wb : WordBits) (o : BitOrder) (c : List Bool),
    (chunksOfBits wb o c).length = (c.length + wb.bits - 1) / wb.bits ∧
    ∀ j k : Nat, j < (chunksOfBits wb o c).length →
      let nj := min wb.bits (c.length - j * wb.bits)
      (k < nj → o = .lsbFirst →
        ((chunksOfBits wb o c).getD j 0).getLsbD k = c.getD (j * wb.bits + k) false) ∧
      (k < nj → o = .msbFirst →
        ((chunksOfBits wb o c).getD j 0).getLsbD (nj - 1 - k) = c.getD (j * wb.bits + k) false) ∧
      (nj ≤ k → ((chunksOfBits wb o c).getD j 0).getLsbD k = false)

/-- R293: which bit of which chunk is sent at each place, and that the bits sent are the inverse of the chunk placement,
`txbits(o, chunks(c), n) = c`. -/
def Obligations.TxBitsInvertChunks : Prop :=
  (∀ (wb : WordBits) (o : BitOrder) (chunks : List Chunk) (n : Nat),
    (txBits wb o chunks n).length = n ∧
    ∀ j k : Nat, j < chunks.length →
      let nj := min wb.bits (n - j * wb.bits)
      k < nj →
        (o = .lsbFirst → (txBits wb o chunks n).getD (j * wb.bits + k) false = (chunks.getD j 0).getLsbD k) ∧
        (o = .msbFirst →
          (txBits wb o chunks n).getD (j * wb.bits + k) false = (chunks.getD j 0).getLsbD (nj - 1 - k))) ∧
  ∀ (wb : WordBits) (o : BitOrder) (c : List Bool), txBits wb o (chunksOfBits wb o c) c.length = c

/-- R217: a field as the sum of its bits in the slot's bit order. -/
def Obligations.FieldIsWeightedSum : Prop :=
  ∀ (c : List Bool) (p w : Nat), p + w ≤ c.length →
    field .lsbFirst c p w = ∑ k ∈ Finset.range w, (c.getD (p + k) false).toNat * 2 ^ k ∧
    field .msbFirst c p w = ∑ k ∈ Finset.range w, (c.getD (p + k) false).toNat * 2 ^ (w - 1 - k)

/-- R218, R219, R220: what the three layouts cut from the bits; and that a parity failure is still delivered, with status
OK, the fields as read, and the LAST registers written. -/
def Obligations.LayoutsCutFields : Prop :=
  (∀ (s : State) (slot : BitVec 8) (d : Slot) (c : List Bool) (f : LayoutFields),
    s.capState = .stop → s.ovf = false → s.cfg.dtab[slot.toNat]? = some d → d.layout = .acpar →
    isRepeatFrame d s = false → conventionBits d s = some c → layoutFields d c = some f → f.parityFailed = true →
    ∃ t, exec (.tryDec slot) s = .next t ∧ t.responses = s.responses ++ [{ status := .ok, value := 0 }] ∧
      t.df.valid = true ∧ t.df.flags.getLsbD 2 = true ∧ t.df.addr = f.addr ∧ t.df.cmd = f.cmd ∧
      t.last = { valid := true, tag := d.tag, addr := f.addr, cmd := f.cmd }) ∧
  ∀ (d : Slot) (c : List Bool),
    (d.layout = .raw → layoutFields d c = some ⟨0, 0, 0, false, false⟩) ∧
    (d.layout = .acpar → c.length = 32 →
      ∃ f, layoutFields d c = some f ∧ f.addr.toNat = field d.bitOrder c 0 8 ∧
        f.cmd.toNat = field d.bitOrder c 16 8 ∧ f.extra = 0 ∧ f.extraInfoPresent = false ∧
        (f.parityFailed = true ↔
          field d.bitOrder c 0 8 ^^^ field d.bitOrder c 8 8 ≠ 0xFF ∨
            field d.bitOrder c 16 8 ^^^ field d.bitOrder c 24 8 ≠ 0xFF)) ∧
    (d.layout = .rc5 → c.length = 13 →
      (c.getD 0 false = false → layoutFields d c = none) ∧
      (c.getD 0 false = true →
        ∃ f, layoutFields d c = some f ∧ f.addr.toNat = field d.bitOrder c 2 5 ∧
          f.cmd.toNat = field d.bitOrder c 7 6 ∧ f.extra.toNat = (c.getD 1 false).toNat ∧
          f.parityFailed = false ∧ f.extraInfoPresent = true))

/-! ## The decoders -/

/-- R242: the pulse-distance decoder accepts exactly the frames the rule describes, and the bits are as it says. -/
def Obligations.PulseDistanceDecodesExactly : Prop :=
  ∀ (d : Slot) (s : State) (c : List Bool),
    pdBits d s = some c ↔
      s.len = 2 * d.bitCount.toNat + 4 ∧
      matchMark s.cfg (s.entry 1) d.headerMarkMicros.toNat = true ∧
      matchSpace s.cfg (s.entry 2) d.headerSpaceMicros.toNat = true ∧
      c.length = d.bitCount.toNat ∧
      (∀ k, k < d.bitCount.toNat →
        matchMark s.cfg (s.entry (3 + 2 * k)) d.oneMarkMicros.toNat = true ∧
        (c.getD k false = true → matchSpace s.cfg (s.entry (4 + 2 * k)) d.oneSpaceMicros.toNat = true) ∧
        (c.getD k false = false →
          matchSpace s.cfg (s.entry (4 + 2 * k)) d.oneSpaceMicros.toNat = false ∧
          matchSpace s.cfg (s.entry (4 + 2 * k)) d.zeroSpaceMicros.toNat = true)) ∧
      matchMark s.cfg (s.entry (3 + 2 * d.bitCount.toNat)) (d.trailerMarkMicros.getD 0).toNat = true

/-- R257: the pulse-width decoder accepts exactly the frames the rule describes, and the bits are as it says. -/
def Obligations.PulseWidthDecodesExactly : Prop :=
  ∀ (d : Slot) (s : State) (c : List Bool),
    pwBits d s = some c ↔
      s.len = (if d.trailerMarkMicros.isSome then 2 * d.bitCount.toNat + 4 else 2 * d.bitCount.toNat + 2) ∧
      matchMark s.cfg (s.entry 1) d.headerMarkMicros.toNat = true ∧
      matchSpace s.cfg (s.entry 2) d.headerSpaceMicros.toNat = true ∧
      c.length = d.bitCount.toNat ∧
      (∀ k, k < d.bitCount.toNat →
        (c.getD k false = true → matchMark s.cfg (s.entry (3 + 2 * k)) d.oneMarkMicros.toNat = true) ∧
        (c.getD k false = false →
          matchMark s.cfg (s.entry (3 + 2 * k)) d.oneMarkMicros.toNat = false ∧
          matchMark s.cfg (s.entry (3 + 2 * k)) d.zeroMarkMicros.toNat = true) ∧
        (k + 1 < d.bitCount.toNat ∨ d.trailerMarkMicros.isSome = true →
          matchSpace s.cfg (s.entry (4 + 2 * k)) d.oneSpaceMicros.toNat = true)) ∧
      (∀ t, d.trailerMarkMicros = some t →
        matchMark s.cfg (s.entry (3 + 2 * d.bitCount.toNat)) t.toNat = true)

/-- R276, R277: the biphase decoder accepts exactly the frames the rules describe, and the bits are as they say. The
entries from index 1 on have widths (R273: 1, 2 or 3 half-units, the first that matches); laid end to end, with a Space
behind the last entry if the last cell needs one (R274), they are one Mark and then the two halves of each bit, and
nothing is left over. The bit order of the slot plays no part. (`off = len` as R277 says it: log entry 10.) -/
def Obligations.BiphaseDecodesExactly : Prop :=
  ∀ (d : Slot) (s : State) (c : List Bool),
    biBits d s = some c ↔
      c.length = d.bitCount.toNat - 1 ∧
      ∃ ws : List Nat,
        ws.length + 1 = s.len ∧
        (∀ i (h : i < ws.length),
          1 ≤ ws[i] ∧ ws[i] ≤ 3 ∧
          ∀ v, 1 ≤ v → v ≤ ws[i] →
            ((if i % 2 = 0 then matchMark s.cfg (s.entry (i + 1)) (v * d.oneMarkMicros.toNat)
              else matchSpace s.cfg (s.entry (i + 1)) (v * d.oneMarkMicros.toNat)) = true ↔ v = ws[i])) ∧
        ∃ past : List Level,
          (past = [] ∨ past = [.space]) ∧
          (List.range ws.length).flatMap (fun i =>
              List.replicate (ws.getD i 0) (if i % 2 = 0 then Level.mark else .space)) ++ past =
            Level.mark :: c.flatMap fun bit => if bit then [.space, .mark] else [.mark, .space]

/-- R279: a frame with an entry three half-units wide never decodes. -/
def Obligations.WidthThreeNeverDecodes : Prop :=
  ∀ (d : Slot) (s : State) (i : Nat), 1 ≤ i → i < s.len →
    entryWidth s.cfg (halfUnit d) (entryLevel i) (s.entry i) = some 3 → biBits d s = none

/-- R208: an explicit repeat frame. The address and command are copied from the LAST registers, which are not written;
TRYDEC answers OK. -/
def Obligations.RepeatFrameCopiesLast : Prop :=
  ∀ (s : State) (slot : BitVec 8) (d : Slot) (r : RepeatSignal) (tr : Word),
    s.capState = .stop → s.ovf = false → s.cfg.dtab[slot.toNat]? = some d → d.repeatSignal = some r →
    d.trailerMarkMicros = some tr → s.len = 4 →
    matchMark s.cfg (s.entry 1) r.markMicros.toNat = true →
    matchSpace s.cfg (s.entry 2) r.spaceMicros.toNat = true →
    matchMark s.cfg (s.entry 3) tr.toNat = true →
    exec (.tryDec slot) s = .next { s with
      df :=
        { valid := true
          tag := d.tag
          addr := s.last.addr
          cmd := s.last.cmd
          nbits := 0
          flags := if d.bitOrder = .msbFirst then 0b100001 else 0b000001
          extra := 0
          raw := [] }
      responses := s.responses ++ [{ status := .ok, value := 0 }] }

/-- R207, R209 to R212: a full decode by TRYDEC. The flags are layout, auto-repeat (the gap test, alone as R207
step 6 and R211 say, against D19: log entry 9) and bit order, with `isRepeat` and `overflow` 0. -/
def Obligations.FullDecodeWritesResult : Prop :=
  ∀ (s : State) (slot : BitVec 8) (d : Slot) (c : List Bool) (f : LayoutFields),
    s.capState = .stop → s.ovf = false → s.cfg.dtab[slot.toNat]? = some d → isRepeatFrame d s = false →
    conventionBits d s = some c → layoutFields d c = some f →
    ∃ flags : BitVec 6,
      exec (.tryDec slot) s = .next { s with
        df :=
          { valid := true
            tag := d.tag
            addr := f.addr
            cmd := f.cmd
            nbits := BitVec.ofNat 16 c.length
            flags := flags
            extra := f.extra
            raw := chunksOfBits s.cfg.wordBits d.bitOrder c }
        last := { valid := true, tag := d.tag, addr := f.addr, cmd := f.cmd }
        responses := s.responses ++ [{ status := .ok, value := 0 }] } ∧
      flags.getLsbD 0 = false ∧
      (flags.getLsbD 1 = true ↔ s.entry 0 * s.cfg.dt < d.minCommandGapMicros.toNat) ∧
      flags.getLsbD 2 = f.parityFailed ∧ flags.getLsbD 3 = f.extraInfoPresent ∧ flags.getLsbD 4 = false ∧
      (flags.getLsbD 5 = true ↔ d.bitOrder = .msbFirst)

/-- R200, R201: DECODE on an available frame that has not overflowed gives the result of the first slot that decodes,
when the slots before it mismatch, and DecodeMismatch with cleared registers when all do. -/
def Obligations.DecodeTakesFirstMatchingSlot : Prop :=
  ∀ s : State, s.capState = .stop → s.ovf = false →
    (∀ (before after : List Slot) (d : Slot) (t : State), s.cfg.dtab = before ++ d :: after →
      (∀ p ∈ before, tryDecode p (clearDF s) = none) → tryDecode d (clearDF s) = some t →
      exec .decode s = .next { t with responses := s.responses ++ [{ status := .ok, value := 0 }] }) ∧
    ((∀ p ∈ s.cfg.dtab, tryDecode p (clearDF s) = none) →
      exec .decode s = .next { s with
        df := .cleared, responses := s.responses ++ [{ status := .decodeMismatch, value := 0 }] })

/-- R202: DECODE is TRYDEC 0, TRYDEC 1, … stopping at the first OK. -/
def Obligations.DecodeIsTryDecInOrder : Prop :=
  ∀ (s t : State), configWf s.cfg = true → s.capState = .stop → s.ovf = false → exec .decode s = .next t →
    (∃ k : BitVec 8, k.toNat < s.cfg.ndec ∧ exec (.tryDec k) s = .next t ∧
      t.responses = s.responses ++ [{ status := .ok, value := 0 }] ∧
      ∀ j : BitVec 8, j.toNat < k.toNat →
        exec (.tryDec j) s = .next { s with
          df := .cleared, responses := s.responses ++ [{ status := .decodeMismatch, value := 0 }] }) ∨
    (t.responses = s.responses ++ [{ status := .decodeMismatch, value := 0 }] ∧
      ∀ j : BitVec 8, j.toNat < s.cfg.ndec → exec (.tryDec j) s = .next t)

/-- R203, R206, R213, R332, R333: DECODE and TRYDEC clear the result registers, then check availability, then
overflow; the LAST registers are untouched. -/
def Obligations.DecodeChecksAvailabilityThenOverflow : Prop :=
  ∀ (i : Instr) (s : State), (i = .decode ∨ ∃ k : BitVec 8, i = .tryDec k ∧ k.toNat < s.cfg.ndec) →
    (s.capState ≠ .stop →
      exec i s = .next { s with
        df := ⟨false, 0, 0, 0, 0, 0, 0, []⟩
        responses := s.responses ++ [{ status := .noFrameAvailable, value := 0 }] }) ∧
    (s.capState = .stop → s.ovf = true →
      exec i s = .next { s with
        df := ⟨false, 0, 0, 0, 0, 0b010000, 0, []⟩
        responses := s.responses ++ [{ status := .overflow, value := 0 }] })

/-- R210: the LAST registers change only in a DECODE or TRYDEC that ends in a full decode, and then they are that
decode's tag, address and command. -/
def Obligations.LastWrittenOnlyByFullDecode : Prop :=
  ∀ (i : Instr) (s t : State), exec i s = .next t → t.last ≠ s.last →
    (i = .decode ∨ ∃ k, i = .tryDec k) ∧ t.df.valid = true ∧ flagIsRepeat t.df.flags = false ∧
      t.last = { valid := true, tag := t.df.tag, addr := t.df.addr, cmd := t.df.cmd }

/-- R221: DECODE issued twice on the same frame gives the same response and the same registers both times. -/
def Obligations.DecodeIsIdempotent : Prop :=
  ∀ (s t : State) (r : Response), exec .decode s = .next t → t.responses = s.responses ++ [r] →
    exec .decode t = .next { t with responses := t.responses ++ [r] }

/-! ## Transmission -/

/-- R294 to R296, R299: SEND appends one carrier event and then `R + 1` transmissions, the first a full frame (header,
the mark and space of each bit in order, the trailer if there is one) and the later ones the repeat signal if the slot
has one, with the wait of R297 (0 when negative, R298) after every one but the last.
Events of duration 0 are not appended (R291). -/
def Obligations.SendAppendsTransmissions : Prop :=
  ∀ (s : State) (slot : BitVec 8) (nbits : BitVec 16) (repeats : Word) (chunks : List Chunk) (d : Slot),
    s.cfg.dtab[slot.toNat]? = some d → d.convention ≠ .biphase → 1 ≤ nbits.toNat →
    nbits.toNat ≤ 32 * s.cfg.nwmax →
    let bitPulses := fun bit : Bool =>
      if bit then [TxEvent.mark d.oneMarkMicros.toNat, .space d.oneSpaceMicros.toNat]
      else [.mark d.zeroMarkMicros.toNat, .space d.zeroSpaceMicros.toNat]
    let trailer := match d.trailerMarkMicros with
      | none => []
      | some m => [TxEvent.mark m.toNat]
    let full := [.mark d.headerMarkMicros.toNat, .space d.headerSpaceMicros.toNat] ++
      (txBits s.cfg.wordBits d.bitOrder chunks nbits.toNat).flatMap bitPulses ++ trailer
    let later := match d.repeatSignal with
      | none => full
      | some r => [.mark r.markMicros.toNat, .space r.spaceMicros.toNat, .mark (d.trailerMarkMicros.getD 0).toNat]
    let frame := fun r : Nat => if r = 0 then full else later
    let wait := fun r : Nat => (d.repeatPeriodMillis.toNat : Int) * 1000 - ((frame r).map TxEvent.micros).sum
    let pulses := (List.range repeats.toNat).flatMap (fun r => frame r ++ [.wait (max (wait r) 0).toNat]) ++
      frame repeats.toNat
    ∃ degraded : Bool,
      exec (.send slot nbits repeats chunks) s = .next { s with
        txRepdeg := degraded
        txCarrier := d.frequencyKHz
        txTrace := s.txTrace ++ .carrier d.frequencyKHz :: pulses.filter fun p => 0 < p.micros
        responses := s.responses ++ [{ status := .ok, value := 0 }] } ∧
      (degraded = true ↔ ∃ r, r < repeats.toNat ∧ wait r < 0)

/-- R303: the durations of a full frame, a repeat frame and a biphase
transmission, with the figures of R303 for REF_PD and the codeword 0xF30CFF00. -/
def Obligations.FrameDurations : Prop :=
  (∀ (d : Slot) (t : List Bool),
    totalMicros (fullFrame d t) =
      d.headerMarkMicros.toNat + d.headerSpaceMicros.toNat +
        t.count true * (d.oneMarkMicros.toNat + d.oneSpaceMicros.toNat) +
        t.count false * (d.zeroMarkMicros.toNat + d.zeroSpaceMicros.toNat) +
        (d.trailerMarkMicros.getD 0).toNat) ∧
  (∀ (d : Slot) (r : RepeatSignal),
    totalMicros (repeatFrame d r) =
      r.markMicros.toNat + r.spaceMicros.toNat + (d.trailerMarkMicros.getD 0).toNat) ∧
  (∀ (u : Nat) (bits : List Bool), totalMicros (biPulses u bits) = 2 * bits.length * u) ∧
  totalMicros (fullFrame .refPd (txBits .w32 .lsbFirst [0xF30CFF00] 32)) = 67980 ∧
  repeatWait .refPd (fullFrame .refPd (txBits .w32 .lsbFirst [0xF30CFF00] 32)) = 42020 ∧
  totalMicros (repeatFrame .refPd ⟨9000, 2250⟩) = 11810 ∧
  repeatWait .refPd (repeatFrame .refPd ⟨9000, 2250⟩) = 98190

/-- R300: SENDRAW appends its elements as marks and spaces in turn, element 0 a mark; a zero element is skipped and
keeps its position. -/
def Obligations.SendRawAlternates : Prop :=
  ∀ (s : State) (durations : List Word),
    exec (.sendRaw durations) s = .next { s with
      txTrace := s.txTrace ++
        (durations.mapIdx fun i w =>
          if i % 2 = 0 then TxEvent.mark w.toNat else .space w.toNat).filter fun p => 0 < p.micros
      responses := s.responses ++ [{ status := .ok, value := 0 }] }

/-- R301, R302: SENDBI sends the half-units of the bits, most significant of the `N` first, as runs: no two consecutive
runs have the same level, each is 1 or 2 half-units long, and laid end to end they are the half-units. -/
def Obligations.SendBiSendsCoalescedHalves : Prop :=
  ∀ (s : State) (nbits : BitVec 16) (unit : Word) (codeword : Chunk),
    1 ≤ nbits.toNat → nbits.toNat ≤ s.cfg.wordBits.bits → 1 ≤ unit.toNat →
    ∃ rs : List (Level × Nat),
      rs.flatMap (fun r => List.replicate r.2 r.1) =
        (List.range nbits.toNat).flatMap (fun k =>
          if codeword.getLsbD (nbits.toNat - 1 - k) then [Level.space, .mark] else [.mark, .space]) ∧
      rs.IsChain (fun a b => a.1 ≠ b.1) ∧
      (∀ r ∈ rs, r.2 = 1 ∨ r.2 = 2) ∧
      exec (.sendBi nbits unit codeword) s = .next { s with
        txTrace := s.txTrace ++ rs.map (fun r =>
          match r.1 with
          | .mark => .mark (r.2 * unit.toNat)
          | .space => .space (r.2 * unit.toNat))
        responses := s.responses ++ [{ status := .ok, value := 0 }] }

/-- R223, the round trip of a pulse-distance or pulse-width slot: what SEND emits, captured as a frame whose every entry
the matcher accepts for the pulse that was sent (and whose zero bits are not also accepted as ones, R137), is decoded
by TRYDEC to the chunks that were sent, with the address, command and extra field the layout cuts from the bits sent. -/
def Obligations.SendThenTryDecRoundTrip : Prop :=
  ∀ (s s' r : State) (slot : BitVec 8) (d : Slot) (chunks : List Chunk) (pulses : List TxEvent),
    configWf s.cfg = true → r.cfg = s.cfg → s.cfg.dtab[slot.toNat]? = some d → d.convention ≠ .biphase →
    chunksCanonical s.cfg.wordBits d.bitCount.toNat chunks →
    (d.layout = .rc5 → (txBits s.cfg.wordBits d.bitOrder chunks d.bitCount.toNat).getD 0 false = true) →
    exec (.send slot d.bitCount 0 chunks) s = .next s' →
    s'.txTrace = s.txTrace ++ .carrier d.frequencyKHz :: pulses →
    r.capState = .stop → r.ovf = false → FrameAccepted (recordedPulses pulses) r →
    (∀ k, k < d.bitCount.toNat →
      (txBits s.cfg.wordBits d.bitOrder chunks d.bitCount.toNat).getD k false = false →
      (d.convention = .pulseDistance →
        matchSpace r.cfg (r.entry (4 + 2 * k)) d.oneSpaceMicros.toNat = false) ∧
      (d.convention = .pulseWidth →
        matchMark r.cfg (r.entry (3 + 2 * k)) d.oneMarkMicros.toNat = false)) →
    ∃ t f, exec (.tryDec slot) r = .next t ∧
      t.responses = r.responses ++ [{ status := .ok, value := 0 }] ∧
      t.df.valid = true ∧ t.df.tag = d.tag ∧ t.df.raw = chunks ∧ t.df.nbits = d.bitCount ∧
      layoutFields d (txBits s.cfg.wordBits d.bitOrder chunks d.bitCount.toNat) = some f ∧
      t.df.addr = f.addr ∧ t.df.cmd = f.cmd ∧ t.df.extra = f.extra

/-- R223, the round trip of a biphase slot sent most significant bit first: what SENDBI emits with a leading 1, captured
as a frame whose entries have the widths that were sent, is decoded by TRYDEC to the codeword without its start bit,
with the address, command and extra field the layout cuts from those bits (log entry 10 for the end of the frame). -/
def Obligations.SendBiThenTryDecRoundTrip : Prop :=
  ∀ (r : State) (slot : BitVec 8) (d : Slot) (codeword : Chunk),
    configWf r.cfg = true → r.cfg.dtab[slot.toNat]? = some d → d.convention = .biphase →
    d.bitOrder = .msbFirst → d.bitCount.toNat ≤ r.cfg.wordBits.bits →
    codeword.getLsbD (d.bitCount.toNat - 1) = true →
    (d.layout = .rc5 → codeword.getLsbD (d.bitCount.toNat - 2) = true) →
    r.capState = .stop → r.ovf = false →
    RunsRecorded (halfUnit d)
      (recordedRuns (runs ((biBitsToSend codeword d.bitCount.toNat).flatMap halvesOfBit))) r →
    let sent := (List.range (d.bitCount.toNat - 1)).map fun k => codeword.getLsbD (d.bitCount.toNat - 2 - k)
    ∃ t f, exec (.tryDec slot) r = .next t ∧
      t.responses = r.responses ++ [{ status := .ok, value := 0 }] ∧
      t.df.valid = true ∧ t.df.tag = d.tag ∧ t.df.nbits.toNat = d.bitCount.toNat - 1 ∧
      t.df.raw = [BitVec.ofNat 64 (codeword.toNat % 2 ^ (d.bitCount.toNat - 1))] ∧
      layoutFields d sent = some f ∧ t.df.addr = f.addr ∧ t.df.cmd = f.cmd ∧ t.df.extra = f.extra
end

