-- ==== Sys2Proof/Laws/State.lean ====
section
/-! SUPPORT. One lemma per field of the state per update, so that no proof unfolds a record update. -/

namespace Sys2Proof.Machine

variable (s : State)

/-! ## respond -/

@[simp] theorem respond_cfg (st : Status) (v : Word) : (respond st v s).cfg = s.cfg := rfl
@[simp] theorem respond_run (st : Status) (v : Word) : (respond st v s).run = s.run := rfl
@[simp] theorem respond_capState (st : Status) (v : Word) : (respond st v s).capState = s.capState := rfl
@[simp] theorem respond_elapsed (st : Status) (v : Word) : (respond st v s).elapsed = s.elapsed := rfl
@[simp] theorem respond_len (st : Status) (v : Word) : (respond st v s).len = s.len := rfl
@[simp] theorem respond_ovf (st : Status) (v : Word) : (respond st v s).ovf = s.ovf := rfl
@[simp] theorem respond_rawbuf (st : Status) (v : Word) : (respond st v s).rawbuf = s.rawbuf := rfl
@[simp] theorem respond_df (st : Status) (v : Word) : (respond st v s).df = s.df := rfl
@[simp] theorem respond_last (st : Status) (v : Word) : (respond st v s).last = s.last := rfl
@[simp] theorem respond_txRepdeg (st : Status) (v : Word) : (respond st v s).txRepdeg = s.txRepdeg := rfl
@[simp] theorem respond_txCarrier (st : Status) (v : Word) : (respond st v s).txCarrier = s.txCarrier := rfl
@[simp] theorem respond_txTrace (st : Status) (v : Word) : (respond st v s).txTrace = s.txTrace := rfl
@[simp] theorem respond_responses (st : Status) (v : Word) : (respond st v s).responses = s.responses ++ [{ status := st, value := v }] := rfl
@[simp] theorem respond_pending (st : Status) (v : Word) : (respond st v s).pending = s.pending := rfl

/-! ## raise -/

@[simp] theorem raise_cfg (st : Status) : (raise st s).cfg = s.cfg := rfl
@[simp] theorem raise_run (st : Status) : (raise st s).run = s.run := rfl
@[simp] theorem raise_capState (st : Status) : (raise st s).capState = s.capState := rfl
@[simp] theorem raise_elapsed (st : Status) : (raise st s).elapsed = s.elapsed := rfl
@[simp] theorem raise_len (st : Status) : (raise st s).len = s.len := rfl
@[simp] theorem raise_ovf (st : Status) : (raise st s).ovf = s.ovf := rfl
@[simp] theorem raise_rawbuf (st : Status) : (raise st s).rawbuf = s.rawbuf := rfl
@[simp] theorem raise_df (st : Status) : (raise st s).df = s.df := rfl
@[simp] theorem raise_last (st : Status) : (raise st s).last = s.last := rfl
@[simp] theorem raise_txRepdeg (st : Status) : (raise st s).txRepdeg = s.txRepdeg := rfl
@[simp] theorem raise_txCarrier (st : Status) : (raise st s).txCarrier = s.txCarrier := rfl
@[simp] theorem raise_txTrace (st : Status) : (raise st s).txTrace = s.txTrace := rfl
@[simp] theorem raise_responses (st : Status) : (raise st s).responses = s.responses ++ [{ status := st, value := 0 }] := rfl
@[simp] theorem raise_pending (st : Status) : (raise st s).pending = s.pending := rfl

/-! ## clearDF -/

@[simp] theorem clearDF_cfg : (clearDF s).cfg = s.cfg := rfl
@[simp] theorem clearDF_run : (clearDF s).run = s.run := rfl
@[simp] theorem clearDF_capState : (clearDF s).capState = s.capState := rfl
@[simp] theorem clearDF_elapsed : (clearDF s).elapsed = s.elapsed := rfl
@[simp] theorem clearDF_len : (clearDF s).len = s.len := rfl
@[simp] theorem clearDF_ovf : (clearDF s).ovf = s.ovf := rfl
@[simp] theorem clearDF_rawbuf : (clearDF s).rawbuf = s.rawbuf := rfl
@[simp] theorem clearDF_df : (clearDF s).df = .cleared := rfl
@[simp] theorem clearDF_last : (clearDF s).last = s.last := rfl
@[simp] theorem clearDF_txRepdeg : (clearDF s).txRepdeg = s.txRepdeg := rfl
@[simp] theorem clearDF_txCarrier : (clearDF s).txCarrier = s.txCarrier := rfl
@[simp] theorem clearDF_txTrace : (clearDF s).txTrace = s.txTrace := rfl
@[simp] theorem clearDF_responses : (clearDF s).responses = s.responses := rfl
@[simp] theorem clearDF_pending : (clearDF s).pending = s.pending := rfl

/-! ## startFrame -/

@[simp] theorem startFrame_cfg (e : Entry) : (startFrame e s).cfg = s.cfg := rfl
@[simp] theorem startFrame_run (e : Entry) : (startFrame e s).run = s.run := rfl
@[simp] theorem startFrame_capState (e : Entry) : (startFrame e s).capState = .mark := rfl
@[simp] theorem startFrame_elapsed (e : Entry) : (startFrame e s).elapsed = 0 := rfl
@[simp] theorem startFrame_len (e : Entry) : (startFrame e s).len = 1 := rfl
@[simp] theorem startFrame_ovf (e : Entry) : (startFrame e s).ovf = false := rfl
@[simp] theorem startFrame_rawbuf (e : Entry) : (startFrame e s).rawbuf = Memory.write s.rawbuf 0 e := rfl
@[simp] theorem startFrame_df (e : Entry) : (startFrame e s).df = s.df := rfl
@[simp] theorem startFrame_last (e : Entry) : (startFrame e s).last = s.last := rfl
@[simp] theorem startFrame_txRepdeg (e : Entry) : (startFrame e s).txRepdeg = s.txRepdeg := rfl
@[simp] theorem startFrame_txCarrier (e : Entry) : (startFrame e s).txCarrier = s.txCarrier := rfl
@[simp] theorem startFrame_txTrace (e : Entry) : (startFrame e s).txTrace = s.txTrace := rfl
@[simp] theorem startFrame_responses (e : Entry) : (startFrame e s).responses = s.responses := rfl
@[simp] theorem startFrame_pending (e : Entry) : (startFrame e s).pending = s.pending := rfl

/-! ## overflowFrame -/

@[simp] theorem overflowFrame_cfg : (overflowFrame s).cfg = s.cfg := rfl
@[simp] theorem overflowFrame_run : (overflowFrame s).run = s.run := rfl
@[simp] theorem overflowFrame_capState : (overflowFrame s).capState = .stop := rfl
@[simp] theorem overflowFrame_elapsed : (overflowFrame s).elapsed = 0 := rfl
@[simp] theorem overflowFrame_len : (overflowFrame s).len = s.len := rfl
@[simp] theorem overflowFrame_ovf : (overflowFrame s).ovf = true := rfl
@[simp] theorem overflowFrame_rawbuf : (overflowFrame s).rawbuf = s.rawbuf := rfl
@[simp] theorem overflowFrame_df : (overflowFrame s).df = s.df := rfl
@[simp] theorem overflowFrame_last : (overflowFrame s).last = s.last := rfl
@[simp] theorem overflowFrame_txRepdeg : (overflowFrame s).txRepdeg = s.txRepdeg := rfl
@[simp] theorem overflowFrame_txCarrier : (overflowFrame s).txCarrier = s.txCarrier := rfl
@[simp] theorem overflowFrame_txTrace : (overflowFrame s).txTrace = s.txTrace := rfl
@[simp] theorem overflowFrame_responses : (overflowFrame s).responses = s.responses := rfl
@[simp] theorem overflowFrame_pending : (overflowFrame s).pending = s.pending := rfl

/-! ## enableCapture -/

@[simp] theorem enableCapture_cfg : (enableCapture s).cfg = s.cfg := rfl
@[simp] theorem enableCapture_run : (enableCapture s).run = true := rfl
@[simp] theorem enableCapture_capState : (enableCapture s).capState = .idle := rfl
@[simp] theorem enableCapture_elapsed : (enableCapture s).elapsed = 0 := rfl
@[simp] theorem enableCapture_len : (enableCapture s).len = 0 := rfl
@[simp] theorem enableCapture_ovf : (enableCapture s).ovf = false := rfl
@[simp] theorem enableCapture_rawbuf : (enableCapture s).rawbuf = s.rawbuf := rfl
@[simp] theorem enableCapture_df : (enableCapture s).df = s.df := rfl
@[simp] theorem enableCapture_last : (enableCapture s).last = s.last := rfl
@[simp] theorem enableCapture_txRepdeg : (enableCapture s).txRepdeg = s.txRepdeg := rfl
@[simp] theorem enableCapture_txCarrier : (enableCapture s).txCarrier = s.txCarrier := rfl
@[simp] theorem enableCapture_txTrace : (enableCapture s).txTrace = s.txTrace := rfl
@[simp] theorem enableCapture_responses : (enableCapture s).responses = s.responses := rfl
@[simp] theorem enableCapture_pending : (enableCapture s).pending = s.pending := rfl

/-! ## writeRepeatResult -/

@[simp] theorem writeRepeatResult_cfg (d : Slot) : (writeRepeatResult d s).cfg = s.cfg := rfl
@[simp] theorem writeRepeatResult_run (d : Slot) : (writeRepeatResult d s).run = s.run := rfl
@[simp] theorem writeRepeatResult_capState (d : Slot) : (writeRepeatResult d s).capState = s.capState := rfl
@[simp] theorem writeRepeatResult_elapsed (d : Slot) : (writeRepeatResult d s).elapsed = s.elapsed := rfl
@[simp] theorem writeRepeatResult_len (d : Slot) : (writeRepeatResult d s).len = s.len := rfl
@[simp] theorem writeRepeatResult_ovf (d : Slot) : (writeRepeatResult d s).ovf = s.ovf := rfl
@[simp] theorem writeRepeatResult_rawbuf (d : Slot) : (writeRepeatResult d s).rawbuf = s.rawbuf := rfl
@[simp] theorem writeRepeatResult_df (d : Slot) : (writeRepeatResult d s).df =
      { valid := true, tag := d.tag, addr := s.last.addr, cmd := s.last.cmd, nbits := 0,
        flags := dfFlags true false false false false d.bitOrder, extra := 0, raw := [] } := rfl
@[simp] theorem writeRepeatResult_last (d : Slot) : (writeRepeatResult d s).last = s.last := rfl
@[simp] theorem writeRepeatResult_txRepdeg (d : Slot) : (writeRepeatResult d s).txRepdeg = s.txRepdeg := rfl
@[simp] theorem writeRepeatResult_txCarrier (d : Slot) : (writeRepeatResult d s).txCarrier = s.txCarrier := rfl
@[simp] theorem writeRepeatResult_txTrace (d : Slot) : (writeRepeatResult d s).txTrace = s.txTrace := rfl
@[simp] theorem writeRepeatResult_responses (d : Slot) : (writeRepeatResult d s).responses = s.responses := rfl
@[simp] theorem writeRepeatResult_pending (d : Slot) : (writeRepeatResult d s).pending = s.pending := rfl

/-! ## writeFullResult -/

@[simp] theorem writeFullResult_cfg (d : Slot) (c : List Bool) (f : LayoutFields) : (writeFullResult d c f s).cfg = s.cfg := rfl
@[simp] theorem writeFullResult_run (d : Slot) (c : List Bool) (f : LayoutFields) : (writeFullResult d c f s).run = s.run := rfl
@[simp] theorem writeFullResult_capState (d : Slot) (c : List Bool) (f : LayoutFields) : (writeFullResult d c f s).capState = s.capState := rfl
@[simp] theorem writeFullResult_elapsed (d : Slot) (c : List Bool) (f : LayoutFields) : (writeFullResult d c f s).elapsed = s.elapsed := rfl
@[simp] theorem writeFullResult_len (d : Slot) (c : List Bool) (f : LayoutFields) : (writeFullResult d c f s).len = s.len := rfl
@[simp] theorem writeFullResult_ovf (d : Slot) (c : List Bool) (f : LayoutFields) : (writeFullResult d c f s).ovf = s.ovf := rfl
@[simp] theorem writeFullResult_rawbuf (d : Slot) (c : List Bool) (f : LayoutFields) : (writeFullResult d c f s).rawbuf = s.rawbuf := rfl
@[simp] theorem writeFullResult_df (d : Slot) (c : List Bool) (f : LayoutFields) : (writeFullResult d c f s).df =
      { valid := true, tag := d.tag, addr := f.addr, cmd := f.cmd, nbits := BitVec.ofNat 16 c.length,
        flags := dfFlags false (autoRepeat s.cfg d s) f.parityFailed f.extraInfoPresent false d.bitOrder,
        extra := f.extra, raw := chunksOfBits s.cfg.wordBits d.bitOrder c } := rfl
@[simp] theorem writeFullResult_last (d : Slot) (c : List Bool) (f : LayoutFields) : (writeFullResult d c f s).last =
      { valid := true, tag := d.tag, addr := f.addr, cmd := f.cmd } := rfl
@[simp] theorem writeFullResult_txRepdeg (d : Slot) (c : List Bool) (f : LayoutFields) : (writeFullResult d c f s).txRepdeg = s.txRepdeg := rfl
@[simp] theorem writeFullResult_txCarrier (d : Slot) (c : List Bool) (f : LayoutFields) : (writeFullResult d c f s).txCarrier = s.txCarrier := rfl
@[simp] theorem writeFullResult_txTrace (d : Slot) (c : List Bool) (f : LayoutFields) : (writeFullResult d c f s).txTrace = s.txTrace := rfl
@[simp] theorem writeFullResult_responses (d : Slot) (c : List Bool) (f : LayoutFields) : (writeFullResult d c f s).responses = s.responses := rfl
@[simp] theorem writeFullResult_pending (d : Slot) (c : List Bool) (f : LayoutFields) : (writeFullResult d c f s).pending = s.pending := rfl

/-! ## emit -/

@[simp] theorem emit_cfg (ps : List TxEvent) : (emit ps s).cfg = s.cfg := rfl
@[simp] theorem emit_run (ps : List TxEvent) : (emit ps s).run = s.run := rfl
@[simp] theorem emit_capState (ps : List TxEvent) : (emit ps s).capState = s.capState := rfl
@[simp] theorem emit_elapsed (ps : List TxEvent) : (emit ps s).elapsed = s.elapsed := rfl
@[simp] theorem emit_len (ps : List TxEvent) : (emit ps s).len = s.len := rfl
@[simp] theorem emit_ovf (ps : List TxEvent) : (emit ps s).ovf = s.ovf := rfl
@[simp] theorem emit_rawbuf (ps : List TxEvent) : (emit ps s).rawbuf = s.rawbuf := rfl
@[simp] theorem emit_df (ps : List TxEvent) : (emit ps s).df = s.df := rfl
@[simp] theorem emit_last (ps : List TxEvent) : (emit ps s).last = s.last := rfl
@[simp] theorem emit_txRepdeg (ps : List TxEvent) : (emit ps s).txRepdeg = s.txRepdeg := rfl
@[simp] theorem emit_txCarrier (ps : List TxEvent) : (emit ps s).txCarrier = s.txCarrier := rfl
@[simp] theorem emit_txTrace (ps : List TxEvent) : (emit ps s).txTrace = s.txTrace ++ emitted ps := rfl
@[simp] theorem emit_responses (ps : List TxEvent) : (emit ps s).responses = s.responses := rfl
@[simp] theorem emit_pending (ps : List TxEvent) : (emit ps s).pending = s.pending := rfl

/-! ## placeInput -/

@[simp] theorem placeInput_cfg (p : PortInput) : (placeInput p s).cfg = s.cfg := rfl
@[simp] theorem placeInput_run (p : PortInput) : (placeInput p s).run = s.run := rfl
@[simp] theorem placeInput_capState (p : PortInput) : (placeInput p s).capState = s.capState := rfl
@[simp] theorem placeInput_elapsed (p : PortInput) : (placeInput p s).elapsed = s.elapsed := rfl
@[simp] theorem placeInput_len (p : PortInput) : (placeInput p s).len = s.len := rfl
@[simp] theorem placeInput_ovf (p : PortInput) : (placeInput p s).ovf = s.ovf := rfl
@[simp] theorem placeInput_rawbuf (p : PortInput) : (placeInput p s).rawbuf = s.rawbuf := rfl
@[simp] theorem placeInput_df (p : PortInput) : (placeInput p s).df = s.df := rfl
@[simp] theorem placeInput_last (p : PortInput) : (placeInput p s).last = s.last := rfl
@[simp] theorem placeInput_txRepdeg (p : PortInput) : (placeInput p s).txRepdeg = s.txRepdeg := rfl
@[simp] theorem placeInput_txCarrier (p : PortInput) : (placeInput p s).txCarrier = s.txCarrier := rfl
@[simp] theorem placeInput_txTrace (p : PortInput) : (placeInput p s).txTrace = s.txTrace := rfl
@[simp] theorem placeInput_responses (p : PortInput) : (placeInput p s).responses = s.responses := rfl
@[simp] theorem placeInput_pending (p : PortInput) : (placeInput p s).pending = p :: s.pending := rfl

/-! ## resetWith -/

@[simp] theorem resetWith_cfg (c : Config) : (State.resetWith c).cfg = c := rfl
@[simp] theorem resetWith_run (c : Config) : (State.resetWith c).run = false := rfl
@[simp] theorem resetWith_capState (c : Config) : (State.resetWith c).capState = .idle := rfl
@[simp] theorem resetWith_elapsed (c : Config) : (State.resetWith c).elapsed = 0 := rfl
@[simp] theorem resetWith_len (c : Config) : (State.resetWith c).len = 0 := rfl
@[simp] theorem resetWith_ovf (c : Config) : (State.resetWith c).ovf = false := rfl
@[simp] theorem resetWith_rawbuf (c : Config) : (State.resetWith c).rawbuf = [] := rfl
@[simp] theorem resetWith_df (c : Config) : (State.resetWith c).df = .cleared := rfl
@[simp] theorem resetWith_txRepdeg (c : Config) : (State.resetWith c).txRepdeg = false := rfl
@[simp] theorem resetWith_txCarrier (c : Config) : (State.resetWith c).txCarrier = 0 := rfl
@[simp] theorem resetWith_txTrace (c : Config) : (State.resetWith c).txTrace = [] := rfl
@[simp] theorem resetWith_responses (c : Config) : (State.resetWith c).responses = [] := rfl
@[simp] theorem resetWith_pending (c : Config) : (State.resetWith c).pending = [] := rfl
@[simp] theorem resetWith_last (c : Config) :
    (State.resetWith c).last = { valid := false, tag := 0, addr := 0, cmd := 0 } := rfl

/-! ## releaseFrame: only `capState` can change -/

@[simp] theorem releaseFrame_cfg : (releaseFrame s).cfg = s.cfg := by
  unfold releaseFrame; split <;> rfl
@[simp] theorem releaseFrame_run : (releaseFrame s).run = s.run := by
  unfold releaseFrame; split <;> rfl
theorem releaseFrame_capState :
    (releaseFrame s).capState = if s.capState = .stop then .idle else s.capState := by
  unfold releaseFrame; split <;> simp [*]
@[simp] theorem releaseFrame_elapsed : (releaseFrame s).elapsed = s.elapsed := by
  unfold releaseFrame; split <;> rfl
@[simp] theorem releaseFrame_len : (releaseFrame s).len = s.len := by
  unfold releaseFrame; split <;> rfl
@[simp] theorem releaseFrame_ovf : (releaseFrame s).ovf = s.ovf := by
  unfold releaseFrame; split <;> rfl
@[simp] theorem releaseFrame_rawbuf : (releaseFrame s).rawbuf = s.rawbuf := by
  unfold releaseFrame; split <;> rfl
@[simp] theorem releaseFrame_df : (releaseFrame s).df = s.df := by
  unfold releaseFrame; split <;> rfl
@[simp] theorem releaseFrame_last : (releaseFrame s).last = s.last := by
  unfold releaseFrame; split <;> rfl
@[simp] theorem releaseFrame_txRepdeg : (releaseFrame s).txRepdeg = s.txRepdeg := by
  unfold releaseFrame; split <;> rfl
@[simp] theorem releaseFrame_txCarrier : (releaseFrame s).txCarrier = s.txCarrier := by
  unfold releaseFrame; split <;> rfl
@[simp] theorem releaseFrame_txTrace : (releaseFrame s).txTrace = s.txTrace := by
  unfold releaseFrame; split <;> rfl
@[simp] theorem releaseFrame_responses : (releaseFrame s).responses = s.responses := by
  unfold releaseFrame; split <;> rfl
@[simp] theorem releaseFrame_pending : (releaseFrame s).pending = s.pending := by
  unfold releaseFrame; split <;> rfl

/-- RESUME as one record update (R168). -/
theorem releaseFrame_eq : releaseFrame s = { s with capState := if s.capState = .stop then .idle else s.capState } := by
  unfold releaseFrame; split <;> simp [*] <;> (cases s; simp_all)

/-! ## pushEntry: what it never changes -/

@[simp] theorem pushEntry_cfg (e : Entry) (n : CapState) : (pushEntry e n s).cfg = s.cfg := by
  unfold pushEntry; split <;> rfl
@[simp] theorem pushEntry_run (e : Entry) (n : CapState) : (pushEntry e n s).run = s.run := by
  unfold pushEntry; split <;> rfl
@[simp] theorem pushEntry_df (e : Entry) (n : CapState) : (pushEntry e n s).df = s.df := by
  unfold pushEntry; split <;> rfl
@[simp] theorem pushEntry_last (e : Entry) (n : CapState) : (pushEntry e n s).last = s.last := by
  unfold pushEntry; split <;> rfl
@[simp] theorem pushEntry_txRepdeg (e : Entry) (n : CapState) : (pushEntry e n s).txRepdeg = s.txRepdeg := by
  unfold pushEntry; split <;> rfl
@[simp] theorem pushEntry_txCarrier (e : Entry) (n : CapState) : (pushEntry e n s).txCarrier = s.txCarrier := by
  unfold pushEntry; split <;> rfl
@[simp] theorem pushEntry_txTrace (e : Entry) (n : CapState) : (pushEntry e n s).txTrace = s.txTrace := by
  unfold pushEntry; split <;> rfl
@[simp] theorem pushEntry_responses (e : Entry) (n : CapState) : (pushEntry e n s).responses = s.responses := by
  unfold pushEntry; split <;> rfl
@[simp] theorem pushEntry_pending (e : Entry) (n : CapState) : (pushEntry e n s).pending = s.pending := by
  unfold pushEntry; split <;> rfl

@[simp] theorem entry_respond (st : Status) (v : Word) (i : Nat) : (respond st v s).entry i = s.entry i := rfl
@[simp] theorem entry_raise (st : Status) (i : Nat) : (raise st s).entry i = s.entry i := rfl
@[simp] theorem entry_clearDF (i : Nat) : (clearDF s).entry i = s.entry i := rfl

end Sys2Proof.Machine
end

