-- ==== Sys2Proof/Laws/Receive.lean ====
section
/-! SUPPORT. What one decoder attempt, the chain, and DECODE and TRYDEC can do: which fields they write and with what
result. -/

namespace Sys2Proof.Machine

/-- The shared bit-loop succeeds iff every bit does, and then gives them in order. -/
theorem collectBits_eq_some {f : Nat → Option Bool} : ∀ {n k : Nat} {bs : List Bool},
    collectBits f k n = some bs ↔ bs.length = n ∧ ∀ j, j < n → f (k + j) = some (bs.getD j false) := by
  intro n
  induction n with
  | zero =>
    intro k bs
    simp only [collectBits, Option.some.injEq, List.length_eq_zero_iff, Nat.not_lt_zero, false_implies,
      implies_true, and_true]
    exact eq_comm
  | succ n ih =>
    intro k bs
    simp only [collectBits]
    constructor
    · intro h
      split at h
      · cases h
      · rename_i b hb
        split at h
        · cases h
        · rename_i bs' hbs
          cases h
          obtain ⟨hl, hj⟩ := ih.1 hbs
          refine ⟨by simp [hl], fun j hlt => ?_⟩
          cases j with
          | zero => simpa using hb
          | succ j => simpa [Nat.add_assoc, Nat.add_comm 1] using hj j (by omega)
    · rintro ⟨hl, hj⟩
      cases bs with
      | nil => simp at hl
      | cons b bs =>
        have h0 : f k = some b := by simpa using hj 0 (by omega)
        have hr : collectBits f (k + 1) n = some bs :=
          ih.2 ⟨by simpa using hl, fun j hlt => by
            simpa [Nat.add_assoc, Nat.add_comm 1] using hj (j + 1) (by omega)⟩
        rw [h0, hr]

/-- The cells give one bit each. -/
theorem length_biCells {d : Slot} {s : State} : ∀ {n : Nat} {cur cur' : Cursor} {c : List Bool},
    biCells d s n cur = some (c, cur') → c.length = n := by
  intro n
  induction n with
  | zero => intro cur cur' c h; cases h; rfl
  | succ n ih =>
    intro cur cur' c h
    simp only [biCells] at h
    repeat' split at h
    all_goals first
      | (cases h; done)
      | (rename_i hrec; cases h; rw [List.length_cons, ih hrec])

/-- The bit list of a slot has as many bits as the slot has output bits. -/
theorem length_conventionBits {d : Slot} {s : State} {c : List Bool} (h : conventionBits d s = some c) :
    c.length = outputBits d := by
  cases hd : d.convention <;> simp only [conventionBits, outputBits, hd] at h ⊢
  · unfold pdBits at h
    simp only at h
    repeat' split at h
    all_goals first
      | (cases h; done)
      | (rename_i hc _; cases h; exact (collectBits_eq_some.1 hc).1)
  · unfold pwBits at h
    simp only at h
    repeat' split at h
    all_goals first
      | (cases h; done)
      | (rename_i hc _; cases h; exact (collectBits_eq_some.1 hc).1)
  · unfold biBits at h
    repeat' split at h
    all_goals first
      | (cases h; done)
      | (rename_i hc _; cases h; exact length_biCells hc)

/-- So it fits DF_NBITS. -/
theorem length_conventionBits_lt {d : Slot} {s : State} {c : List Bool} (h : conventionBits d s = some c) :
    c.length < 2 ^ 16 := by
  have h1 := length_conventionBits h
  have h2 := d.bitCount.isLt
  unfold outputBits at h1
  split at h1 <;> omega

/-! ## What a decoder reads: the configuration, `len` and RAWBUF -/

section
variable {s t : State} (hc : t.cfg = s.cfg) (hl : t.len = s.len) (hb : t.rawbuf = s.rawbuf)
include hc hl hb

theorem nextHalf_congr (d : Slot) (cur : Cursor) : nextHalf d t cur = nextHalf d s cur := by
  simp only [nextHalf, State.entry, hc, hl, hb]

theorem biCells_congr (d : Slot) : ∀ (n : Nat) (cur : Cursor), biCells d t n cur = biCells d s n cur := by
  intro n
  induction n with
  | zero => intro cur; rfl
  | succ n ih => intro cur; simp only [biCells, nextHalf_congr hc hl hb, ih]

/-- Two states with the same configuration and the same frame give the same bits. -/
theorem conventionBits_congr (d : Slot) : conventionBits d t = conventionBits d s := by
  have he : t.entry = s.entry := by funext i; simp only [State.entry, hb]
  have hpd : pdBit d t = pdBit d s := by funext k; simp only [pdBit, hc, he]
  have hpw : pwBit d t = pwBit d s := by funext k; simp only [pwBit, pwMark, hc, he]
  have h1 : pdBits d t = pdBits d s := by
    rw [pdBits, pdBits, headerMatches, headerMatches, hpd, hc, hl, he]
  have h2 : pwBits d t = pwBits d s := by
    rw [pwBits, pwBits, headerMatches, headerMatches, hpw, hc, hl, he]
  have h3 : biBits d t = biBits d s := by
    simp only [biBits, nextHalf_congr hc hl hb, biCells_congr hc hl hb, hl]
  simp only [conventionBits, h1, h2, h3]

theorem isRepeatFrame_congr (d : Slot) : isRepeatFrame d t = isRepeatFrame d s := by
  simp only [isRepeatFrame, State.entry, hc, hl, hb]

omit hc hl in
/-- The auto-repeat test reads RAWBUF only. -/
theorem autoRepeat_congr (c : Config) (d : Slot) : autoRepeat c d t = autoRepeat c d s := by
  have he : t.entry 0 = s.entry 0 := by simp only [State.entry, hb]
  rw [autoRepeat, autoRepeat, he]

end

/-- Everything a decoder attempt can write: a repeat result, or a full result with its LAST registers. -/
theorem tryDecode_eq_some {d : Slot} {s t : State} (h : tryDecode d s = some t) :
    (isRepeatFrame d s = true ∧ t = writeRepeatResult d s) ∨
      (isRepeatFrame d s = false ∧ ∃ c f, conventionBits d s = some c ∧ layoutFields d c = some f ∧
        t = writeFullResult d c f s) := by
  unfold tryDecode at h
  split at h
  · rename_i hr; exact .inl ⟨hr, (Option.some.inj h).symm⟩
  · rename_i hr
    split at h
    · cases h
    · rename_i c hc
      split at h
      · cases h
      · rename_i f hf
        exact .inr ⟨by simpa using hr, c, f, hc, hf, (Option.some.inj h).symm⟩

/-- Whether an attempt fails depends on the configuration and the frame alone. -/
theorem tryDecode_none_congr {s t : State} (hc : t.cfg = s.cfg) (hl : t.len = s.len) (hb : t.rawbuf = s.rawbuf)
    (d : Slot) : tryDecode d t = none ↔ tryDecode d s = none := by
  simp only [tryDecode, isRepeatFrame_congr hc hl hb, conventionBits_congr hc hl hb]
  cases isRepeatFrame d s <;> cases conventionBits d s <;> simp
  rename_i c
  cases layoutFields d c <;> simp

/-- The chain gives what some slot gives, the slots before it giving nothing. -/
theorem firstDecode_eq_some {slots : List Slot} {s t : State} :
    firstDecode slots s = some t ↔
      ∃ before d after, slots = before ++ d :: after ∧ (∀ p ∈ before, tryDecode p s = none) ∧
        tryDecode d s = some t := by
  induction slots with
  | nil => simp [firstDecode]
  | cons d ds ih =>
    simp only [firstDecode]
    cases hd : tryDecode d s with
    | some t' =>
      simp only [Option.some.injEq]
      constructor
      · rintro rfl; exact ⟨[], d, ds, rfl, by simp, hd⟩
      · rintro ⟨before, e, after, heq, hb, he⟩
        cases before with
        | nil => simp only [List.nil_append, List.cons.injEq] at heq; rw [← heq.1, hd] at he; simpa using he
        | cons p ps =>
          simp only [List.cons_append, List.cons.injEq] at heq
          have := hb p (by simp)
          rw [← heq.1, hd] at this; cases this
    | none =>
      simp only [ih]
      constructor
      · rintro ⟨before, e, after, rfl, hb, he⟩
        exact ⟨d :: before, e, after, rfl, by simpa [hd] using hb, he⟩
      · rintro ⟨before, e, after, heq, hb, he⟩
        cases before with
        | nil => simp only [List.nil_append, List.cons.injEq] at heq; rw [← heq.1, hd] at he; cases he
        | cons p ps =>
          simp only [List.cons_append, List.cons.injEq] at heq
          exact ⟨ps, e, after, heq.2, fun q hq => hb q (by simp [hq]), he⟩

/-- The chain fails iff every slot does. -/
theorem firstDecode_eq_none {slots : List Slot} {s : State} :
    firstDecode slots s = none ↔ ∀ d ∈ slots, tryDecode d s = none := by
  induction slots with
  | nil => simp [firstDecode]
  | cons d ds ih =>
    simp only [firstDecode, List.mem_cons, forall_eq_or_imp]
    cases hd : tryDecode d s <;> simp [ih]

/-- Everything DECODE and TRYDEC can end in, after the result registers are cleared. -/
theorem decodeWith_cases (slots : List Slot) (s : State) :
    (s.capState ≠ .stop ∧ decodeWith slots s = raise .noFrameAvailable s) ∨
    (s.capState = .stop ∧ s.ovf = true ∧
      decodeWith slots s = raise .overflow { s with df := { s.df with flags := overflowFlags } }) ∨
    (s.capState = .stop ∧ s.ovf = false ∧ firstDecode slots s = none ∧
      decodeWith slots s = raise .decodeMismatch s) ∨
    (s.capState = .stop ∧ s.ovf = false ∧ ∃ t, firstDecode slots s = some t ∧
      decodeWith slots s = respond .ok 0 t) := by
  unfold decodeWith
  by_cases h1 : s.capState = .stop
  · cases h2 : s.ovf
    · cases h3 : firstDecode slots s <;> simp [h1]
    · simp [h1]
  · simp [h1]

/-- A decoder attempt writes the result registers and nothing else. -/
theorem tryDecode_frame {d : Slot} {s t : State} (h : tryDecode d s = some t) :
    t = { s with df := t.df, last := t.last } := by
  rcases tryDecode_eq_some h with ⟨-, rfl⟩ | ⟨-, c, f, -, -, rfl⟩ <;> rfl

/-- DECODE and TRYDEC write the result registers and give one response, and nothing else. -/
theorem decodeWith_frame (slots : List Slot) (s : State) :
    ∃ st df last, decodeWith slots s = respond st 0 { s with df := df, last := last } ∧
      st.returned = true ∧ st ≠ .badCommand ∧ st ≠ .badOperand := by
  rcases decodeWith_cases slots s with ⟨-, h⟩ | ⟨-, -, h⟩ | ⟨-, -, -, h⟩ | ⟨-, -, t, ht, h⟩ <;> rw [h]
  · exact ⟨_, _, _, rfl, rfl, nofun, nofun⟩
  · exact ⟨_, _, _, rfl, rfl, nofun, nofun⟩
  · exact ⟨_, _, _, rfl, rfl, nofun, nofun⟩
  · obtain ⟨-, d, -, -, -, hd⟩ := firstDecode_eq_some.1 ht
    refine ⟨.ok, t.df, t.last, ?_, rfl, nofun, nofun⟩
    rw [← tryDecode_frame hd]

end Sys2Proof.Machine
end

