-- ==== Sys2Proof/Laws/Biphase.lean ====
section
/-! SUPPORT. The biphase reader: what an entry's width and one half-unit can be, and the cells of a frame as a plain
sequence of half-units. -/

namespace Sys2Proof.Machine

/-- An entry is 1, 2 or 3 half-units wide (R273). -/
theorem entryWidth_bounds {c : Config} {u : Nat} {l : Level} {e w : Nat} (h : entryWidth c u l e = some w) :
    1 ≤ w ∧ w ≤ 3 := by
  unfold entryWidth at h
  repeat' split at h
  all_goals first
    | (cases h; done)
    | (cases h; omega)

/-- Past the end there is only Space, and the cursor stays (R274). -/
theorem nextHalf_past_end {d : Slot} {s : State} {cur : Cursor} (h : s.len ≤ cur.off) :
    nextHalf d s cur = some (.space, cur) := by
  simp [nextHalf, h]

/-- Inside the frame a half-unit has the level of its entry, and the last one of an entry moves to the next (R272). -/
theorem nextHalf_of_entryWidth {d : Slot} {s : State} {cur : Cursor} {w : Nat} (hlt : cur.off < s.len)
    (hw : entryWidth s.cfg (halfUnit d) (entryLevel cur.off) (s.entry cur.off) = some w) :
    nextHalf d s cur =
      some (entryLevel cur.off,
        if w ≤ cur.used + 1 then { off := cur.off + 1, used := 0 } else { off := cur.off, used := cur.used + 1 }) := by
  have : ¬ s.len ≤ cur.off := by omega
  simp only [nextHalf, this, if_false, hw]
  split <;> rfl

/-- An entry with no width ends the attempt. -/
theorem nextHalf_no_width {d : Slot} {s : State} {cur : Cursor} (hlt : cur.off < s.len)
    (hw : entryWidth s.cfg (halfUnit d) (entryLevel cur.off) (s.entry cur.off) = none) : nextHalf d s cur = none := by
  have : ¬ s.len ≤ cur.off := by omega
  simp [nextHalf, this, hw]

/-- `n` half-units from the cursor, and where it stands afterwards. -/
def readHalves (d : Slot) (s : State) : Nat → Cursor → Option (List Level × Cursor)
  | 0, cur => some ([], cur)
  | n + 1, cur => (nextHalf d s cur).bind fun r => (readHalves d s n r.2).map fun q => (r.1 :: q.1, q.2)

/-- The two halves of a cell are a bit exactly when they are that bit's halves. -/
theorem bitOfHalves_eq_some {a b : Level} {bit : Bool} : bitOfHalves a b = some bit ↔ halvesOfBit bit = [a, b] := by
  cases a <;> cases b <;> cases bit <;> simp [bitOfHalves, halvesOfBit]

/-- The cells read are bits exactly when the half-units read are the bits' halves (R276). -/
theorem biCells_eq_some {d : Slot} {s : State} : ∀ {n : Nat} {cur cur' : Cursor} {bits : List Bool},
    biCells d s n cur = some (bits, cur') ↔
      bits.length = n ∧ readHalves d s (2 * n) cur = some (bits.flatMap halvesOfBit, cur') := by
  intro n
  induction n with
  | zero => intro cur cur' bits; cases bits <;> simp [biCells, readHalves]
  | succ n ih =>
    intro cur cur' bits
    rw [show 2 * (n + 1) = 2 * n + 1 + 1 by omega]
    simp only [biCells, readHalves]
    cases h1 : nextHalf d s cur with
    | none => simp
    | some x =>
      obtain ⟨a, c1⟩ := x
      simp only [Option.bind_some]
      cases h2 : nextHalf d s c1 with
      | none => simp
      | some y =>
        obtain ⟨b, c2⟩ := y
        simp only [Option.bind_some, Option.map_map, Option.map_eq_some_iff, Function.comp]
        constructor
        · intro h
          split at h
          · cases h
          · rename_i bit hb
            split at h
            · cases h
            · rename_i bs c3 h3
              cases h
              obtain ⟨hl, hr⟩ := ih.1 h3
              exact ⟨by simp [hl], _, hr, by simp [List.flatMap_cons, bitOfHalves_eq_some.1 hb]⟩
        · rintro ⟨hl, ⟨hs, c3⟩, hr, he⟩
          cases bits with
          | nil => simp at hl
          | cons bit bs =>
            have hb : halvesOfBit bit = [a, b] ∧ bs.flatMap halvesOfBit = hs ∧ c3 = cur' := by
              cases bit <;> simp_all [List.flatMap_cons, halvesOfBit]
            obtain ⟨hb, rfl, rfl⟩ := hb
            have h3 := ih.2 ⟨by simpa using hl, hr⟩
            simp only [bitOfHalves_eq_some.2 hb, h3]

end Sys2Proof.Machine
end

