-- ==== Sys2Proof/Laws/Memory.lean ====
section
/-! SUPPORT. RAWBUF: reading after writing, and the canonical form (log entry 6). -/

namespace Sys2Proof.Machine

theorem Memory.above_of {lo : Option Nat} {a : Nat} (h : ∀ l, lo = some l → l < a) : Memory.above lo a = true := by
  cases lo with
  | none => rfl
  | some l => simpa [Memory.above] using h l rfl

theorem Memory.wfFrom_weaken {m : Memory} : ∀ {lo lo' : Option Nat},
    (∀ l', lo' = some l' → ∃ l, lo = some l ∧ l' ≤ l) → Memory.wfFrom lo m = true → Memory.wfFrom lo' m = true := by
  cases m with
  | nil => intros; rfl
  | cons hd tl =>
    intro lo lo' hle h
    obtain ⟨b, x⟩ := hd
    simp only [Memory.wfFrom, Bool.and_eq_true, decide_eq_true_eq] at h ⊢
    refine ⟨⟨?_, h.1.2⟩, h.2⟩
    cases lo' with
    | none => rfl
    | some l' =>
      obtain ⟨l, rfl, hl⟩ := hle l' rfl
      have := h.1.1
      simp only [Memory.above, decide_eq_true_eq] at this ⊢
      omega

/-- Below a canonical memory's first index everything reads as unlisted. -/
theorem Memory.read_below {m : Memory} : ∀ {l a : Nat}, Memory.wfFrom (some l) m = true → a ≤ l →
    Memory.read m a = Memory.unlisted := by
  induction m with
  | nil => intros; rfl
  | cons hd tl ih =>
    intro l a h hle
    obtain ⟨b, x⟩ := hd
    simp only [Memory.wfFrom, Memory.above, Bool.and_eq_true, decide_eq_true_eq] at h
    have hb := h.1.1
    simp only [Memory.read]
    rw [if_neg (by omega)]
    exact ih h.2 (by omega)

/-- A read after a write gives the value written, and every other index reads as before. -/
theorem Memory.read_write {m : Memory} (a v : _) (i : Nat) : ∀ {lo : Option Nat}, Memory.wfFrom lo m = true →
    Memory.read (Memory.write m a v) i = if i = a then v else Memory.read m i := by
  induction m with
  | nil =>
    intro lo _
    simp only [Memory.write]
    split
    · rename_i hv; split <;> simp_all [Memory.read]
    · simp only [Memory.read]
  | cons hd tl ih =>
    intro lo h
    obtain ⟨b, x⟩ := hd
    simp only [Memory.wfFrom, Bool.and_eq_true, decide_eq_true_eq] at h
    obtain ⟨⟨_, hx⟩, htl⟩ := h
    simp only [Memory.write]
    by_cases hab : a < b
    · rw [if_pos hab]
      have hbelow : ∀ j, j < b → Memory.read ((b, x) :: tl) j = Memory.unlisted := fun j hj => by
        simp only [Memory.read]
        rw [if_neg (by omega)]
        exact Memory.read_below htl (by omega)
      by_cases hv : v = Memory.unlisted
      · rw [if_pos hv]
        by_cases hi : i = a
        · rw [if_pos hi, hi, hbelow a hab, hv]
        · rw [if_neg hi]
      · rw [if_neg hv, Memory.read]
    · rw [if_neg hab]
      by_cases hab2 : a = b
      · rw [if_pos hab2]
        by_cases hv : v = Memory.unlisted
        · rw [if_pos hv]
          by_cases hi : i = a
          · rw [if_pos hi, hi, hab2, hv]
            exact Memory.read_below htl (le_refl b)
          · rw [if_neg hi, Memory.read, if_neg (by omega)]
        · rw [if_neg hv, Memory.read, Memory.read, hab2]
          by_cases hi : i = b <;> simp [hi]
      · rw [if_neg hab2, Memory.read, ih htl, Memory.read]
        by_cases hi : i = b
        · rw [if_pos hi, if_neg (by omega), if_pos hi]
        · rw [if_neg hi, if_neg hi]

/-- A write keeps the canonical form. -/
theorem Memory.write_wfFrom {m : Memory} (a v : _) : ∀ {lo : Option Nat}, Memory.wfFrom lo m = true →
    (∀ l, lo = some l → l < a) → Memory.wfFrom lo (Memory.write m a v) = true := by
  induction m with
  | nil =>
    intro lo _ hlo
    simp only [Memory.write]
    split
    · rfl
    · rename_i hv
      simp only [Memory.wfFrom, Bool.and_true, Bool.and_eq_true, decide_eq_true_eq]
      exact ⟨Memory.above_of hlo, hv⟩
  | cons hd tl ih =>
    intro lo h hlo
    obtain ⟨b, x⟩ := hd
    have h' := h
    simp only [Memory.wfFrom, Bool.and_eq_true, decide_eq_true_eq] at h
    obtain ⟨⟨hb, hx⟩, htl⟩ := h
    have low := Memory.above_of hlo
    simp only [Memory.write]
    by_cases hab : a < b
    · rw [if_pos hab]
      by_cases hv : v = Memory.unlisted
      · rw [if_pos hv]; exact h'
      · rw [if_neg hv]
        simp only [Memory.wfFrom, Bool.and_eq_true, decide_eq_true_eq]
        exact ⟨⟨low, hv⟩, ⟨by simpa [Memory.above] using hab, hx⟩, htl⟩
    · rw [if_neg hab]
      by_cases hab2 : a = b
      · rw [if_pos hab2]
        subst hab2
        by_cases hv : v = Memory.unlisted
        · rw [if_pos hv]
          exact Memory.wfFrom_weaken (lo := some a) (fun l' hl' => ⟨a, rfl, le_of_lt (hlo l' hl')⟩) htl
        · rw [if_neg hv]
          simp only [Memory.wfFrom, Bool.and_eq_true, decide_eq_true_eq]
          exact ⟨⟨low, hv⟩, htl⟩
      · rw [if_neg hab2]
        simp only [Memory.wfFrom, Bool.and_eq_true, decide_eq_true_eq]
        exact ⟨⟨hb, hx⟩, ih htl (fun l hl => by cases hl; omega)⟩

theorem Memory.write_wf {m : Memory} (a v : _) (h : Memory.wf m = true) :
    Memory.wf (Memory.write m a v) = true :=
  Memory.write_wfFrom a v h (by simp)

/-- A write lists no index but its own. -/
theorem Memory.mem_write {m : Memory} {a v : _} {cell : RawCell} (h : cell ∈ Memory.write m a v) :
    cell = (a, v) ∨ cell ∈ m := by
  induction m with
  | nil => simp only [Memory.write] at h; split at h <;> simp_all
  | cons hd tl ih =>
    obtain ⟨b, x⟩ := hd
    simp only [Memory.write] at h
    split at h
    · split at h <;> simp_all
    · split at h
      · split at h
        · exact .inr (List.mem_cons_of_mem _ h)
        · rcases List.mem_cons.1 h with h | h
          · exact .inl h
          · exact .inr (List.mem_cons_of_mem _ h)
      · rcases List.mem_cons.1 h with h | h
        · simp [h]
        · rcases ih h with h | h
          · exact .inl h
          · exact .inr (List.mem_cons_of_mem _ h)

/-- The empty memory, which is that of reset, is in canonical form. -/
theorem Memory.reset_wf (c : Config) : Memory.wf (State.resetWith c).rawbuf = true := rfl

end Sys2Proof.Machine
end

