-- ==== Sys2Proof/Laws/Capture.lean ====
section
/-! SUPPORT. What one TICK can do (spec/41_capture_quantizer.md R161), and the saturating counter (R152). -/

namespace Sys2Proof.Machine

/-- The saturating increment as a number. -/
theorem toNat_satInc {tickBits : Nat} (h : tickBits ≤ 16) (e : Entry) :
    (satInc tickBits e).toNat = min (e.toNat + 1) (2 ^ tickBits - 1) := by
  have h1 : 2 ^ tickBits ≤ 2 ^ 16 := Nat.pow_le_pow_right (by omega) h
  have h2 : 0 < 2 ^ tickBits := Nat.two_pow_pos _
  simp only [satInc, BitVec.toNat_ofNat]
  rw [Nat.mod_eq_of_lt (by omega)]

/-- The counter never exceeds `2^TICK_BITS − 1`. -/
theorem satInc_le (c : Config) (e : Entry) : (satInc c.tickBits e).toNat ≤ tickMax c := by
  have h : (satInc c.tickBits e).toNat ≤ min (e.toNat + 1) (2 ^ c.tickBits - 1) := by
    simp only [satInc, BitVec.toNat_ofNat]
    exact Nat.mod_le _ _
  unfold tickMax
  omega

/-- The level of the pin value that is that level. -/
@[simp] theorem levelOf_pinOf (c : Config) (l : Level) : levelOf c (pinOf c l) = l := by
  cases l <;> cases h : c.activeLow <;> simp [levelOf, pinOf, h]

/-- The increment is at least 1 in a legal configuration. -/
theorem satInc_pos {tickBits : Nat} (h1 : 1 ≤ tickBits) (h : tickBits ≤ 16) (e : Entry) :
    1 ≤ (satInc tickBits e).toNat := by
  have : 2 ^ 1 ≤ 2 ^ tickBits := Nat.pow_le_pow_right (by omega) h1
  rw [toNat_satInc h]
  omega

/-- Everything a transition can be, with the states it is taken from. -/
theorem captureTransition_cases (lvl : Level) (e : Entry) (s : State) :
    ((s.capState = .space → lvl = .space ∧ e.toNat ≤ s.cfg.gapTicks) ∧
      (s.capState = .mark → lvl = .mark) ∧
      captureTransition lvl e s = { s with elapsed := e }) ∨
    ((s.capState = .idle ∨ s.capState = .stop) ∧ lvl = .mark ∧ captureTransition lvl e s = { s with elapsed := 0 }) ∨
    (s.capState = .idle ∧ lvl = .mark ∧ s.cfg.gapTicks ≤ e.toNat ∧ captureTransition lvl e s = startFrame e s) ∨
    (s.capState = .mark ∧ lvl = .space ∧ captureTransition lvl e s = pushEntry e .space s) ∨
    (s.capState = .space ∧ lvl = .mark ∧ captureTransition lvl e s = pushEntry e .mark s) ∨
    (s.capState = .space ∧ lvl = .space ∧ s.cfg.gapTicks < e.toNat ∧
      captureTransition lvl e s = { s with elapsed := e, capState := .stop }) := by
  cases hs : s.capState <;> cases lvl <;> simp only [captureTransition, hs]
  case idle.mark => split <;> simp_all
  case space.space =>
    split
    · simp_all
    · left; simp_all
  all_goals simp_all

/-- Everything a push can be. -/
theorem pushEntry_cases (e : Entry) (next : CapState) (s : State) :
    (s.len < s.cfg.rawCap ∧ pushEntry e next s =
      { s with rawbuf := Memory.write s.rawbuf s.len e, len := s.len + 1, capState := next, elapsed := 0 }) ∨
    (s.cfg.rawCap ≤ s.len ∧ pushEntry e next s = overflowFrame s) := by
  unfold pushEntry
  split
  · exact .inl ⟨‹_›, rfl⟩
  · exact .inr ⟨by omega, rfl⟩

/-- A push writes only capture registers. -/
theorem pushEntry_frame (e : Entry) (next : CapState) (s : State) :
    ∃ st el n o m, pushEntry e next s = { s with capState := st, elapsed := el, len := n, ovf := o, rawbuf := m } := by
  rcases pushEntry_cases e next s with ⟨-, h⟩ | ⟨-, h⟩ <;> exact ⟨_, _, _, _, _, h⟩

/-- A transition writes only capture registers. -/
theorem captureTransition_frame (lvl : Level) (e : Entry) (s : State) :
    ∃ st el n o m,
      captureTransition lvl e s = { s with capState := st, elapsed := el, len := n, ovf := o, rawbuf := m } := by
  rcases captureTransition_cases lvl e s with
    ⟨-, -, h⟩ | ⟨-, -, h⟩ | ⟨-, -, -, h⟩ | ⟨-, -, h⟩ | ⟨-, -, h⟩ | ⟨-, -, -, h⟩
  · exact ⟨_, _, _, _, _, h⟩
  · exact ⟨_, _, _, _, _, h⟩
  · exact ⟨_, _, _, _, _, h⟩
  · rw [h]; exact pushEntry_frame ..
  · rw [h]; exact pushEntry_frame ..
  · exact ⟨_, _, _, _, _, h⟩

/-- Reading an entry of a frame whose RAWBUF was written at `a`. -/
theorem entry_write {s : State} (h : Memory.wf s.rawbuf = true) (a : Nat) (v : Entry) (i : Nat) :
    (Memory.read (Memory.write s.rawbuf a v) i).toNat = if i = a then v.toNat else s.entry i := by
  rw [Memory.read_write a v i (lo := none) h]
  split <;> rfl

/-- What the ranges of R3 and R4 say, as inequalities. -/
theorem ranges_of_configWf {c : Config} (h : configWf c = true) :
    (1 ≤ c.dt ∧ c.dt ≤ 65535) ∧ c.tol ≤ 100 ∧ c.markExcess ≤ 65535 ∧ (8 ≤ c.tickBits ∧ c.tickBits ≤ 16) ∧
      (1 ≤ c.gapTicks ∧ c.gapTicks ≤ 2 ^ c.tickBits - 2) ∧ (4 ≤ c.rawCap ∧ c.rawCap ≤ 65535) ∧
      c.wordBits.words ≤ c.nwmax ∧ c.ndec ≤ 255 := by
  simp only [configWf, rangesOk, Bool.and_eq_true, decide_eq_true_eq] at h
  obtain ⟨⟨⟨⟨⟨⟨⟨⟨h1, h2⟩, h3⟩, h4⟩, h5⟩, h6⟩, h7⟩, h8⟩, -⟩ := h
  exact ⟨h1, h2, h3, h4, h5, h6, h7, h8⟩

/-- Every slot of a legal configuration is well-formed (R39). -/
theorem slotWf_of_configWf {c : Config} (h : configWf c = true) {d : Slot} (hd : d ∈ c.dtab) :
    slotWf c.nwmax d = true := by
  simp only [configWf, Bool.and_eq_true, List.all_eq_true] at h
  exact h.2 d hd

end Sys2Proof.Machine
end

