-- ==== Sys2Proof/Laws/Decode.lean ====
section
/-! SUPPORT. The command word's fields, the chunk words, and row selection. -/

namespace Sys2Proof

@[simp] theorem opField_commandWord (op a : BitVec 8) (b : BitVec 16) : opField (commandWord op a b) = op := by
  apply BitVec.eq_of_getLsbD_eq
  intro i hi
  simp only [opField, commandWord, BitVec.getLsbD_extractLsb', BitVec.getLsbD_append]
  have h1 : ¬ 24 + i < 16 := by omega
  have h2 : ¬ 24 + i - 16 < 8 := by omega
  simp only [hi, h1, h2, decide_true, Bool.true_and, if_false]
  congr 1; omega

@[simp] theorem aField_commandWord (op a : BitVec 8) (b : BitVec 16) : aField (commandWord op a b) = a := by
  apply BitVec.eq_of_getLsbD_eq
  intro i hi
  simp only [aField, commandWord, BitVec.getLsbD_extractLsb', BitVec.getLsbD_append]
  have h1 : ¬ 16 + i < 16 := by omega
  have h2 : 16 + i - 16 < 8 := by omega
  simp only [hi, h1, h2, decide_true, Bool.true_and, if_false, if_true]
  congr 1; omega

@[simp] theorem bField_commandWord (op a : BitVec 8) (b : BitVec 16) : bField (commandWord op a b) = b := by
  apply BitVec.eq_of_getLsbD_eq
  intro i hi
  simp only [bField, commandWord, BitVec.getLsbD_extractLsb', BitVec.getLsbD_append, Nat.zero_add]
  simp only [hi, decide_true, Bool.true_and, if_true]

/-- A command word is its three fields. -/
theorem commandWord_fields (cw : Word) : commandWord (opField cw) (aField cw) (bField cw) = cw := by
  apply BitVec.eq_of_getLsbD_eq
  intro i hi
  simp only [opField, aField, bField, commandWord, BitVec.getLsbD_extractLsb', BitVec.getLsbD_append]
  by_cases h1 : i < 16
  · simp [h1]
  · by_cases h2 : i - 16 < 8
    · simp only [h1, h2, if_false, if_true, decide_true, Bool.true_and]
      congr 1; omega
    · have h3 : i - 16 - 8 < 8 := by omega
      simp only [h1, h2, h3, if_false, decide_true, Bool.true_and]
      congr 1; omega

theorem commandWord_inj {op a op' a' : BitVec 8} {b b' : BitVec 16}
    (h : commandWord op a b = commandWord op' a' b') : op = op' ∧ a = a' ∧ b = b' := by
  refine ⟨?_, ?_, ?_⟩
  · simpa using congrArg opField h
  · simpa using congrArg aField h
  · simpa using congrArg bField h

@[simp] theorem opOfCode_code (o : Op) : opOfCode o.code = some o := by cases o <;> rfl

theorem code_of_opOfCode {c : BitVec 8} {o : Op} (h : opOfCode c = some o) : c = o.code := by
  unfold opOfCode at h
  split at h <;> (try cases h) <;> (apply BitVec.eq_of_toNat_eq; assumption)

/-- What selecting a row says of the word: its opcode is the row's and the must-be-zero fields are 0. -/
theorem selectRow_eq_some {cw : Word} {o : Op} :
    selectRow cw = some o ↔
      opField cw = o.code ∧ (o.aMustBeZero = true → aField cw = 0) ∧ (o.bMustBeZero = true → bField cw = 0) := by
  unfold selectRow
  constructor
  · intro h
    split at h
    · cases h
    · rename_i o' ho'
      split at h
      · cases h
      · rename_i hz
        cases h
        refine ⟨code_of_opOfCode ho', ?_⟩
        simpa [imp_iff_not_or] using hz
  · rintro ⟨hop, ha, hb⟩
    rw [hop, opOfCode_code]
    simp only
    rw [if_neg]
    cases hA : o.aMustBeZero <;> cases hB : o.bMustBeZero <;> simp_all

/-- The row of an encoded command word. -/
theorem selectRow_commandWord (o : Op) (a : BitVec 8) (b : BitVec 16)
    (ha : o.aMustBeZero = true → a = 0) (hb : o.bMustBeZero = true → b = 0) :
    selectRow (commandWord o.code a b) = some o := by
  rw [selectRow_eq_some]
  simpa using ⟨ha, hb⟩

theorem bits_pos (wb : WordBits) : 0 < wb.bits := by cases wb <;> decide

theorem length_wordsOfChunk (wb : WordBits) (c : Chunk) : (wordsOfChunk wb c).length = wb.words := by
  cases wb <;> rfl

theorem length_flatMap_wordsOfChunk (wb : WordBits) (cs : List Chunk) :
    (cs.flatMap (wordsOfChunk wb)).length = cs.length * wb.words := by
  induction cs with
  | nil => simp
  | cons c cs ih => simp [List.flatMap_cons, length_wordsOfChunk, ih, Nat.add_mul, Nat.add_comm]

theorem fits_iff {wb : WordBits} {c : Chunk} : wb.fits c = true ↔ c.toNat < 2 ^ wb.bits := by
  unfold WordBits.fits; exact decide_eq_true_iff

theorem fits_w64 (c : Chunk) : WordBits.w64.fits c = true := fits_iff.2 c.isLt

/-- The words of a chunk list hold exactly that list. -/
theorem chunksOfWords_flatMap (wb : WordBits) (cs : List Chunk) (h : cs.all wb.fits = true) :
    chunksOfWords wb (cs.flatMap (wordsOfChunk wb)) = some cs := by
  cases wb with
  | w32 =>
    simp only [chunksOfWords, Option.some.injEq]
    induction cs with
    | nil => rfl
    | cons c cs ih =>
      simp only [List.all_cons, Bool.and_eq_true] at h
      simp only [List.flatMap_cons, wordsOfChunk, List.cons_append, List.nil_append, List.map_cons, ih h.2]
      congr 1
      have hc : c.toNat < 4294967296 := fits_iff.1 h.1
      apply BitVec.eq_of_toNat_eq
      simp
      omega
  | w64 =>
    induction cs with
    | nil => rfl
    | cons c cs ih =>
      simp only [List.all_cons, Bool.and_eq_true] at h
      simp only [List.flatMap_cons, wordsOfChunk, List.cons_append, List.nil_append, chunksOfWords]
      rw [ih h.2]
      simp only [Option.map_some, Option.some.injEq, List.cons.injEq, and_true]
      apply BitVec.eq_of_getLsbD_eq
      intro i hi
      simp only [BitVec.getLsbD_append, BitVec.getLsbD_extractLsb']
      by_cases h1 : i < 32
      · simp [h1]
      · have h2 : i - 32 < 32 := by omega
        simp only [h1, h2, if_false, decide_true, Bool.true_and]
        congr 1; omega

/-- The chunks of operand words fit, and their words are those words. -/
theorem flatMap_chunksOfWords (wb : WordBits) (ws : List Word) : ∀ cs : List Chunk,
    chunksOfWords wb ws = some cs → cs.all wb.fits = true ∧ cs.flatMap (wordsOfChunk wb) = ws := by
  induction wb, ws using chunksOfWords.induct with
  | case1 ws =>
    intro cs h
    simp only [chunksOfWords, Option.some.injEq] at h
    subst h
    constructor
    · rw [List.all_map, List.all_eq_true]
      intro w _
      have := w.isLt
      refine fits_iff.2 ?_
      simp only [BitVec.truncate_eq_setWidth, BitVec.toNat_setWidth, WordBits.bits]
      omega
    · induction ws with
      | nil => rfl
      | cons w ws ih =>
        simp only [List.map_cons, List.flatMap_cons, wordsOfChunk, List.cons_append, List.nil_append] at ih ⊢
        rw [ih]
        congr 1
        apply BitVec.eq_of_getLsbD_eq
        intro i hi
        simp [hi]
        omega
  | case2 => intro cs h; simp only [chunksOfWords, Option.some.injEq] at h; subst h; simp
  | case3 => intro cs h; simp [chunksOfWords] at h
  | case4 lo hi ws ih =>
    intro cs h
    simp only [chunksOfWords, Option.map_eq_some_iff] at h
    obtain ⟨cs', hcs', rfl⟩ := h
    obtain ⟨h1, h2⟩ := ih cs' hcs'
    simp only [List.all_cons, fits_w64, h1, Bool.and_self, List.flatMap_cons, h2, true_and]
    simp only [wordsOfChunk, List.cons_append, List.nil_append]
    congr 1
    · apply BitVec.eq_of_getLsbD_eq
      intro i hi
      simp only [BitVec.getLsbD_extractLsb', BitVec.getLsbD_append, hi, decide_true, Bool.true_and, Nat.zero_add,
        if_true]
    · congr 1
      apply BitVec.eq_of_getLsbD_eq
      intro i hi
      have h3 : ¬ 32 + i < 32 := by omega
      simp only [BitVec.getLsbD_extractLsb', BitVec.getLsbD_append, hi, h3, decide_true, Bool.true_and, if_false]
      congr 1; omega

/-- An even number of words always holds whole chunks. -/
theorem chunksOfWords_isSome (wb : WordBits) (ws : List Word) : ∀ n : Nat, ws.length = n * wb.words →
    ∃ cs, chunksOfWords wb ws = some cs ∧ cs.length = n := by
  induction wb, ws using chunksOfWords.induct with
  | case1 ws => intro n h; exact ⟨ws.map fun w => w.zeroExtend 64, by rw [chunksOfWords], by simpa [WordBits.words] using h⟩
  | case2 => intro n h; simp [WordBits.words] at h; exact ⟨[], rfl, h.symm⟩
  | case3 => intro n h; simp [WordBits.words] at h; omega
  | case4 lo hi ws ih =>
    intro n h
    simp only [List.length_cons, WordBits.words] at h
    obtain ⟨cs, hcs, hl⟩ := ih (n - 1) (by simp only [WordBits.words]; omega)
    exact ⟨(hi ++ lo : Chunk) :: cs, by simp [chunksOfWords, hcs], by simp; omega⟩

/-- The number of words and of chunks agree. -/
theorem length_chunksOfWords {wb : WordBits} {ws : List Word} {cs : List Chunk} (h : chunksOfWords wb ws = some cs) :
    ws.length = cs.length * wb.words := by
  rw [← (flatMap_chunksOfWords wb ws cs h).2, length_flatMap_wordsOfChunk]

/-- The words an operation's format asks for, by its command word's `b` field (R93). -/
theorem packetLength_of_selectRow {wb : WordBits} {cw : Word} {o : Op} (h : selectRow cw = some o) :
    packetLength wb cw =
      match o.format with
      | .z | .i | .s => 1
      | .m => 2
      | .t => 2 + wb.chunkCount (bField cw).toNat * wb.words
      | .v => 1 + (bField cw).toNat
      | .b => 2 + wb.words := by
  cases o <;> simp only [packetLength, h, Op.format]

/-- A packet of the right length is assembled by its row. -/
theorem decodePacket_of_selectRow {wb : WordBits} {cw : Word} {o : Op} {operands : List Word}
    (h : selectRow cw = some o) (hl : operands.length + 1 = packetLength wb cw) :
    decodePacket wb (cw :: operands) = assemble wb o cw operands := by
  simp only [decodePacket, h, List.length_cons, hl, if_true]

end Sys2Proof
end

