-- ==== Sys2Proof/Laws/Exec.lean ====
section
/-! SUPPORT. Everything an operation can do, by kind, so that a claim about every operation is a claim about five kinds. -/

namespace Sys2Proof.Machine

/-- The nine commands that only answer (spec/20_memory.md R69). -/
def isRead : Instr → Bool
  | .isIdle | .isAvail | .rdsr _ | .rdraw _ | .rddesc _ _ | .toMicros _ => true
  | .matchMark _ _ | .matchSpace _ _ | .matchExact _ _ => true
  | .tick _ | .start | .resume | .decode | .tryDec _ | .send _ _ _ _ | .sendRaw _ | .sendBi _ _ _ => false

/-- DECODE and TRYDEC. -/
def isDecode : Instr → Bool
  | .decode | .tryDec _ => true
  | .isIdle | .isAvail | .rdsr _ | .rdraw _ | .rddesc _ _ | .toMicros _ => false
  | .matchMark _ _ | .matchSpace _ _ | .matchExact _ _ => false
  | .tick _ | .start | .resume | .send _ _ _ _ | .sendRaw _ | .sendBi _ _ _ => false

/-- SEND, SENDRAW and SENDBI. -/
def isTransmit : Instr → Bool
  | .send _ _ _ _ | .sendRaw _ | .sendBi _ _ _ => true
  | .isIdle | .isAvail | .rdsr _ | .rdraw _ | .rddesc _ _ | .toMicros _ => false
  | .matchMark _ _ | .matchSpace _ _ | .matchExact _ _ => false
  | .tick _ | .start | .resume | .decode | .tryDec _ => false

/-- A read answers and does nothing else. -/
theorem exec_read {i : Instr} (hi : isRead i = true) (s : State) :
    ∃ st v, exec i s = .next (respond st v s) ∧ responseOk { status := st, value := v } = true := by
  cases i <;> simp only [isRead, Bool.false_eq_true] at hi <;> simp only [exec]
  case rdsr n => unfold execRdsr; split <;> exact ⟨_, _, rfl, rfl⟩
  case rdraw n => unfold execRdraw; split <;> exact ⟨_, _, rfl, rfl⟩
  case rddesc a b =>
    unfold execRddesc
    split
    · exact ⟨_, _, rfl, rfl⟩
    · split <;> exact ⟨_, _, rfl, rfl⟩
  all_goals exact ⟨_, _, rfl, rfl⟩

/-- A decode command writes the result registers and answers with the value 0. -/
theorem exec_decode {i : Instr} (hi : isDecode i = true) (s : State) :
    ∃ st df last, exec i s = .next (respond st 0 { s with df := df, last := last }) ∧ st.returned = true := by
  cases i <;> simp only [isDecode, Bool.false_eq_true] at hi <;> simp only [exec]
  case decode =>
    obtain ⟨st, df, last, h, hst, -⟩ := decodeWith_frame s.cfg.dtab (clearDF s)
    exact ⟨st, df, last, by rw [execDecode, h]; rfl, hst⟩
  case tryDec slot =>
    unfold execTryDec
    split
    · exact ⟨_, s.df, s.last, rfl, rfl⟩
    · rename_i d _
      obtain ⟨st, df, last, h, hst, -⟩ := decodeWith_frame [d] (clearDF s)
      exact ⟨st, df, last, by rw [h]; rfl, hst⟩

/-- The events `emit` appends have a positive duration. -/
theorem txEventOk_emitted {pulses : List TxEvent} : ∀ ev ∈ emitted pulses, txEventOk ev = true := by
  intro ev h
  have hp := (List.mem_filter.1 h).2
  cases ev <;> first | rfl | exact hp

/-- A transmit command appends events of positive duration to TXTRACE, writes TX_REPDEG and TX_CARRIER at most, and
answers with the value 0. -/
theorem exec_transmit {i : Instr} (hi : isTransmit i = true) (s : State) :
    ∃ st deg car evs,
      exec i s = .next (respond st 0
        { s with txRepdeg := deg, txCarrier := car, txTrace := s.txTrace ++ evs }) ∧
      st.returned = true ∧ (∀ ev ∈ evs, txEventOk ev = true) ∧
      ((∀ a b c d, i ≠ .send a b c d) → deg = s.txRepdeg ∧ car = s.txCarrier) := by
  have skip : ∀ st, exec i s = .next (raise st s) → st.returned = true →
      ∃ st deg car evs,
        exec i s = .next (respond st 0
          { s with txRepdeg := deg, txCarrier := car, txTrace := s.txTrace ++ evs }) ∧
        st.returned = true ∧ (∀ ev ∈ evs, txEventOk ev = true) ∧
        ((∀ a b c d, i ≠ .send a b c d) → deg = s.txRepdeg ∧ car = s.txCarrier) := fun st h hst =>
    ⟨st, s.txRepdeg, s.txCarrier, [], by rw [h, List.append_nil]; rfl, hst, by simp, fun _ => ⟨rfl, rfl⟩⟩
  cases i <;> simp only [isTransmit, Bool.false_eq_true] at hi
  case send slot nbits repeats chunks =>
    cases hd : s.cfg.dtab[slot.toNat]? with
    | none => exact skip .badOperand (by simp only [exec, execSend, hd]) rfl
    | some d =>
      by_cases hb : d.convention = .biphase ∨ nbits.toNat < 1 ∨ 32 * s.cfg.nwmax < nbits.toNat
      · exact skip .badOperand (by simp only [exec, execSend, hd, if_pos hb]) rfl
      · let bits := txBits s.cfg.wordBits d.bitOrder chunks nbits.toNat
        refine ⟨.ok, sendDegraded d bits 0 repeats.toNat, d.frequencyKHz,
          [.carrier d.frequencyKHz] ++ emitted (sendPulses d bits 0 repeats.toNat), ?_, rfl, ?_,
          fun h => absurd rfl (h _ _ _ _)⟩
        · simp only [exec, execSend, hd, if_neg hb, List.append_assoc, bits]
        · intro ev h
          rcases List.mem_append.1 h with h | h
          · cases List.mem_singleton.1 h; rfl
          · exact txEventOk_emitted ev h
  case sendRaw ds => exact ⟨.ok, _, _, _, rfl, rfl, txEventOk_emitted, fun _ => ⟨rfl, rfl⟩⟩
  case sendBi nbits unit cw =>
    by_cases hb : nbits.toNat < 1 ∨ s.cfg.wordBits.bits < nbits.toNat ∨ unit.toNat < 1
    · exact skip .badOperand (by simp only [exec, execSendBi, if_pos hb]) rfl
    · exact ⟨.ok, _, _, _, by rw [exec, execSendBi, if_neg hb]; rfl, rfl, txEventOk_emitted, fun _ => ⟨rfl, rfl⟩⟩

/-- Every operation is a TICK, a capture control command, a read, a decode command or a transmit command. -/
theorem instr_kind (i : Instr) :
    (∃ pin, i = .tick pin) ∨ i = .start ∨ i = .resume ∨ isRead i = true ∨ isDecode i = true ∨
      isTransmit i = true := by
  cases i <;> simp [isRead, isDecode, isTransmit]

/-- A TICK writes only capture registers. -/
theorem exec_tick (pin : Bool) (s : State) :
    ∃ st el n o m,
      exec (.tick pin) s = .next { s with capState := st, elapsed := el, len := n, ovf := o, rawbuf := m } := by
  simp only [exec, execTick]
  split
  · obtain ⟨st, el, n, o, m, h⟩ := captureTransition_frame (levelOf s.cfg pin) (satInc s.cfg.tickBits s.elapsed) s
    exact ⟨st, el, n, o, m, by rw [tickRunning, h]⟩
  · exact ⟨_, _, _, _, _, rfl⟩

/-- Everything an operation can do, by kind. -/
theorem exec_cases {i : Instr} {s t : State} (h : exec i s = .next t) :
    (∃ pin, i = .tick pin ∧ ∃ st el n o m,
      t = { s with capState := st, elapsed := el, len := n, ovf := o, rawbuf := m }) ∨
    (i = .start ∧ t = respond .ok 0 (if s.run then releaseFrame s else enableCapture s)) ∨
    (i = .resume ∧ t = respond .ok 0 (releaseFrame s)) ∨
    (isRead i = true ∧ ∃ st v, t = respond st v s ∧ responseOk { status := st, value := v } = true) ∨
    (isDecode i = true ∧ ∃ st df last, t = respond st 0 { s with df := df, last := last } ∧ st.returned = true) ∨
    (isTransmit i = true ∧ ∃ st deg car evs,
      t = respond st 0 { s with txRepdeg := deg, txCarrier := car, txTrace := s.txTrace ++ evs } ∧
      st.returned = true ∧ (∀ ev ∈ evs, txEventOk ev = true) ∧
      ((∀ a b c d, i ≠ .send a b c d) → deg = s.txRepdeg ∧ car = s.txCarrier)) := by
  rcases instr_kind i with ⟨p, rfl⟩ | rfl | rfl | hk | hk | hk
  · obtain ⟨st, el, n, o, m, h'⟩ := exec_tick p s
    rw [h'] at h; cases h
    exact .inl ⟨p, rfl, st, el, n, o, m, rfl⟩
  · cases h; exact .inr (.inl ⟨rfl, rfl⟩)
  · cases h; exact .inr (.inr (.inl ⟨rfl, rfl⟩))
  · obtain ⟨_, _, h', h2⟩ := exec_read hk s
    rw [h'] at h; cases h
    exact .inr (.inr (.inr (.inl ⟨hk, _, _, rfl, h2⟩)))
  · obtain ⟨_, _, _, h', h2⟩ := exec_decode hk s
    rw [h'] at h; cases h
    exact .inr (.inr (.inr (.inr (.inl ⟨hk, _, _, _, rfl, h2⟩))))
  · obtain ⟨_, _, _, _, h', h2⟩ := exec_transmit hk s
    rw [h'] at h; cases h
    exact .inr (.inr (.inr (.inr (.inr ⟨hk, _, _, _, _, rfl, h2⟩))))

/-- What a step of a machine with a legal configuration is. -/
theorem step_cases {s t : State} (h : step s = .next t) :
    configWf s.cfg = true ∧
      ((s.pending = [] ∧ t = s) ∨
        ∃ inp rest, s.pending = inp :: rest ∧
          ((∃ i, decodeInput s.cfg.wordBits inp = .ok i ∧ exec i { s with pending := rest } = .next t) ∨
            (∃ e ws, inp = .packet ws ∧ decodeInput s.cfg.wordBits inp = .error e ∧
              t = rejectPacket { s with pending := rest }))) := by
  unfold step at h
  split at h
  · rename_i hc
    refine ⟨hc, ?_⟩
    cases hp : s.pending with
    | nil => simp only [fetch, hp] at h; cases h; exact .inl ⟨rfl, rfl⟩
    | cons inp rest =>
      simp only [fetch, hp] at h
      refine .inr ⟨inp, rest, rfl, ?_⟩
      split at h
      · rename_i i hi; exact .inl ⟨i, hi, h⟩
      · rename_i e he
        cases h
        cases inp with
        | tick p => cases he
        | packet ws => exact .inr ⟨e, ws, rfl, he, rfl⟩
  · cases h

/-- A field predicate that holds of every operation's next state and is not about the ports' input holds of a step's
next state: the shape of every "each step keeps it" proof. -/
theorem step_preserves {Inv : State → Prop} (hpend : ∀ s rest, Inv s → Inv { s with pending := rest })
    (hreject : ∀ s, Inv s → Inv (rejectPacket s))
    (hexec : ∀ i s t, configWf s.cfg = true → Inv s → exec i s = .next t → Inv t) {s t : State} (hs : Inv s)
    (h : step s = .next t) : Inv t := by
  obtain ⟨hc, ⟨-, rfl⟩ | ⟨inp, rest, -, ⟨i, -, he⟩ | ⟨-, -, -, -, rfl⟩⟩⟩ := step_cases h
  · exact hs
  · exact hexec i { s with pending := rest } t hc (hpend s rest hs) he
  · exact hreject _ (hpend s rest hs)

/-- A run in two parts. -/
theorem runInstrs_append {is js : List Instr} {s t : State} (h : runInstrs is s = .next t) :
    runInstrs (is ++ js) s = runInstrs js t := by
  induction is generalizing s with
  | nil => cases h; rfl
  | cons i is ih =>
    simp only [List.cons_append, runInstrs] at h ⊢
    split at h
    · rename_i s' hs'; exact ih h
    · cases h
    · cases h

/-- One more operation at the end of a run. -/
theorem runInstrs_snoc {is : List Instr} {i : Instr} {s t u : State} (h : runInstrs is s = .next t)
    (hi : exec i t = .next u) : runInstrs (is ++ [i]) s = .next u := by
  rw [runInstrs_append h]
  simp only [runInstrs, hi]

end Sys2Proof.Machine
end

