-- ==== Sys2Proof/Laws/Operands.lean ====
section
/-! SUPPORT. Bits as numbers, chunks, and the runs of levels. -/

namespace Sys2Proof.Machine

/-- Bit `k` of the number is the list's element `k`. -/
theorem testBit_bitsToNat (bs : List Bool) (k : Nat) : (bitsToNat bs).testBit k = bs.getD k false := by
  induction bs generalizing k with
  | nil => simp [bitsToNat]
  | cons b bs ih =>
    cases k with
    | zero =>
      cases b <;> simp [bitsToNat, Nat.testBit_zero]
    | succ k =>
      have h : (bitsToNat (b :: bs)) / 2 = bitsToNat bs := by
        cases b <;> (simp [bitsToNat]; try omega)
      rw [Nat.testBit_succ, h, ih]
      simp

theorem bitsToNat_lt (bs : List Bool) : bitsToNat bs < 2 ^ bs.length := by
  induction bs with
  | nil => simp [bitsToNat]
  | cons b bs ih => cases b <;> simp [bitsToNat, Nat.pow_succ] <;> omega

theorem orderedNat_lt (o : BitOrder) (bs : List Bool) : orderedNat o bs < 2 ^ bs.length := by
  cases o
  · exact bitsToNat_lt bs
  · simpa [orderedNat] using bitsToNat_lt bs.reverse

/-- Bit `k` of a run of bits read in LSB-first order is the `k`-th bit received. -/
theorem testBit_orderedNat_lsb (bs : List Bool) (k : Nat) :
    (orderedNat .lsbFirst bs).testBit k = bs.getD k false := testBit_bitsToNat bs k

/-- In MSB-first order the `k`-th bit received of `n` is bit `n − 1 − k`. -/
theorem testBit_orderedNat_msb (bs : List Bool) {k : Nat} (hk : k < bs.length) :
    (orderedNat .msbFirst bs).testBit (bs.length - 1 - k) = bs.getD k false := by
  rw [orderedNat, testBit_bitsToNat]
  simp only [List.getD_eq_getElem?_getD]
  rw [List.getElem?_reverse (by omega)]
  congr 2
  omega

/-- The number of bits in chunk `j` (spec/42_decode_common.md R216). -/
theorem length_chunkBits (wb : WordBits) (c : List Bool) (j : Nat) :
    ((c.drop (j * wb.bits)).take wb.bits).length = min wb.bits (c.length - j * wb.bits) := by
  simp

theorem bits_le (wb : WordBits) : wb.bits ≤ 64 := by cases wb <;> decide

/-- A chunk holds only the bits that were received into it. -/
theorem toNat_chunkAt_lt (wb : WordBits) (o : BitOrder) (c : List Bool) (j : Nat) :
    (chunkAt wb o c j).toNat < 2 ^ min wb.bits (c.length - j * wb.bits) := by
  have h := orderedNat_lt o ((c.drop (j * wb.bits)).take wb.bits)
  rw [length_chunkBits] at h
  simp only [chunkAt, BitVec.toNat_ofNat]
  exact lt_of_le_of_lt (Nat.mod_le _ _) h

/-- A chunk as a number. -/
theorem toNat_chunkAt (wb : WordBits) (o : BitOrder) (c : List Bool) (j : Nat) :
    (chunkAt wb o c j).toNat = orderedNat o ((c.drop (j * wb.bits)).take wb.bits) := by
  have h := orderedNat_lt o ((c.drop (j * wb.bits)).take wb.bits)
  rw [length_chunkBits] at h
  have h2 : 2 ^ min wb.bits (c.length - j * wb.bits) ≤ 2 ^ 64 :=
    Nat.pow_le_pow_right (by omega) (by have := bits_le wb; omega)
  simp only [chunkAt, BitVec.toNat_ofNat]
  exact Nat.mod_eq_of_lt (by omega)

@[simp] theorem length_chunksOfBits (wb : WordBits) (o : BitOrder) (c : List Bool) :
    (chunksOfBits wb o c).length = wb.chunkCount c.length := by
  simp [chunksOfBits]

/-- Chunk `j` of the list. -/
theorem getElem_chunksOfBits (wb : WordBits) (o : BitOrder) (c : List Bool) {j : Nat}
    (h : j < (chunksOfBits wb o c).length) : (chunksOfBits wb o c)[j] = chunkAt wb o c j := by
  simp [chunksOfBits]

/-- Every chunk is a W-bit number. -/
theorem fits_of_mem_chunksOfBits {wb : WordBits} {o : BitOrder} {c : List Bool} {ch : Chunk}
    (h : ch ∈ chunksOfBits wb o c) : wb.fits ch = true := by
  simp only [chunksOfBits, List.mem_map] at h
  obtain ⟨j, -, rfl⟩ := h
  have h1 := toNat_chunkAt_lt wb o c j
  have h2 : 2 ^ min wb.bits (c.length - j * wb.bits) ≤ 2 ^ wb.bits :=
    Nat.pow_le_pow_right (by omega) (by omega)
  simp only [WordBits.fits, decide_eq_true_eq]
  omega

@[simp] theorem length_txBits (wb : WordBits) (o : BitOrder) (chunks : List Chunk) (n : Nat) :
    (txBits wb o chunks n).length = n := by
  simp [txBits]

/-- Bit `i` sent. -/
theorem getD_txBits (wb : WordBits) (o : BitOrder) (chunks : List Chunk) {n i : Nat} (h : i < n) :
    (txBits wb o chunks n).getD i false = txBit wb o chunks n i := by
  simp [txBits, h]

/-- Fields laid side by side, as a sum. -/
theorem toNat_append_add {m n : Nat} (x : BitVec m) (y : BitVec n) :
    (x ++ y).toNat = x.toNat * 2 ^ n + y.toNat := by
  rw [BitVec.toNat_append, ← Nat.shiftLeft_add_eq_or_of_lt y.isLt, Nat.shiftLeft_eq]

/-! ## The flags -/

@[simp] theorem flagIsRepeat_dfFlags (a b c d e : Bool) (o : BitOrder) : flagIsRepeat (dfFlags a b c d e o) = a := by
  cases a <;> cases b <;> cases c <;> cases d <;> cases e <;> cases o <;> rfl

@[simp] theorem flagIsAutoRepeat_dfFlags (a b c d e : Bool) (o : BitOrder) :
    flagIsAutoRepeat (dfFlags a b c d e o) = b := by
  cases a <;> cases b <;> cases c <;> cases d <;> cases e <;> cases o <;> rfl

@[simp] theorem flagParityFailed_dfFlags (a b c d e : Bool) (o : BitOrder) :
    flagParityFailed (dfFlags a b c d e o) = c := by
  cases a <;> cases b <;> cases c <;> cases d <;> cases e <;> cases o <;> rfl

@[simp] theorem flagExtraInfoPresent_dfFlags (a b c d e : Bool) (o : BitOrder) :
    flagExtraInfoPresent (dfFlags a b c d e o) = d := by
  cases a <;> cases b <;> cases c <;> cases d <;> cases e <;> cases o <;> rfl

@[simp] theorem flagOverflow_dfFlags (a b c d e : Bool) (o : BitOrder) :
    flagOverflow (dfFlags a b c d e o) = e := by
  cases a <;> cases b <;> cases c <;> cases d <;> cases e <;> cases o <;> rfl

@[simp] theorem flagBitOrder_dfFlags (a b c d e : Bool) (o : BitOrder) :
    flagBitOrder (dfFlags a b c d e o) = (o == .msbFirst) := by
  cases a <;> cases b <;> cases c <;> cases d <;> cases e <;> cases o <;> rfl

/-! ## Runs of levels -/

/-- Laid end to end, the runs are the levels. -/
theorem flatMap_runs (ls : List Level) : (runs ls).flatMap (fun r => List.replicate r.2 r.1) = ls := by
  induction ls with
  | nil => rfl
  | cons l ls ih =>
    simp only [runs]
    split
    · rename_i h; rw [h] at ih; simp only [List.flatMap_nil] at ih; subst ih; rfl
    · rename_i l' k rs h
      rw [h] at ih
      split
      · rename_i hl; subst hl; rw [← ih]; simp [List.replicate_succ]
      · rw [← ih]; rfl

/-- No two consecutive runs have the same level. -/
theorem runs_isChain (ls : List Level) : (runs ls).IsChain (fun a b => a.1 ≠ b.1) := by
  induction ls with
  | nil => exact .nil
  | cons l ls ih =>
    simp only [runs]
    split
    · exact .singleton _
    · rename_i l' k rs h
      rw [h] at ih
      split
      · rename_i hl
        subst hl
        cases rs with
        | nil => exact .singleton _
        | cons r rs => rw [List.isChain_cons_cons] at ih ⊢; exact ⟨ih.1, ih.2⟩
      · rename_i hl
        exact List.IsChain.cons_cons hl ih

/-- Every run is at least one level long. -/
theorem runs_pos {ls : List Level} {r : Level × Nat} (h : r ∈ runs ls) : 1 ≤ r.2 := by
  induction ls generalizing r with
  | nil => simp [runs] at h
  | cons l ls ih =>
    simp only [runs] at h
    split at h
    · simp only [List.mem_singleton] at h; subst h; exact le_refl _
    · rename_i l' k rs hr
      rw [hr] at ih
      split at h
      · rcases List.mem_cons.1 h with rfl | h
        · omega
        · exact ih (List.mem_cons_of_mem _ h)
      · rcases List.mem_cons.1 h with rfl | h
        · exact le_refl _
        · exact ih h

end Sys2Proof.Machine
end

