-- ==== Sys2Proof/Laws/PerInstr.lean ====
section
/-! SUPPORT. Family `EncodedRow`, one lemma per constructor: the encoding of a well-formed operation is one TICK event,
or a packet whose command word selects a row and whose length is the `L(CW)` of that word (R93, R94, R95). -/

namespace Sys2Proof.Laws

open Sys2Proof

/-- What is said of each constructor. -/
def EncodedRow.Statement (i : Instr) : Prop :=
  ∀ wb : WordBits, i.wf wb = true →
    match encode wb i with
    | .tick pin => i = .tick pin
    | .packet ws =>
      ∃ (cw : Word) (operands : List Word) (o : Op),
        ws = cw :: operands ∧ selectRow cw = some o ∧ ws.length = packetLength wb cw

/-- A packet is as the family says when its command word is a row's and its length that row's. -/
theorem encodedRow_of (wb : WordBits) (o : Op) (a : BitVec 8) (b : BitVec 16) (operands : List Word)
    (ha : o.aMustBeZero = true → a = 0) (hb : o.bMustBeZero = true → b = 0)
    (hl : operands.length + 1 =
      match o.format with
      | .z | .i | .s => 1
      | .m => 2
      | .t => 2 + wb.chunkCount b.toNat * wb.words
      | .v => 1 + b.toNat
      | .b => 2 + wb.words) :
    ∃ (cw : Word) (rest : List Word) (o' : Op),
      commandWord o.code a b :: operands = cw :: rest ∧ selectRow cw = some o' ∧
        (commandWord o.code a b :: operands).length = packetLength wb cw := by
  have h := selectRow_commandWord o a b ha hb
  exact ⟨_, _, o, rfl, h, by rw [packetLength_of_selectRow h, bField_commandWord]; exact hl⟩

theorem EncodedRow.tick (pin : Bool) : EncodedRow.Statement (.tick pin) := fun _ _ => rfl

theorem EncodedRow.start : EncodedRow.Statement .start := fun wb _ =>
  encodedRow_of wb .start 0 0 [] (fun _ => rfl) (fun _ => rfl) rfl

theorem EncodedRow.resume : EncodedRow.Statement .resume := fun wb _ =>
  encodedRow_of wb .resume 0 0 [] (fun _ => rfl) (fun _ => rfl) rfl

theorem EncodedRow.isIdle : EncodedRow.Statement .isIdle := fun wb _ =>
  encodedRow_of wb .isIdle 0 0 [] (fun _ => rfl) (fun _ => rfl) rfl

theorem EncodedRow.isAvail : EncodedRow.Statement .isAvail := fun wb _ =>
  encodedRow_of wb .isAvail 0 0 [] (fun _ => rfl) (fun _ => rfl) rfl

theorem EncodedRow.rdsr (n : BitVec 16) : EncodedRow.Statement (.rdsr n) := fun wb _ =>
  encodedRow_of wb .rdsr 0 n [] (fun _ => rfl) nofun rfl

theorem EncodedRow.rdraw (i : BitVec 16) : EncodedRow.Statement (.rdraw i) := fun wb _ =>
  encodedRow_of wb .rdraw 0 i [] (fun _ => rfl) nofun rfl

theorem EncodedRow.rddesc (slot : BitVec 8) (word : BitVec 16) : EncodedRow.Statement (.rddesc slot word) := fun wb _ =>
  encodedRow_of wb .rddesc slot word [] nofun nofun rfl

theorem EncodedRow.toMicros (t : BitVec 16) : EncodedRow.Statement (.toMicros t) := fun wb _ =>
  encodedRow_of wb .toMicros 0 t [] (fun _ => rfl) nofun rfl

theorem EncodedRow.matchMark (ticks : BitVec 16) (target : Word) : EncodedRow.Statement (.matchMark ticks target) :=
  fun wb _ => encodedRow_of wb .matchMark 0 ticks [target] (fun _ => rfl) nofun rfl

theorem EncodedRow.matchSpace (ticks : BitVec 16) (target : Word) : EncodedRow.Statement (.matchSpace ticks target) :=
  fun wb _ => encodedRow_of wb .matchSpace 0 ticks [target] (fun _ => rfl) nofun rfl

theorem EncodedRow.matchExact (ticks : BitVec 16) (target : Word) : EncodedRow.Statement (.matchExact ticks target) :=
  fun wb _ => encodedRow_of wb .matchExact 0 ticks [target] (fun _ => rfl) nofun rfl

theorem EncodedRow.decode : EncodedRow.Statement .decode := fun wb _ =>
  encodedRow_of wb .decode 0 0 [] (fun _ => rfl) (fun _ => rfl) rfl

theorem EncodedRow.tryDec (slot : BitVec 8) : EncodedRow.Statement (.tryDec slot) := fun wb _ =>
  encodedRow_of wb .tryDec slot 0 [] nofun (fun _ => rfl) rfl

theorem EncodedRow.send (slot : BitVec 8) (nbits : BitVec 16) (repeats : Word) (chunks : List Chunk) :
    EncodedRow.Statement (.send slot nbits repeats chunks) := fun wb h =>
  encodedRow_of wb .send slot nbits (repeats :: chunks.flatMap (wordsOfChunk wb)) nofun nofun (by
    simp only [Instr.wf, Bool.and_eq_true, decide_eq_true_eq] at h
    simp only [Op.format, List.length_cons, length_flatMap_wordsOfChunk, h.1]
    omega)

theorem EncodedRow.sendRaw (durations : List Word) : EncodedRow.Statement (.sendRaw durations) := fun wb h =>
  encodedRow_of wb .sendRaw 0 (BitVec.ofNat 16 durations.length) durations (fun _ => rfl) nofun (by
    simp only [Instr.wf, decide_eq_true_eq] at h
    simp only [Op.format, BitVec.toNat_ofNat, Nat.mod_eq_of_lt h]
    omega)

theorem EncodedRow.sendBi (nbits : BitVec 16) (unit : Word) (codeword : Chunk) :
    EncodedRow.Statement (.sendBi nbits unit codeword) := fun wb _ =>
  encodedRow_of wb .sendBi 0 nbits (unit :: wordsOfChunk wb codeword) (fun _ => rfl) nofun (by
    simp only [Op.format, List.length_cons, length_wordsOfChunk]
    omega)

end Sys2Proof.Laws
end

