-- ==== Sys2Proof/Laws/Reads.lean ====
section
/-! SUPPORT. Which status-register and descriptor numbers can be read (spec/10_state.md R38, R40). -/

namespace Sys2Proof.Machine

/-- Every register below 21 is readable. -/
theorem srRead_below {n : Nat} (h : n < 21) (s : State) : ∃ w, srRead n s = some w := by
  interval_cases n <;> exact ⟨_, rfl⟩

/-- From 21 on only the NWMAX words of DF_RAW32 are readable. -/
theorem srRead_above {n : Nat} (h : 21 ≤ n) (s : State) :
    srRead n s =
      if 32 ≤ n ∧ n < 32 + s.cfg.nwmax then some (rawWord s.cfg.wordBits s.df.raw (n - 32)) else none := by
  obtain ⟨m, rfl⟩ := Nat.exists_eq_add_of_le' h
  rfl

/-- A number is reserved iff no register has it. -/
theorem srRead_eq_none {n : Nat} {s : State} :
    srRead n s = none ↔ (21 ≤ n ∧ n ≤ 31) ∨ 32 + s.cfg.nwmax ≤ n := by
  by_cases h : n < 21
  · obtain ⟨w, hw⟩ := srRead_below h s
    rw [hw]
    simp only [reduceCtorEq, false_iff]
    omega
  · rw [srRead_above (by omega)]
    split <;> simp only [reduceCtorEq, true_iff, false_iff] <;> omega

/-- Word `w` of slot `k` is word `w` of its sixteen. -/
theorem dtabRead_word {c : Config} {k w : Nat} {d : Slot} (hd : c.dtab[k]? = some d) (hw : w < 16) :
    dtabRead (16 * k + w) c = (slotWords d)[w]? := by
  have h1 : (16 * k + w) / 16 = k := by omega
  have h2 : (16 * k + w) % 16 = w := by omega
  rw [dtabRead, h1, h2, hd]

/-- A slot has sixteen words. -/
@[simp] theorem length_slotWords (d : Slot) : (slotWords d).length = 16 := rfl

end Sys2Proof.Machine
end

