-- ==== Sys2Proof/Laws/Transmit.lean ====
section
/-! SUPPORT. The transmissions of SEND, the halves of SENDBI, and the chunks behind transmitted bits. -/

namespace Sys2Proof.Machine

/-- The pulses of `left + 1` transmissions from transmission `r`: a wait after every one but the last. -/
theorem sendPulses_eq (d : Slot) (t : List Bool) : ∀ left r : Nat,
    sendPulses d t r left =
      (List.range left).flatMap (fun k =>
        transmission d t (r + k) ++ [.wait (repeatWait d (transmission d t (r + k))).toNat]) ++
      transmission d t (r + left) := by
  intro left
  induction left with
  | zero => intro r; simp [sendPulses]
  | succ left ih =>
    intro r
    rw [sendPulses, ih, List.range_succ_eq_map, List.flatMap_cons, List.flatMap_map]
    simp only [Nat.add_zero, List.append_assoc]
    congr 2
    simp [Nat.add_comm, Nat.add_left_comm]

/-- A transmission is degraded iff the wait after one of those but the last is negative. -/
theorem sendDegraded_iff (d : Slot) (t : List Bool) : ∀ left r : Nat,
    sendDegraded d t r left = true ↔ ∃ k, k < left ∧ repeatWait d (transmission d t (r + k)) < 0 := by
  intro left
  induction left with
  | zero => intro r; simp [sendDegraded]
  | succ left ih =>
    intro r
    simp only [sendDegraded, Bool.or_eq_true, decide_eq_true_eq, ih]
    constructor
    · rintro (h | ⟨k, h1, h2⟩)
      · exact ⟨0, by omega, h⟩
      · exact ⟨k + 1, by omega, by rw [show r + (k + 1) = r + 1 + k by omega]; exact h2⟩
    · rintro ⟨k, h1, h2⟩
      cases k with
      | zero => exact .inl h2
      | succ k => exact .inr ⟨k, by omega, by rw [show r + 1 + k = r + (k + 1) by omega]; exact h2⟩

/-- A run of half-units is 1 or 2 long, and the first run is 1 long. -/
theorem runs_halves (bits : List Bool) :
    (∀ r ∈ runs (bits.flatMap halvesOfBit), r.2 = 1 ∨ r.2 = 2) ∧
      ∀ l k rs, runs (bits.flatMap halvesOfBit) = (l, k) :: rs → k = 1 := by
  induction bits with
  | nil => simp [runs]
  | cons b bits ih =>
    rw [List.flatMap_cons]
    cases hr : runs (bits.flatMap halvesOfBit) with
    | nil => cases b <;> simp [halvesOfBit, runs, hr]
    | cons r rs =>
      obtain ⟨l, k⟩ := r
      obtain ⟨ih1, ih2⟩ := ih
      have hk := ih2 _ _ _ hr
      subst hk
      rw [hr] at ih1
      simp only [List.mem_cons, forall_eq_or_imp] at ih1
      cases b <;> cases l <;> simp [halvesOfBit, runs, hr] <;>
        exact fun l k h => ih1.2 (l, k) h

/-- Events that all have a positive duration are all appended. -/
theorem emitted_eq_self {pulses : List TxEvent} (h : ∀ p ∈ pulses, 0 < p.micros) : emitted pulses = pulses :=
  List.filter_eq_self.2 fun p hp => decide_eq_true (h p hp)

/-- A chunk has bit `k` of its number. -/
theorem lt_chunkCount (wb : WordBits) (n j : Nat) : j < wb.chunkCount n ↔ j * wb.bits < n := by
  cases wb <;> simp only [WordBits.chunkCount, WordBits.bits] <;> omega

/-- Bit `k` of the `j`-th run of W bits. -/
theorem getD_chunkBits (wb : WordBits) (c : List Bool) {j k : Nat}
    (hk : k < min wb.bits (c.length - j * wb.bits)) :
    ((c.drop (j * wb.bits)).take wb.bits).getD k false = c.getD (j * wb.bits + k) false := by
  simp only [List.getD_eq_getElem?_getD]
  rw [List.getElem?_take_of_lt (by omega), List.getElem?_drop]

/-- Cutting the transmitted bits of a canonical codeword into chunks gives the codeword back. -/
theorem chunksOfBits_txBits {wb : WordBits} {n : Nat} {chunks : List Chunk} (o : BitOrder)
    (h : chunksCanonical wb n chunks) : chunksOfBits wb o (txBits wb o chunks n) = chunks := by
  obtain ⟨hl, hb⟩ := h
  apply List.ext_getElem
  · simp [hl]
  · intro j h1 h2
    rw [getElem_chunksOfBits]
    have hlen : ((txBits wb o chunks n).drop (j * wb.bits)).length = n - j * wb.bits := by simp
    have hnj : min wb.bits ((txBits wb o chunks n).length - j * wb.bits) = min wb.bits (n - j * wb.bits) := by simp
    have hbit : ∀ k, k < min wb.bits (n - j * wb.bits) →
        (((txBits wb o chunks n).drop (j * wb.bits)).take wb.bits).getD k false =
          txBit wb o chunks n (j * wb.bits + k) := by
      intro k hk
      rw [getD_chunkBits _ _ (by rw [hnj]; exact hk), getD_txBits _ _ _ (by omega)]
    have hdiv : ∀ k, k < wb.bits → (j * wb.bits + k) / wb.bits = j ∧ (j * wb.bits + k) % wb.bits = k := by
      intro k hk
      cases wb <;> simp only [WordBits.bits] at hk ⊢ <;> omega
    have hget : chunks.getD j 0 = chunks[j] := List.getD_eq_getElem _ _ h2
    apply BitVec.eq_of_toNat_eq
    rw [toNat_chunkAt]
    apply Nat.eq_of_testBit_eq
    intro k
    by_cases hk : k < min wb.bits (n - j * wb.bits)
    · cases o with
      | lsbFirst =>
        rw [testBit_orderedNat_lsb, hbit k hk, txBit]
        simp only [hdiv k (by omega), hget]
        rfl
      | msbFirst =>
        have hr : min wb.bits (n - j * wb.bits) - 1 - k < min wb.bits (n - j * wb.bits) := by omega
        have h3 := testBit_orderedNat_msb (((txBits wb .msbFirst chunks n).drop (j * wb.bits)).take wb.bits)
          (k := min wb.bits (n - j * wb.bits) - 1 - k) (by rw [length_chunkBits, hnj]; exact hr)
        rw [length_chunkBits, hnj, hbit _ hr, txBit] at h3
        simp only [hdiv _ (show min wb.bits (n - j * wb.bits) - 1 - k < wb.bits by omega), hget] at h3
        rw [show min wb.bits (n - j * wb.bits) - 1 - (min wb.bits (n - j * wb.bits) - 1 - k) = k by omega] at h3
        exact h3
    · rw [Nat.testBit_lt_two_pow, Nat.testBit_lt_two_pow]
      · exact lt_of_lt_of_le (hb j h2) (Nat.pow_le_pow_right (by omega) (by omega))
      · refine lt_of_lt_of_le (orderedNat_lt _ _) (Nat.pow_le_pow_right (by omega) ?_)
        rw [length_chunkBits, hnj]; omega

end Sys2Proof.Machine
end

