-- ==== Sys2Proof/Machine/Assembly.lean ====
section
/-! DEFINITION. The notation of the spec's worked examples (spec/30_encoding.md R100): an operation, and a response, as
text. Numbers are written in decimal, one of the two forms R100 allows (DESIGN CHOICE, log entry 20). -/

namespace Sys2Proof.Machine

/-- Operands "are separated by commas". -/
def commaSeparated : List Nat → String
  | [] => ""
  | [n] => Nat.repr n
  | n :: ns => Nat.repr n ++ ", " ++ commaSeparated ns

/-- A mnemonic with its operands. -/
def asmLine (mnemonic : String) (operands : List Nat) : String :=
  match operands with
  | [] => mnemonic
  | _ :: _ => mnemonic ++ " " ++ commaSeparated operands

/-- The operation as R100 writes it, its operands in that rule's order. -/
def asmText : Instr → String
  | .tick pin => asmLine "TICK" [pin.toNat]
  | .start => "START"
  | .resume => "RESUME"
  | .isIdle => "ISIDLE"
  | .isAvail => "ISAVAIL"
  | .rdsr n => asmLine "RDSR" [n.toNat]
  | .rdraw i => asmLine "RDRAW" [i.toNat]
  | .rddesc slot word => asmLine "RDDESC" [slot.toNat, word.toNat]
  | .toMicros t => asmLine "TOMICROS" [t.toNat]
  | .matchMark ticks target => asmLine "MATCHMARK" [ticks.toNat, target.toNat]
  | .matchSpace ticks target => asmLine "MATCHSPACE" [ticks.toNat, target.toNat]
  | .matchExact ticks target => asmLine "MATCHEXACT" [ticks.toNat, target.toNat]
  | .decode => "DECODE"
  | .tryDec slot => asmLine "TRYDEC" [slot.toNat]
  | .send slot nbits repeats chunks =>
    asmLine "SEND" (slot.toNat :: nbits.toNat :: repeats.toNat :: chunks.map BitVec.toNat)
  | .sendRaw durations => asmLine "SENDRAW" (durations.map BitVec.toNat)
  | .sendBi nbits unit codeword => asmLine "SENDBI" [unit.toNat, codeword.toNat, nbits.toNat]

/-- A status by its name in R330. -/
def Status.text : Status → String
  | .ok => "OK"
  | .noFrameAvailable => "NoFrameAvailable"
  | .overflow => "Overflow"
  | .decodeMismatch => "DecodeMismatch"
  | .parityFailed => "ParityFailed"
  | .classificationFailed => "ClassificationFailed"
  | .invalidRepeatConfiguration => "InvalidRepeatConfiguration"
  | .badCommand => "BadCommand"
  | .badOperand => "BadOperand"

/-- "A response is written `-> (status, value)`, with the status by name." -/
def responseText (r : Response) : String :=
  "-> (" ++ r.status.text ++ ", " ++ Nat.repr r.value.toNat ++ ")"

end Sys2Proof.Machine
end

