-- ==== Sys2Proof/Tests/Slice0.lean ====
section
/-! SUPPORT. Tests. Expected values come from the spec: the worked encodings of spec/30_encoding.md section 8 and the
vectors of spec/95_test_vectors.md, whose names (T-M-1, T-CAP-1, …) the docstrings give. Then a witness for each
statement that has hypotheses. -/

namespace Sys2Proof.Tests

open Sys2Proof Sys2Proof.Machine

/-! ## Helpers -/

/-- Slot TINY of 95 §1.1. -/
def tiny : Slot where
  headerMarkMicros := 200
  headerSpaceMicros := 200
  oneMarkMicros := 100
  zeroMarkMicros := 100
  oneSpaceMicros := 200
  zeroSpaceMicros := 100
  bitCount := 2
  bitOrder := .lsbFirst
  frequencyKHz := 38
  repeatPeriodMillis := 2
  trailerMarkMicros := some 100
  convention := .pulseDistance
  layout := .raw
  tag := 9
  repeatSignal := none
  minCommandGapMicros := 1000

/-- CFG-B of 95 §1.2. -/
def cfgB : Config where
  dt := 50
  tol := 25
  markExcess := 0
  gapTicks := 5
  rawCap := 8
  activeLow := false
  wordBits := .w32
  tickBits := 16
  nwmax := 8
  dtab := [tiny]

/-- CFG-A with 64-bit chunks. -/
def cfgA64 : Config := { Config.cfgA with wordBits := .w64 }

/-- The entries of a RawFrame as a canonical memory. -/
def frameOf (entries : List Nat) : Memory :=
  (entries.mapIdx fun i e => (i, BitVec.ofNat 16 e)).filter fun cell => decide (cell.2 ≠ 0)

/-- A running unit in a capture state, with a frame. -/
def unit (c : Config) (st : CapState) (elapsed : Nat) (entries : List Nat) : State :=
  { State.resetWith c with
    run := true
    capState := st
    elapsed := BitVec.ofNat 16 elapsed
    len := entries.length
    rawbuf := frameOf entries }

/-- The state after an operation. -/
def after (i : Instr) (s : State) : State :=
  match exec i s with
  | .next t => t
  | .fault _ | .refused _ => s

/-- The last response given. -/
def answer (i : Instr) (s : State) : Option (Status × Word) :=
  (after i s).responses.getLast?.map fun r => (r.status, r.value)

/-- The capture registers and the entry written last. -/
def cap (s : State) : CapState × Nat × Nat × Bool × Nat :=
  (s.capState, s.elapsed.toNat, s.len, s.ovf, s.entry (s.len - 1))

/-- The result registers that T-PD-1 and its kind give: SR[9] to SR[14], SR[16]. -/
def results (s : State) : List (Option Word) := [9, 10, 11, 12, 13, 14, 16].map fun n => srRead n s

/-! ## Decoding: words written out from 30 §8 and R91 to R95 -/

theorem test_decode_tick : decodeInput .w32 (.tick true) = .ok (.tick true) := by decide
theorem test_decode_start : decodePacket .w32 [0x01000000] = .ok .start := by decide
theorem test_decode_resume : decodePacket .w32 [0x02000000] = .ok .resume := by decide
theorem test_decode_isIdle : decodePacket .w32 [0x03000000] = .ok .isIdle := by decide
theorem test_decode_isAvail : decodePacket .w32 [0x04000000] = .ok .isAvail := by decide
theorem test_decode_rdsr : decodePacket .w32 [0x0500000D] = .ok (.rdsr 13) := by decide
theorem test_decode_rdraw : decodePacket .w32 [0x06000003] = .ok (.rdraw 3) := by decide
theorem test_decode_rddesc : decodePacket .w32 [0x07020006] = .ok (.rddesc 2 6) := by decide
theorem test_decode_toMicros : decodePacket .w32 [0x080000B4] = .ok (.toMicros 180) := by decide
theorem test_decode_matchMark : decodePacket .w32 [0x1000000B, 0x00000230] = .ok (.matchMark 11 560) := by decide
theorem test_decode_matchSpace : decodePacket .w32 [0x11000022, 0x0000069A] = .ok (.matchSpace 34 1690) := by decide
theorem test_decode_matchExact : decodePacket .w32 [0x1200000C, 0x000001F4] = .ok (.matchExact 12 500) := by decide
theorem test_decode_decode : decodePacket .w32 [0x20000000] = .ok .decode := by decide
theorem test_decode_tryDec : decodePacket .w32 [0x21010000] = .ok (.tryDec 1) := by decide

theorem test_decode_send : decodePacket .w32 [0x30000030, 0x00000002, 0x89ABCDEF, 0x00004567] =
    .ok (.send 0 48 2 [0x89ABCDEF, 0x4567]) := by decide

theorem test_decode_send_w64 : decodePacket .w64 [0x30000030, 0x00000002, 0x89ABCDEF, 0x00004567] =
    .ok (.send 0 48 2 [0x456789ABCDEF]) := by decide

theorem test_decode_sendRaw : decodePacket .w32 [0x31000003, 0x00002328, 0x00001194, 0x00000230] =
    .ok (.sendRaw [9000, 4500, 560]) := by decide

theorem test_decode_sendBi : decodePacket .w32 [0x3200000E, 0x00000379, 0x0000300C] =
    .ok (.sendBi 14 889 0x300C) := by decide

theorem test_decode_sendBi_w64 : decodePacket .w64 [0x3200000E, 0x00000379, 0x0000300C, 0x00000000] =
    .ok (.sendBi 14 889 0x300C) := by decide

/-- 30 §8 and T-M-7: illegal words, each rejected by name. -/
theorem test_decode_illegal :
    decodePacket .w32 [] = .error .emptyPacket ∧ decodePacket .w32 [0x21010001] = .error .noRow ∧
    decodePacket .w32 [0x09000000] = .error .noRow ∧ decodePacket .w32 [0x1000000B] = .error .wrongLength ∧
    decodePacket .w32 [0x10010000, 0x00000230] = .error .noRow ∧
    decodePacket .w32 [0x30000020, 0x00000000] = .error .wrongLength := by decide

/-- The tick port's table word is its pin, and a packet word is lengthened with zero operands. -/
theorem test_table_words :
    decodeTableWord 8 1 = some (.tick true) ∧ decodeTableWord 64 0x23000000010 = none ∧
    decodeTableWord 64 0x2301000000B = some (.matchMark 11 560) ∧
    decodeTableWord 32 0x30000020 = some (.send 0 32 0 [0]) ∧
    decodeTableWord 32 0x31000002 = some (.sendRaw [0, 0]) := by decide

/-- The encoder gives the words of 30 §8. -/
theorem test_encode :
    encode .w32 (.send 0 32 0 [0xF30CFF00]) = .packet [0x30000020, 0x00000000, 0xF30CFF00] ∧
    encode .w64 (.sendBi 14 889 0x300C) = .packet [0x3200000E, 0x00000379, 0x0000300C, 0x00000000] := by decide

/-! ## WellFormed: each check refuses an ill-formed term -/

theorem test_wf_send_chunk_count : Instr.wf .w32 (.send 0 48 0 [0]) = false := by decide
theorem test_wf_send_chunk_width : Instr.wf .w32 (.send 0 32 0 [0x100000000]) = false := by decide
theorem test_wf_sendBi_chunk_width : Instr.wf .w32 (.sendBi 14 889 0x100000000) = false := by decide

theorem test_wf_sendRaw_count : Instr.wf .w32 (.sendRaw (List.replicate 65536 0)) = false := by
  simp only [Instr.wf, List.length_replicate]; decide

/-- R3, R4, R39: configurations that are none of IRCODEC's. -/
theorem test_wf_config :
    configWf cfgB = true ∧ configWf { cfgB with dt := 0 } = false ∧ configWf { cfgB with tol := 101 } = false ∧
    configWf { cfgB with gapTicks := 65535 } = false ∧ configWf { cfgB with rawCap := 3 } = false ∧
    configWf { cfgB with tickBits := 17 } = false ∧ configWf { cfgA64 with nwmax := 1 } = false ∧
    configWf { cfgB with dtab := [{ tiny with tag := 0 }] } = false ∧
    configWf { cfgB with dtab := [{ tiny with bitCount := 0 }] } = false ∧
    configWf { cfgB with dtab := [{ tiny with oneSpaceMicros := 100 }] } = false ∧
    configWf { cfgB with dtab := [{ tiny with trailerMarkMicros := none }] } = false ∧
    configWf { cfgB with dtab := [{ tiny with layout := .acpar }] } = false ∧
    configWf { cfgB with dtab := [{ Slot.refBi with repeatSignal := some ⟨1, 1⟩ }] } = false ∧
    configWf { cfgB with dtab := [{ Slot.refPw with repeatSignal := some ⟨1, 1⟩ }] } = false := by decide

/-- 95 §1.1: the words of REF_PD, and a slot with a reserved bit set is no slot (U7). -/
theorem test_slot_words :
    slotWords .refPd = [0x00002328, 0x00001194, 0x00000230, 0x00000230, 0x0000069A, 0x00000230, 0x01060020,
      0x01006E26, 0x00000230, 0x00002328, 0x000008CA, 0x0000EA60, 0, 0, 0, 0] ∧
    slotOfWords (slotWords .refBi) = some .refBi ∧
    slotOfWords [0, 0, 0x379, 0x379, 0x379, 0x379, 0x8221000E, 0x03007224, 0, 0, 0, 0x186A0, 0, 0, 0, 0] = none := by
  decide

/-! ## One step of each operation -/

/-- T-CAP-1, TICK 6 and T-CAP-2, TICK 3: the gap test at 6 ≥ 5 and 3 < 5. -/
theorem test_tick_gap :
    cap (after (.tick true) (unit cfgB .idle 5 [])) = (.mark, 0, 1, false, 6) ∧
    cap (after (.tick true) (unit cfgB .idle 2 [])) = (.idle, 0, 0, false, 0) := by decide

/-- T-CAP-3, TICK 30: the ninth entry does not fit. -/
theorem test_tick_overflow :
    cap (after (.tick true) (unit cfgB .space 1 [10, 4, 4, 2, 2, 2, 2, 2])) = (.stop, 0, 8, true, 2) := by decide

/-- T-CAP-6: START in STOP acts as RESUME; before any START it initialises. -/
theorem test_start :
    cap (after .start (unit cfgB .stop 9 [10, 4])) = (.idle, 9, 2, false, 4) ∧
    (after .start (State.resetWith cfgB)).run = true := by decide

/-- T-CAP-5: RESUME keeps the counter and the frame. -/
theorem test_resume : cap (after .resume (unit cfgB .stop 3 [31, 4])) = (.idle, 3, 2, false, 4) := by decide

theorem test_isIdle : answer .isIdle (unit cfgB .stop 6 [6, 3]) = some (.ok, 0) := by decide
theorem test_isAvail : answer .isAvail (unit cfgB .stop 6 [6, 3]) = some (.ok, 1) := by decide

/-- T-RD-1. -/
theorem test_rdsr :
    answer (.rdsr 8) .reset = some (.ok, 0x08031000) ∧ answer (.rdsr 21) .reset = some (.badOperand, 0) ∧
    answer (.rdsr 39) .reset = some (.ok, 0) ∧ answer (.rdsr 40) .reset = some (.badOperand, 0) ∧
    answer (.rdsr 0) (unit cfgB .stop 6 [6, 3]) = some (.ok, 7) := by decide

/-- T-CAP-1. -/
theorem test_rdraw :
    answer (.rdraw 3) (unit cfgB .stop 6 [6, 3, 2, 4]) = some (.ok, 4) ∧
    answer (.rdraw 4) (unit cfgB .stop 6 [6, 3, 2, 4]) = some (.badOperand, 0) := by decide

/-- T-RD-1. -/
theorem test_rddesc :
    answer (.rddesc 2 7) .reset = some (.ok, 0x03007224) ∧ answer (.rddesc 1 11) .reset = some (.ok, 30000) ∧
    answer (.rddesc 0 16) .reset = some (.badOperand, 0) ∧ answer (.rddesc 3 0) .reset = some (.badOperand, 0) := by
  decide

/-- T-Q-1. -/
theorem test_toMicros : answer (.toMicros 65535) .reset = some (.ok, 3276750) := by decide

/-- T-M-1, T-M-2. -/
theorem test_matchMark :
    answer (.matchMark 8 560) .reset = some (.ok, 0) ∧ answer (.matchMark 9 560) .reset = some (.ok, 1) ∧
    answer (.matchMark 14 560) .reset = some (.ok, 1) ∧ answer (.matchMark 15 560) .reset = some (.ok, 0) := by decide

/-- T-M-2, T-M-3: a target below the correction, and one equal to it. -/
theorem test_matchSpace :
    answer (.matchSpace 13 560) .reset = some (.ok, 1) ∧ answer (.matchSpace 14 560) .reset = some (.ok, 0) ∧
    answer (.matchSpace 0 10) .reset = some (.ok, 0) ∧ answer (.matchSpace 0 20) .reset = some (.ok, 1) := by decide

/-- T-M-5. -/
theorem test_matchExact :
    answer (.matchExact 65535 0xFFFFFFFF) .reset = some (.ok, 0) ∧
    answer (.matchExact 65535 3276750) .reset = some (.ok, 1) := by decide

/-- The RawFrame of T-PD-1. -/
def framePd : List Nat :=
  [2001, 180, 90] ++ ((List.range 32).flatMap fun k => [11, if (0xF30CFF00 : Nat).testBit k then 34 else 11]) ++ [11]

/-- T-PD-1, the document's pulse-distance scenario. -/
theorem test_decode_pd :
    results (after .decode (unit .cfgA .stop 101 framePd)) =
      [some 0x0101, some 0, some 0x0C, some 32, some 0, some 0, some 0x0101] ∧
    srRead 32 (after .decode (unit .cfgA .stop 101 framePd)) = some 0xF30CFF00 := by decide +kernel

/-- T-PD-4: a short gap sets isAutoRepeat and no other flag; the comparison is strict. -/
theorem test_autoRepeat :
    [840, 1199, 1200].map (fun gap => srRead 13 (after .decode (unit .cfgA .stop 101 (framePd.set 0 gap)))) =
      [some 0x02, some 0x02, some 0] := by decide +kernel

/-- T-BI-1, the document's biphase scenario, phase 0. -/
theorem test_decode_bi :
    results (after .decode (unit .cfgA .stop 126 [2019, 18, 18, 35, 18, 18, 18, 18, 17, 18, 18, 18, 17, 18, 18, 18, 18,
      17, 36, 18, 17, 36, 18, 18])) =
      [some 0x0301, some 0, some 0x0C, some 13, some 0x28, some 0, some 0x0301] := by decide +kernel

/-- T-PW-1; and R206: the registers are cleared when the slot does not match. -/
theorem test_tryDec_pw :
    srRead 32 (after (.tryDec 1) (unit .cfgA .stop 101 [2001, 48, 12, 24, 12, 12, 12, 24, 12, 12, 12, 24, 12, 12, 12,
      12, 12, 24, 12, 12, 12, 12, 12, 12, 12, 12])) = some 0x095 ∧
    answer (.tryDec 0) (unit .cfgA .stop 101 [2001, 48, 12]) = some (.decodeMismatch, 0) := by decide +kernel

/-- T-PD-3 without an earlier decode, and T-CAP-3: an overflowed frame. -/
theorem test_tryDec_repeat_overflow :
    results (after (.tryDec 0) (unit .cfgA .stop 101 [2001, 180, 45, 11])) =
      [some 0x0101, some 0, some 0, some 0, some 1, some 0, some 0] ∧
    answer (.tryDec 0) { unit cfgB .stop 9 [10, 4] with ovf := true } = some (.overflow, 0) := by decide +kernel

/-- T-TX-5 with the real TINY. -/
theorem test_send :
    (after (.send 0 2 1 [1]) (State.resetWith cfgB)).txTrace =
      [.carrier 38, .mark 200, .space 200, .mark 100, .space 200, .mark 100, .space 100, .mark 100, .wait 1000,
        .mark 200, .space 200, .mark 100, .space 200, .mark 100, .space 100, .mark 100] := by decide +kernel

/-- T-TX-4: a wait that is clamped; T-TX-7: a biphase slot and zero bits. -/
theorem test_send_degraded :
    (after (.send 0 64 1 [0xFFFFFFFF, 0xFFFFFFFF]) .reset).txRepdeg = true ∧
    (after (.send 0 64 1 [0xFFFFFFFF, 0xFFFFFFFF]) .reset).txTrace.length = 135 ∧
    answer (.send 2 14 0 [0x300C]) .reset = some (.badOperand, 0) ∧
    answer (.send 0 0 0 []) .reset = some (.badOperand, 0) := by decide +kernel

/-- T-TX-6. -/
theorem test_sendRaw :
    (after (.sendRaw [500, 0, 500, 100]) .reset).txTrace = [.mark 500, .mark 500, .space 100] := by decide

/-- T-TX-8, T-TX-7. -/
theorem test_sendBi :
    (after (.sendBi 4 100 0b1101) .reset).txTrace =
      [.space 100, .mark 100, .space 100, .mark 200, .space 200, .mark 100] ∧
    answer (.sendBi 33 889 0) .reset = some (.badOperand, 0) ∧ answer (.sendBi 1 0 1) .reset = some (.badOperand, 0) := by
  decide

/-- The numbers of R330. -/
theorem test_status_codes :
    ([.ok, .noFrameAvailable, .overflow, .decodeMismatch, .parityFailed, .classificationFailed,
      .invalidRepeatConfiguration, .badCommand, .badOperand] : List Status).map (fun st => (Response.mk st 0).rw0) =
      [0x00, 0x01, 0x02, 0x03, 0x04, 0x05, 0x06, 0x80, 0x81] := by decide

/-! ## The step -/

/-- The next input is taken, an illegal packet is answered BadCommand, and a bad configuration is refused. -/
theorem test_step :
    step (State.reset.withFetchWord 32 0x01000000) = exec .start .reset ∧
    step { State.reset with pending := [.packet [0x09000000]] } =
      .next { State.reset with responses := [{ status := .badCommand, value := 0 }] } ∧
    step { State.reset with cfg := { cfgB with dt := 0 } } = .refused .badConfiguration := ⟨rfl, rfl, rfl⟩

/-- P3: the commands of the REPLAY macro. -/
theorem test_replay :
    replayCommand (unit cfgB .stop 6 [31, 4, 4, 2, 4, 2, 2, 2]) =
      some (.sendRaw [200, 200, 100, 200, 100, 100, 100]) := by decide

/-- 30 §8, the assembly column; a response of T-CAP-1. -/
theorem test_assembly :
    asmText (.sendBi 14 889 0x300C) = "SENDBI 889, 12300, 14" ∧ asmText (.rddesc 2 6) = "RDDESC 2, 6" ∧
    responseText { status := .badOperand, value := 0 } = "-> (BadOperand, 0)" := by decide +kernel

/-! ## Witnesses: for each statement with hypotheses, a state and operands that meet all of them

Where a statement has several clauses, each clause has its own, at a boundary of its range. `exec i s = .next (after i s)`
says that the operation completes there. -/

theorem witness_DecodeOfEncodeIsIdentity :
    Instr.wf .w32 (.send 255 0 0xFFFFFFFF []) = true ∧ Instr.wf .w64 (.sendBi 64 889 0xFFFFFFFFFFFFFFFF) = true := by
  decide

theorem witness_EncodeOfDecodeIsIdentity :
    decodeInput .w64 (.packet [0x30000030, 2, 0x89ABCDEF, 0x4567]) = .ok (.send 0 48 2 [0x456789ABCDEF]) := by decide

/-- No row; a row with the wrong length; a legal packet. -/
theorem witness_IllegalPacketsAnswerBadCommand :
    configWf State.reset.cfg = true ∧ selectRow 0x09000000 = none ∧
    ([0x1000000B] : List Word).length ≠ packetLength State.reset.cfg.wordBits 0x1000000B ∧
    selectRow 0x1000000B = some .matchMark ∧
    ([0x1000000B, 560] : List Word).length = packetLength State.reset.cfg.wordBits 0x1000000B := by decide

theorem witness_StepRunsDecodedInput :
    configWf State.reset.cfg = true ∧ State.reset.pending = [] ∧
    ({ State.reset with pending := [.tick true] } : State).pending = [.tick true] ∧
    decodeInput State.reset.cfg.wordBits (.tick true) = .ok (.tick true) := by decide

theorem witness_OnlyBadConfigurationsAreRefused :
    configWf ({ State.reset with cfg := { cfgB with dt := 0 } } : State).cfg = false ∧
    configWf State.reset.cfg = true := by decide

theorem witness_OneResponsePerPacket :
    (∃ t, step { State.reset with pending := [.tick true] } = .next t) ∧
    ∃ t, step { State.reset with pending := [.packet [0x04000000]] } = .next t := ⟨⟨_, rfl⟩, _, rfl⟩

theorem witness_ConfigurationIsConstant :
    ∃ t, step { State.reset with pending := [.packet [0x01000000]] } = .next t := ⟨_, rfl⟩

theorem witness_RunIsSetByStartOnly :
    exec .start .reset = .next (after .start .reset) ∧ State.reset.run = false ∧
    (unit cfgB .mark 2 [6]).run = true := ⟨rfl, rfl, rfl⟩

/-- A TICK in STOP; RESUME in STOP; the first START of a unit that is not idle. -/
theorem witness_StateLeavesStopInHostContextOnly :
    exec (.tick true) (unit cfgB .stop 6 [6, 3]) = .next (after (.tick true) (unit cfgB .stop 6 [6, 3])) ∧
    (unit cfgB .stop 6 [6, 3]).capState = .stop ∧
    (after .resume (unit cfgB .stop 6 [6, 3])).capState ≠ (unit cfgB .stop 6 [6, 3]).capState ∧
    (after .start { unit cfgB .mark 6 [6] with run := false }).capState ≠ .mark :=
  ⟨rfl, by decide, by decide, by decide⟩

theorem witness_TransmitTraceIsAppendOnly :
    exec (.sendRaw [500]) .reset = .next (after (.sendRaw [500]) .reset) ∧
    (after (.sendRaw [500]) .reset).txTrace = State.reset.txTrace ++ [.mark 500] := ⟨rfl, by decide⟩

/-- Each listed value at a boundary, and an unlisted one of each command. -/
theorem witness_BadOperandExactlyWhenListed :
    (BadOperandCondition .reset (.rdsr 21) ∧ BadOperandCondition .reset (.rdsr 31) ∧
      BadOperandCondition .reset (.rdsr 40) ∧ BadOperandCondition .reset (.rdraw 0) ∧
      BadOperandCondition .reset (.rddesc 3 0) ∧ BadOperandCondition .reset (.rddesc 0 16) ∧
      BadOperandCondition .reset (.tryDec 3) ∧ BadOperandCondition .reset (.send 3 1 0 [0]) ∧
      BadOperandCondition .reset (.send 2 14 0 [0]) ∧ BadOperandCondition .reset (.send 0 0 0 []) ∧
      BadOperandCondition .reset (.send 0 257 0 []) ∧ BadOperandCondition .reset (.sendBi 0 1 0) ∧
      BadOperandCondition .reset (.sendBi 33 1 0) ∧ BadOperandCondition .reset (.sendBi 1 0 0)) ∧
    ¬ BadOperandCondition .reset (.rdsr 20) ∧ ¬ BadOperandCondition .reset (.rdsr 39) ∧
    ¬ BadOperandCondition .reset (.rddesc 2 15) ∧ ¬ BadOperandCondition .reset (.tryDec 2) ∧
    ¬ BadOperandCondition .reset (.sendBi 32 1 0) ∧
    exec (.rdsr 20) .reset = .next (after (.rdsr 20) .reset) ∧
    (after (.rdsr 20) .reset).responses = State.reset.responses ++ [{ status := .ok, value := 0 }] := by
  refine ⟨?_, ?_, ?_, ?_, ?_, ?_, rfl, by decide⟩
  · refine ⟨?_, ?_, ?_, ?_, ?_, ?_, ?_, ?_, .inr (.inl ⟨.refBi, rfl, rfl⟩), .inr (.inr (.inl ?_)), .inr (.inr (.inr ?_)),
      ?_, ?_, ?_⟩
    · simp only [BadOperandCondition]; decide
    · simp only [BadOperandCondition]; decide
    · simp only [BadOperandCondition]; decide
    · simp only [BadOperandCondition]; decide
    · simp only [BadOperandCondition]; decide
    · simp only [BadOperandCondition]; decide
    · simp only [BadOperandCondition]; decide
    · exact .inl (by decide)
    all_goals first
      | decide
      | (simp only [BadOperandCondition]; decide)
  all_goals simp only [BadOperandCondition]; decide

theorem witness_ReadsAndMatchesChangeNothing :
    exec (.matchExact 12 500) .reset = .next (after (.matchExact 12 500) .reset) := rfl

/-- A TICK that stores, at 0 and at `len`, and one that does not. -/
theorem witness_TickWritesOnlyCapture :
    Memory.wf (unit cfgB .mark 2 [6]).rawbuf = true ∧ tickStoreIndex true (unit cfgB .idle 4 []) = some 0 ∧
    tickStoreIndex true (unit cfgB .idle 3 []) = none ∧ tickStoreIndex false (unit cfgB .mark 2 [6]) = some 1 ∧
    exec (.tick false) (unit cfgB .mark 2 [6]) = .next (after (.tick false) (unit cfgB .mark 2 [6])) :=
  ⟨by decide, by decide, by decide, by decide, rfl⟩

theorem witness_ControlAndDecodeFrames :
    exec .resume (unit cfgB .stop 6 [6, 3]) = .next (after .resume (unit cfgB .stop 6 [6, 3])) ∧
    exec .decode (unit cfgB .stop 6 [6, 3]) = .next (after .decode (unit cfgB .stop 6 [6, 3])) := ⟨rfl, rfl⟩

theorem witness_TransmitFrames :
    exec (.send 0 2 0 [1]) (State.resetWith cfgB) = .next (after (.send 0 2 0 [1]) (State.resetWith cfgB)) ∧
    exec (.sendBi 1 100 1) .reset = .next (after (.sendBi 1 100 1) .reset) := ⟨rfl, rfl⟩

theorem witness_TransmitCommutesWithTick : ∃ a b c, Instr.sendBi 1 100 1 = .sendBi a b c := ⟨_, _, _, rfl⟩

/-- Two states that do differ. -/
theorem witness_UnwrittenEntriesNeverObserved :
    let s := { unit cfgB .mark 2 [6] with pending := [.tick false] }
    let t := { s with rawbuf := [(0, 6), (5, 77)] }
    SameButUnwritten s t ∧ s ≠ t ∧ Memory.wf s.rawbuf = true ∧ Memory.wf t.rawbuf = true ∧
      ∃ s', step s = .next s' := by
  refine ⟨⟨rfl, ?_⟩, by decide, by decide, by decide, _, rfl⟩
  intro i hi
  have h : i = 0 := by
    have : i < 1 := hi
    omega
  subst h
  decide

/-- A frame of two entries in SPACE, from which a Mark pushes. -/
theorem witness_StepKeepsCaptureInvariant :
    CaptureInv { unit cfgB .space 3 [6, 2] with pending := [.tick true] } ∧
    ∃ t, step { unit cfgB .space 3 [6, 2] with pending := [.tick true] } = .next t := by
  have he : ∀ i, State.entry { unit cfgB .space 3 [6, 2] with pending := [.tick true] } i =
      if i = 0 then 6 else if i = 1 then 2 else 0 := by
    intro i
    match i with
    | 0 => rfl
    | 1 => rfl
    | i + 2 => rfl
  refine ⟨⟨by decide, ?_, ?_, by decide, by decide, ?_, ?_, ?_, ?_, ?_⟩, _, rfl⟩
  · decide
  · intro i
    rw [he, show tickMax _ = 65535 from rfl]
    split
    · omega
    · split <;> omega
  · exact ⟨by decide, by decide, by decide, by decide⟩
  · intro h
    exact absurd h (by decide)
  · intro _
    exact (by decide : 5 ≤ 6)
  · intro i h1 h2
    have h3 : i = 1 := by
      have : i < 2 := h2
      omega
    subst h3
    decide
  · intro i h1 h2
    have : i < 2 := h2
    omega

/-- A state with a valid full result, on which DECODE mismatches. -/
theorem witness_StepKeepsResultInvariant :
    let d : DecodedFrame :=
      { valid := true, tag := 9, addr := 0, cmd := 0, nbits := 2, flags := 0, extra := 0, raw := [1] }
    let s := { unit cfgB .stop 6 [6, 3] with
      df := d, last := { valid := true, tag := 9, addr := 0, cmd := 0 }, pending := [.packet [0x20000000]] }
    ResultInv s ∧ ∃ t, step s = .next t := by
  refine ⟨⟨by decide, ?_, nofun, fun _ => ⟨tiny, by decide, by decide, by decide⟩, fun _ => by decide, ?_,
    fun _ _ => by decide, nofun⟩, _, rfl⟩
  · intro ch h
    rw [List.mem_singleton.1 h]
    exact fits_iff.2 (show 1 < 2 ^ 32 by norm_num)
  intro h
  exact absurd h (by decide)

theorem witness_StepKeepsPortInvariant :
    let s := { State.reset with
      txTrace := [.mark 1], responses := [{ status := .ok, value := 7 }], pending := [.packet [0x31000001, 500]] }
    PortInv s ∧ ∃ t, step s = .next t := ⟨⟨by decide, by decide⟩, _, rfl⟩

/-- The common hypotheses, and the condition of each of the twelve rows at its boundary. -/
theorem witness_TickFollowsTransitionTable :
    let e (s : State) := min (s.elapsed.toNat + 1) (2 ^ s.cfg.tickBits - 1)
    let full : List Nat := [10, 4, 4, 2, 2, 2, 2, 2]
    (unit cfgB .idle 4 []).run = true ∧ Memory.wf (unit cfgB .mark 2 full).rawbuf = true ∧ cfgB.tickBits ≤ 16 ∧
    xor false cfgB.activeLow = false ∧ xor true cfgB.activeLow = true ∧
    cfgB.gapTicks ≤ e (unit cfgB .idle 4 []) ∧ e (unit cfgB .idle 3 []) < cfgB.gapTicks ∧
    (unit cfgB .mark 2 (full.take 7)).len < cfgB.rawCap ∧ (unit cfgB .mark 2 full).len = cfgB.rawCap ∧
    (unit cfgB .space 2 (full.take 7)).len < cfgB.rawCap ∧ (unit cfgB .space 2 full).len = cfgB.rawCap ∧
    cfgB.gapTicks < e (unit cfgB .space 5 full) ∧ e (unit cfgB .space 4 full) ≤ cfgB.gapTicks ∧
    (unit cfgB .stop 4 full).capState = .stop ∧ (after .resume (unit cfgB .stop 4 full)).capState ≠ .stop := by decide

/-- The shortest and the longest recordable duration. -/
theorem witness_RecordedDurationIsSampleCount :
    configWf cfgB = true ∧ Memory.wf (unit cfgB .mark 0 [6]).rawbuf = true ∧ (unit cfgB .mark 0 [6]).run = true ∧
    (unit cfgB .mark 0 [6]).elapsed = 0 ∧ (unit cfgB .space 0 [6, 3]).len < cfgB.rawCap ∧
    (unit cfgB .mark 0 [6]).capState = .mark ∧ (unit cfgB .space 0 [6, 3]).capState = .space ∧ 1 ≤ 1 ∧
    1 ≤ cfgB.gapTicks + 1 ∧ cfgB.gapTicks + 1 ≤ cfgB.gapTicks + 1 := by decide

theorem witness_FrameEndsAfterGap :
    configWf cfgB = true ∧ (unit cfgB .space 0 [6, 3]).run = true ∧ (unit cfgB .space 0 [6, 3]).capState = .space ∧
    (unit cfgB .space 0 [6, 3]).elapsed = 0 ∧ 5 ≤ cfgB.gapTicks ∧ 6 = cfgB.gapTicks + 1 := by decide

theorem witness_StopHoldsTheFrame : (unit cfgB .stop 6 [6, 3]).capState = .stop := rfl

theorem witness_StartAndResume :
    State.reset.run = false ∧ (unit cfgB .stop 6 [6, 3]).run = true ∧ (unit cfgB .stop 6 [6, 3]).capState = .stop := by
  decide

/-- The first, the last and a reserved-side boundary of each range, for both widths, and the sizes of n = 8 and 15. -/
theorem witness_StatusRegisterMap :
    configWf cfgB = true ∧ (unit cfgB .stop 6 [6, 3]).len ≤ cfgB.rawCap ∧ (0 : BitVec 16).toNat ≤ 20 ∧
    (20 : BitVec 16).toNat ≤ 20 ∧ 32 ≤ (32 : BitVec 16).toNat ∧ (39 : BitVec 16).toNat < 32 + cfgB.nwmax ∧
    cfgB.nwmax ≤ 255 ∧ cfgB.wordBits = .w32 ∧ configWf cfgA64 = true ∧ cfgA64.wordBits = .w64 ∧
    (38 : BitVec 16).toNat % 2 = 0 ∧ (39 : BitVec 16).toNat % 2 = 1 ∧ (39 : BitVec 16).toNat < 32 + cfgA64.nwmax ∧
    cfgB.wordBits.chunkCount (unit cfgB .stop 6 [6, 3]).df.nbits.toNat * cfgB.wordBits.words ≤ 255 := by decide

theorem witness_RdrawReturnsEntry :
    (1 : BitVec 16).toNat < (unit cfgB .stop 6 [6, 3]).len ∧ (unit cfgB .stop 6 [6, 3]).len ≤ (2 : BitVec 16).toNat := by
  decide

/-- A slot with and one without a repeat signal, at the first, the last and a reserved word. -/
theorem witness_RddescReturnsDescriptorWord :
    State.reset.cfg.dtab[(0 : BitVec 8).toNat]? = some .refPd ∧ Slot.refPd.repeatSignal = some ⟨9000, 2250⟩ ∧
    State.reset.cfg.dtab[(2 : BitVec 8).toNat]? = some .refBi ∧ Slot.refBi.repeatSignal = none ∧
    (15 : BitVec 16).toNat ≤ 15 ∧ 12 ≤ (12 : BitVec 16).toNat := by decide

theorem witness_ToMicrosIsExact : configWf State.reset.cfg = true := by decide

theorem witness_MatcherTickBoundaries :
    configWf Config.cfgA = true ∧ 0 < 580 ∧ Config.cfgA.dt = 50 ∧ Config.cfgA.tol = 25 ∧
    Config.cfgA.markExcess = 20 := by decide

/-- Just below the correction, and equal to it. -/
theorem witness_SpaceTargetBelowCorrection :
    configWf Config.cfgA = true ∧ 19 < Config.cfgA.markExcess ∧ 20 = Config.cfgA.markExcess := by decide

/-- Three bits in one chunk: the last bit, and the first unused position. -/
theorem witness_ChunkBitPlacement :
    0 < (chunksOfBits .w32 .lsbFirst [true, false, true]).length ∧
    2 < min WordBits.w32.bits (3 - 0 * WordBits.w32.bits) ∧ min WordBits.w32.bits (3 - 0 * WordBits.w32.bits) ≤ 3 ∧
    0 < (chunksOfBits .w64 .msbFirst [true, false, true]).length := by decide

/-- The last bit of the last chunk of a 48-bit codeword. -/
theorem witness_TxBitsInvertChunks :
    1 < ([0x89ABCDEF, 0x4567] : List Chunk).length ∧ 15 < min WordBits.w32.bits (48 - 1 * WordBits.w32.bits) := by
  decide

theorem witness_FieldIsWeightedSum : 1 + 2 ≤ ([true, false, true] : List Bool).length := by decide

/-- The RawFrame of T-PD-1 with the space of the first bit long: a 1 in the address that its complement does not
mirror. -/
def framePdParity : List Nat := framePd.set 4 34

/-- For its first clause: the frame decodes and its parity fails. -/
theorem witness_LayoutsCutFields_parity :
    let s := unit .cfgA .stop 101 framePdParity
    s.capState = .stop ∧ s.ovf = false ∧ s.cfg.dtab[(0 : BitVec 8).toNat]? = some .refPd ∧
    Slot.refPd.layout = .acpar ∧ isRepeatFrame .refPd s = false ∧
    ∃ c f, conventionBits .refPd s = some c ∧ layoutFields .refPd c = some f ∧ f.parityFailed = true ∧
      f.addr = 1 := by
  refine ⟨rfl, rfl, by decide, rfl, by decide, (List.range 32).map (0xF30CFF01 : Nat).testBit, ?_⟩
  exact ⟨acparFields .lsbFirst ((List.range 32).map (0xF30CFF01 : Nat).testBit), by decide +kernel, rfl,
    by decide +kernel, by decide +kernel⟩

theorem witness_LayoutsCutFields :
    tiny.layout = .raw ∧ Slot.refPd.layout = .acpar ∧ (List.replicate 32 true).length = 32 ∧
    Slot.refBi.layout = .rc5 ∧ (List.replicate 13 true).length = 13 ∧ (List.replicate 13 true).getD 0 false = true ∧
    (List.replicate 13 false).getD 0 false = false := by decide

/-- A frame of two output bits whose last half-unit is no entry (R274), decoded alike in both bit orders; one with an
entry left over (R277, T-BI-5's kind); and one with a cell of equal halves. -/
theorem test_biBits :
    let d := { Slot.refBi with bitCount := 3, layout := .raw }
    biBits d (unit .cfgA .stop 126 [2019, 18, 17, 36]) = some [true, false] ∧
    biBits { d with bitOrder := .lsbFirst } (unit .cfgA .stop 126 [2019, 18, 17, 36]) = some [true, false] ∧
    biBits d (unit .cfgA .stop 126 [2019, 18, 17, 36, 17, 18]) = none ∧
    biBits d (unit .cfgA .stop 126 [2019, 18, 35, 18]) = none := by decide

/-- 54 ticks are three half-units of REF_BI's mark. -/
theorem witness_WidthThreeNeverDecodes :
    1 ≤ 1 ∧ 1 < (unit .cfgA .stop 126 [2019, 54, 18]).len ∧
    entryWidth Config.cfgA (halfUnit .refBi) (entryLevel 1) ((unit .cfgA .stop 126 [2019, 54, 18]).entry 1) =
      some 3 := by decide

/-- T-PD-3. -/
theorem witness_RepeatFrameCopiesLast :
    let s := unit .cfgA .stop 101 [840, 180, 45, 11]
    s.capState = .stop ∧ s.ovf = false ∧ s.cfg.dtab[(0 : BitVec 8).toNat]? = some .refPd ∧
    Slot.refPd.repeatSignal = some ⟨9000, 2250⟩ ∧ Slot.refPd.trailerMarkMicros = some 560 ∧ s.len = 4 ∧
    matchMark s.cfg (s.entry 1) 9000 = true ∧ matchSpace s.cfg (s.entry 2) 2250 = true ∧
    matchMark s.cfg (s.entry 3) 560 = true := by decide

/-- T-CAP-4: the frame of the codeword 1 for TINY. -/
def frameTiny : State := unit cfgB .stop 6 [31, 4, 4, 2, 4, 2, 2, 2]

theorem witness_FullDecodeWritesResult :
    frameTiny.capState = .stop ∧ frameTiny.ovf = false ∧ frameTiny.cfg.dtab[(0 : BitVec 8).toNat]? = some tiny ∧
    isRepeatFrame tiny frameTiny = false ∧ conventionBits tiny frameTiny = some [true, false] ∧
    layoutFields tiny [true, false] = some rawFields := by decide

/-- The only slot decodes; and, on another frame, the only slot mismatches. -/
theorem witness_DecodeTakesFirstMatchingSlot :
    (frameTiny.cfg.dtab = [] ++ tiny :: [] ∧ ∃ t, tryDecode tiny (clearDF frameTiny) = some t) ∧
    ∀ p ∈ (unit cfgB .stop 6 [6, 3]).cfg.dtab, tryDecode p (clearDF (unit cfgB .stop 6 [6, 3])) = none := by
  refine ⟨⟨rfl, _, rfl⟩, ?_⟩
  intro p hp
  have h : p = tiny := by simpa [unit, State.resetWith, cfgB] using hp
  subst h
  decide

theorem witness_DecodeIsTryDecInOrder :
    configWf frameTiny.cfg = true ∧ frameTiny.capState = .stop ∧ frameTiny.ovf = false ∧
    exec .decode frameTiny = .next (after .decode frameTiny) := ⟨by decide, rfl, rfl, rfl⟩

theorem witness_DecodeChecksAvailabilityThenOverflow :
    (0 : BitVec 8).toNat < State.reset.cfg.ndec ∧ State.reset.capState ≠ .stop ∧
    ({ frameTiny with ovf := true } : State).capState = .stop ∧ ({ frameTiny with ovf := true } : State).ovf = true := by
  decide

theorem witness_LastWrittenOnlyByFullDecode :
    exec .decode frameTiny = .next (after .decode frameTiny) ∧ (after .decode frameTiny).last ≠ frameTiny.last :=
  ⟨rfl, by decide⟩

theorem witness_DecodeIsIdempotent :
    exec .decode frameTiny = .next (after .decode frameTiny) ∧
    (after .decode frameTiny).responses = frameTiny.responses ++ [{ status := .ok, value := 0 }] := ⟨rfl, by decide⟩

/-- One bit and the most bits CFG-B allows. -/
theorem witness_SendAppendsTransmissions :
    cfgB.dtab[(0 : BitVec 8).toNat]? = some tiny ∧ tiny.convention ≠ .biphase ∧ 1 ≤ (1 : BitVec 16).toNat ∧
    (256 : BitVec 16).toNat ≤ 32 * cfgB.nwmax := by decide

theorem witness_SendBiSendsCoalescedHalves :
    1 ≤ (1 : BitVec 16).toNat ∧ (32 : BitVec 16).toNat ≤ cfgB.wordBits.bits ∧ 1 ≤ (1 : Word).toNat := by decide

/-- T-TX-5's codeword 1 of TINY, and the frame of T-CAP-4 that it gives. -/
theorem witness_SendThenTryDecRoundTrip :
    let pulses : List TxEvent := [.mark 200, .space 200, .mark 100, .space 200, .mark 100, .space 100, .mark 100]
    configWf cfgB = true ∧ frameTiny.cfg = cfgB ∧ cfgB.dtab[(0 : BitVec 8).toNat]? = some tiny ∧
    tiny.convention ≠ .biphase ∧ chunksCanonical cfgB.wordBits tiny.bitCount.toNat [1] ∧ tiny.layout ≠ .rc5 ∧
    exec (.send 0 tiny.bitCount 0 [1]) (State.resetWith cfgB) =
      .next (after (.send 0 tiny.bitCount 0 [1]) (State.resetWith cfgB)) ∧
    (after (.send 0 tiny.bitCount 0 [1]) (State.resetWith cfgB)).txTrace = [] ++ .carrier 38 :: pulses ∧
    FrameAccepted (recordedPulses pulses) frameTiny ∧
    txBits cfgB.wordBits tiny.bitOrder [1] tiny.bitCount.toNat = [true, false] ∧
    matchSpace cfgB (frameTiny.entry (4 + 2 * 1)) tiny.oneSpaceMicros.toNat = false := by
  exact ⟨by decide, rfl, by decide, by decide, ⟨by decide, by decide⟩, by decide, rfl, by decide,
    ⟨by decide, by decide⟩, by decide, by decide⟩

/-- A biphase slot of two output bits, the codeword 110, and the frame it gives. -/
theorem witness_SendBiThenTryDecRoundTrip :
    let d := { Slot.refBi with bitCount := 3, layout := .raw }
    let r := unit { Config.cfgA with dtab := [d] } .stop 126 [2019, 18, 17, 36]
    let rs := recordedRuns (runs ((biBitsToSend 0b110 3).flatMap halvesOfBit))
    configWf r.cfg = true ∧ r.cfg.dtab[(0 : BitVec 8).toNat]? = some d ∧ d.convention = .biphase ∧
    d.bitOrder = .msbFirst ∧ d.bitCount.toNat ≤ r.cfg.wordBits.bits ∧
    (0b110 : Chunk).getLsbD (d.bitCount.toNat - 1) = true ∧ d.layout ≠ .rc5 ∧ r.capState = .stop ∧ r.ovf = false ∧
    rs = [(.mark, 1), (.space, 1), (.mark, 2)] ∧ RunsRecorded (halfUnit d) rs r := by
  exact ⟨by decide, by decide, rfl, rfl, by decide, by decide, by decide, rfl, rfl, by decide, ⟨by decide, by decide⟩⟩

end Sys2Proof.Tests
end

/-! PROOFS. The statements about which configurations are IRCODEC's (spec/00_scope.md R3, R4; spec/10_state.md R39) and
about the invariants at reset (R42). -/

namespace Sys2Proof.Proofs

open Sys2Proof Sys2Proof.Machine

/-! ## When a step is refused -/

/-- No operation stops the machine (R331): each kind of operation answers a next state. -/
theorem exec_answers (i : Instr) (s : State) : ∃ t, exec i s = .next t := by
  rcases instr_kind i with ⟨pin, rfl⟩ | rfl | rfl | hread | hdecode | htransmit
  · exact ⟨_, rfl⟩
  · exact ⟨_, rfl⟩
  · exact ⟨_, rfl⟩
  · obtain ⟨st, v, h, -⟩ := exec_read hread s
    exact ⟨_, h⟩
  · obtain ⟨st, df, last, h, -⟩ := exec_decode hdecode s
    exact ⟨_, h⟩
  · obtain ⟨st, deg, car, evs, h, -⟩ := exec_transmit htransmit s
    exact ⟨_, h⟩

theorem step_of_not_configWf {s : State} (hc : configWf s.cfg = false) :
    step s = .refused .badConfiguration := by
  simp [step, hc]

theorem step_of_no_input {s : State} (hc : configWf s.cfg = true) (hp : s.pending = []) : step s = .next s := by
  simp [step, fetch, hc, hp]

theorem step_of_operation {s : State} {inp : PortInput} {rest : List PortInput} {i : Instr}
    (hc : configWf s.cfg = true) (hp : s.pending = inp :: rest) (hi : decodeInput s.cfg.wordBits inp = .ok i) :
    step s = exec i { s with pending := rest } := by
  simp [step, fetch, hc, hp, hi]

theorem step_of_illegal_packet {s : State} {inp : PortInput} {rest : List PortInput} {e : DecodeError}
    (hc : configWf s.cfg = true) (hp : s.pending = inp :: rest) (he : decodeInput s.cfg.wordBits inp = .error e) :
    step s = .next (rejectPacket { s with pending := rest }) := by
  simp [step, fetch, hc, hp, he]

theorem step_answers_of_configWf {s : State} (hc : configWf s.cfg = true) : ∃ t, step s = .next t := by
  cases hp : s.pending with
  | nil => exact ⟨s, step_of_no_input hc hp⟩
  | cons inp rest =>
    cases hd : decodeInput s.cfg.wordBits inp with
    | ok i => rw [step_of_operation hc hp hd]; exact exec_answers i _
    | error e => exact ⟨_, step_of_illegal_packet hc hp hd⟩

/-- Settles O8: the configuration check is the step's only refusal, and no branch behind it stops the machine. -/
theorem onlyBadConfigurationsAreRefused : Obligations.OnlyBadConfigurationsAreRefused :=
  fun _ => ⟨step_of_not_configWf, step_answers_of_configWf⟩

/-! ## The invariants at reset -/

/-- No entry is listed at reset, so each reads as `Memory.unlisted` (log entry 5). -/
@[simp] theorem resetWith_entry (c : Config) (i : Nat) : (State.resetWith c).entry i = 0 := rfl

/-- No bits need no chunk, at either width of a chunk (R215). -/
@[simp] theorem chunkCount_zero (wb : WordBits) : wb.chunkCount 0 = 0 := by
  cases wb <;> rfl

/-- At reset the frame is empty, so what is said of its entries holds of none. -/
theorem captureInv_resetWith (c : Config) : CaptureInv (State.resetWith c) where
  memory_wf := rfl
  indices_below_cap := by simp
  entries_fit i := by simp
  elapsed_fits := by simp
  len_le_cap := by simp
  phase := by simp [phaseOk]
  not_running _ := ⟨rfl, rfl, rfl, rfl⟩
  leading_gap hlen := by simp at hlen
  recorded_pos i _ hi := by simp at hi
  recorded_spaces i _ hi := by simp at hi

/-- At reset the result registers are cleared and not valid. -/
theorem resultInv_resetWith (c : Config) : ResultInv (State.resetWith c) where
  raw_length := (chunkCount_zero c.wordBits).symm
  raw_fits := by simp [DecodedFrame.cleared]
  invalid_clear _ := .inl rfl
  valid_slot hvalid := by simp [DecodedFrame.cleared] at hvalid
  valid_no_overflow hvalid := by simp [DecodedFrame.cleared] at hvalid
  repeat_empty hrepeat := by simp [DecodedFrame.cleared, flagIsRepeat] at hrepeat
  full_in_last hvalid := by simp [DecodedFrame.cleared] at hvalid
  last_clear _ := rfl

/-- At reset no event has been sent and no response given. -/
theorem portInv_resetWith (c : Config) : PortInv (State.resetWith c) where
  trace_ok := by simp
  responses_ok := by simp

/-- The slots of CFG-A are well-formed (R39), and its scalars are in the ranges of R3. -/
theorem configWf_cfgA : configWf Config.cfgA = true := by decide

/-- Settles O22: every register the invariants speak of is at its reset value. -/
theorem resetHasInvariants : Obligations.ResetHasInvariants :=
  ⟨fun c => ⟨captureInv_resetWith c, resultInv_resetWith c, portInv_resetWith c⟩, configWf_cfgA⟩

end Sys2Proof.Proofs

/-! PROOFS. The statements about the state: what every step keeps of the capture, result and port registers
(spec/10_state.md R22 to R35), what an unwritten RawFrame entry can influence (R25), the values after reset (R42), and the
register and descriptor words (R38, R40). -/

namespace Sys2Proof.Proofs

open Sys2Proof Sys2Proof.Machine

/-! ## The invariant of the capture registers -/

/-- The invariant speaks of the configuration and the capture registers alone. -/
theorem captureInv_update {s : State} (hs : CaptureInv s) (df : DecodedFrame) (last : LastDecode) (deg : Bool)
    (car : BitVec 8) (trace : List TxEvent) (resp : List Response) (pend : List PortInput) :
    CaptureInv { s with
      df := df, last := last, txRepdeg := deg, txCarrier := car, txTrace := trace, responses := resp
      pending := pend } :=
  ⟨hs.memory_wf, hs.indices_below_cap, hs.entries_fit, hs.elapsed_fits, hs.len_le_cap, hs.phase, hs.not_running,
    hs.leading_gap, hs.recorded_pos, hs.recorded_spaces⟩

theorem captureInv_respond {s : State} (hs : CaptureInv s) (st : Status) (v : Word) :
    CaptureInv (respond st v s) :=
  captureInv_update hs ..

/-- On a running unit the state, the counter and `ovf` may change as long as the new state's phase holds. -/
theorem captureInv_phase {s : State} (hs : CaptureInv s) (hrun : s.run = true) {st : CapState} {e : Entry} {o : Bool}
    (hfits : e.toNat ≤ tickMax s.cfg) (hphase : phaseOk { s with capState := st, elapsed := e, ovf := o }) :
    CaptureInv { s with capState := st, elapsed := e, ovf := o } where
  memory_wf := hs.memory_wf
  indices_below_cap := hs.indices_below_cap
  entries_fit := hs.entries_fit
  elapsed_fits := hfits
  len_le_cap := hs.len_le_cap
  phase := hphase
  not_running h := by simp [hrun] at h
  leading_gap := hs.leading_gap
  recorded_pos := hs.recorded_pos
  recorded_spaces := hs.recorded_spaces

/-- The counter may move while the state stays, as long as a space inside a frame has not ended it (R158). -/
theorem captureInv_elapsed {s : State} (hs : CaptureInv s) (hrun : s.run = true) {e : Entry}
    (hfits : e.toNat ≤ tickMax s.cfg) (hgap : s.capState = .space → e.toNat ≤ s.cfg.gapTicks) :
    CaptureInv { s with elapsed := e } := by
  refine captureInv_phase hs hrun hfits ?_
  have hphase := hs.phase
  cases hst : s.capState <;> simp only [phaseOk, hst] at hphase ⊢
  case space =>
    obtain ⟨heven, htwo, hovf, -⟩ := hphase
    exact ⟨heven, htwo, hovf, hgap hst⟩
  all_goals exact hphase

/-- R158: a space longer than GAP_TICKS completes the frame. -/
theorem captureInv_frameEnd {s : State} (hs : CaptureInv s) (hrun : s.run = true) (hspace : s.capState = .space)
    {e : Entry} (hfits : e.toNat ≤ tickMax s.cfg) : CaptureInv { s with elapsed := e, capState := .stop } := by
  refine captureInv_phase hs hrun hfits ?_
  have hphase := hs.phase
  simp only [phaseOk, hspace] at hphase ⊢
  obtain ⟨heven, htwo, hovf, -⟩ := hphase
  simpa [hovf] using ⟨heven, htwo⟩

/-- R160: a push that finds the frame full. -/
theorem captureInv_overflowFrame {s : State} (hs : CaptureInv s) (hrun : s.run = true)
    (hfull : s.cfg.rawCap ≤ s.len) : CaptureInv (overflowFrame s) :=
  captureInv_phase hs hrun (by simp) (by simpa [phaseOk] using Nat.le_antisymm hs.len_le_cap hfull)

/-- RESUME leaves the completed frame in place (R168), so what STOP says of it still holds in IDLE. -/
theorem captureInv_releaseFrame {s : State} (hs : CaptureInv s) : CaptureInv (releaseFrame s) := by
  by_cases hstop : s.capState = .stop
  · rw [releaseFrame_eq, if_pos hstop]
    have hrun : s.run = true := by
      by_contra hoff
      obtain ⟨hidle, -⟩ := hs.not_running (by simpa using hoff)
      simp [hidle] at hstop
    refine captureInv_phase hs hrun hs.elapsed_fits ?_
    have hphase := hs.phase
    cases hovf : s.ovf <;> simp only [phaseOk, hstop, hovf] at hphase ⊢
    · exact hphase.1
    · exact hphase
  · rw [releaseFrame_eq, if_neg hstop]
    exact hs

/-- What a store of a TICK_BITS-bit count below RAW_CAP keeps of RAWBUF (R25, R61). -/
theorem captureInv_write {s : State} (hs : CaptureInv s) {a : Nat} (ha : a < s.cfg.rawCap) {e : Entry}
    (hfits : e.toNat ≤ tickMax s.cfg) :
    Memory.wf (Memory.write s.rawbuf a e) = true ∧
      (∀ cell ∈ Memory.write s.rawbuf a e, cell.1 < s.cfg.rawCap) ∧
      ∀ i, (Memory.read (Memory.write s.rawbuf a e) i).toNat ≤ tickMax s.cfg := by
  refine ⟨Memory.write_wf a e hs.memory_wf, fun cell hcell => ?_, fun i => ?_⟩
  · rcases Memory.mem_write hcell with rfl | hold
    · exact ha
    · exact hs.indices_below_cap cell hold
  · rw [entry_write hs.memory_wf]
    split
    · exact hfits
    · exact hs.entries_fit i

/-- R153: the first entry of a frame is a leading gap that passed the test. -/
theorem captureInv_startFrame {s : State} (hs : CaptureInv s) (hrun : s.run = true) (hcap : 1 ≤ s.cfg.rawCap)
    {e : Entry} (hfits : e.toNat ≤ tickMax s.cfg) (hgap : s.cfg.gapTicks ≤ e.toNat) :
    CaptureInv (startFrame e s) := by
  obtain ⟨hwf, hbelow, hentries⟩ := captureInv_write hs hcap hfits
  exact {
    memory_wf := hwf
    indices_below_cap := hbelow
    entries_fit := hentries
    elapsed_fits := by simp
    len_le_cap := hcap
    phase := by simp [phaseOk]
    not_running := fun h => by simp [hrun] at h
    leading_gap := fun _ => by
      simpa only [State.entry, startFrame_rawbuf, startFrame_cfg, entry_write hs.memory_wf, if_true] using hgap
    recorded_pos := fun i h1 hlt => by simp at hlt; omega
    recorded_spaces := fun i h2 hlt => by simp at hlt; omega }

/-- R156, R157: a push into an open frame. It stores a mark at an odd index and a space at an even one, which is what
the parity of `len` says, or finds no room (R160). -/
theorem captureInv_pushEntry {s : State} (hs : CaptureInv s) (hrun : s.run = true) {e : Entry} {next : CapState}
    (hopen : 1 ≤ s.len) (hovf : s.ovf = false) (hpos : 1 ≤ e.toNat) (hfits : e.toNat ≤ tickMax s.cfg)
    (hnext : (next = .space ∧ s.len % 2 = 1) ∨ (next = .mark ∧ s.len % 2 = 0 ∧ e.toNat ≤ s.cfg.gapTicks + 1)) :
    CaptureInv (pushEntry e next s) := by
  rcases pushEntry_cases e next s with ⟨hroom, hpush⟩ | ⟨hfull, hpush⟩ <;> rw [hpush]
  · obtain ⟨hwf, hbelow, hentries⟩ := captureInv_write hs hroom hfits
    have hentry : ∀ i, (Memory.read (Memory.write s.rawbuf s.len e) i).toNat =
        if i = s.len then e.toNat else s.entry i := entry_write hs.memory_wf s.len e
    exact {
      memory_wf := hwf
      indices_below_cap := hbelow
      entries_fit := hentries
      elapsed_fits := by simp
      len_le_cap := hroom
      phase := by
        rcases hnext with ⟨rfl, hodd⟩ | ⟨rfl, heven, -⟩ <;> simp only [phaseOk]
        · exact ⟨by omega, by omega, hovf, by simp⟩
        · exact ⟨by omega, hovf⟩
      not_running := fun h => by simp [hrun] at h
      leading_gap := fun _ => by
        rw [State.entry, hentry, if_neg (by omega)]
        exact hs.leading_gap hopen
      recorded_pos := fun i h1 hlt => by
        rw [State.entry, hentry]
        split
        · exact hpos
        · exact hs.recorded_pos i h1 (by simp at hlt; omega)
      recorded_spaces := fun i h2 hlt heven => by
        rw [State.entry, hentry]
        split
        · show e.toNat ≤ s.cfg.gapTicks + 1
          omega
        · exact hs.recorded_spaces i h2 (by simp at hlt; omega) heven }
  · exact captureInv_overflowFrame hs hrun hfull

/-- The increment of R152 adds at most one. -/
theorem satInc_le_succ (tickBits : Nat) (e : Entry) : (satInc tickBits e).toNat ≤ e.toNat + 1 := by
  simp only [satInc, BitVec.toNat_ofNat]
  exact (Nat.mod_le _ _).trans (Nat.min_le_left _ _)

/-- Each of the rows of R161 keeps the invariant. -/
theorem captureInv_tickRunning {s : State} (hc : configWf s.cfg = true) (hs : CaptureInv s) (hrun : s.run = true)
    (pin : Bool) : CaptureInv (tickRunning pin s) := by
  obtain ⟨-, -, -, ⟨hbits, hbits16⟩, -, ⟨hcap, -⟩, -, -⟩ := ranges_of_configWf hc
  have hpos := satInc_pos (by omega) hbits16 s.elapsed
  have hfits := satInc_le s.cfg s.elapsed
  have hsucc := satInc_le_succ s.cfg.tickBits s.elapsed
  have hphase := hs.phase
  unfold tickRunning
  rcases captureTransition_cases (levelOf s.cfg pin) (satInc s.cfg.tickBits s.elapsed) s with
    ⟨hspace, -, h⟩ | ⟨hst, -, h⟩ | ⟨-, -, hgap, h⟩ | ⟨hmark, -, h⟩ | ⟨hspace, -, h⟩ | ⟨hspace, -, -, h⟩ <;> rw [h]
  · exact captureInv_elapsed hs hrun hfits fun hst => (hspace hst).2
  · exact captureInv_elapsed hs hrun (by simp) (by simp)
  · exact captureInv_startFrame hs hrun (by omega) hfits hgap
  · simp only [phaseOk, hmark] at hphase
    obtain ⟨hodd, hovf⟩ := hphase
    exact captureInv_pushEntry hs hrun (by omega) hovf hpos hfits (.inl ⟨rfl, hodd⟩)
  · simp only [phaseOk, hspace] at hphase
    obtain ⟨heven, htwo, hovf, hgap⟩ := hphase
    exact captureInv_pushEntry hs hrun (by omega) hovf hpos hfits (.inr ⟨rfl, heven, by omega⟩)
  · exact captureInv_frameEnd hs hrun hspace hfits

/-- R167: the first START empties the frame. -/
theorem captureInv_enableCapture {s : State} (hs : CaptureInv s) : CaptureInv (enableCapture s) where
  memory_wf := hs.memory_wf
  indices_below_cap := hs.indices_below_cap
  entries_fit := hs.entries_fit
  elapsed_fits := by simp
  len_le_cap := by simp
  phase := by simp [phaseOk]
  not_running h := by simp at h
  leading_gap h := by simp at h
  recorded_pos i _ h := by simp at h
  recorded_spaces i _ h := by simp at h

/-- TICK, START and RESUME keep it by the lemmas above; the other operations write no capture register. -/
theorem captureInv_exec {i : Instr} {s t : State} (hc : configWf s.cfg = true) (hs : CaptureInv s)
    (h : exec i s = .next t) : CaptureInv t := by
  rcases exec_cases h with ⟨pin, rfl, -⟩ | ⟨-, rfl⟩ | ⟨-, rfl⟩ | ⟨-, st, v, rfl, -⟩ |
    ⟨-, st, df, last, rfl, -⟩ | ⟨-, st, deg, car, evs, rfl, -⟩
  · cases hrun : s.run <;> simp only [exec, execTick, hrun] at h <;> cases h
    · exact hs
    · exact captureInv_tickRunning hc hs hrun pin
  · apply captureInv_respond
    split
    · exact captureInv_releaseFrame hs
    · exact captureInv_enableCapture hs
  · exact captureInv_respond (captureInv_releaseFrame hs) ..
  · exact captureInv_respond hs ..
  · exact captureInv_update hs ..
  · exact captureInv_update hs ..

/-- Settles O23: every operation keeps the invariant, and taking an input or rejecting a packet writes no capture
register. -/
theorem stepKeepsCaptureInvariant : Obligations.StepKeepsCaptureInvariant := fun _ _ hs h =>
  step_preserves (Inv := CaptureInv) (fun _ _ hs => captureInv_update hs ..) (fun _ hs => captureInv_respond hs ..)
    (fun _ _ _ => captureInv_exec) hs h

/-! ## The invariant of the result registers -/

/-- The invariant speaks of the configuration and the result registers alone. -/
theorem resultInv_congr {s t : State} (hs : ResultInv s) (hcfg : t.cfg = s.cfg) (hdf : t.df = s.df)
    (hlast : t.last = s.last) : ResultInv t where
  raw_length := by rw [hdf, hcfg]; exact hs.raw_length
  raw_fits := by rw [hdf, hcfg]; exact hs.raw_fits
  invalid_clear := by rw [hdf]; exact hs.invalid_clear
  valid_slot := by rw [hdf, hcfg]; exact hs.valid_slot
  valid_no_overflow := by rw [hdf]; exact hs.valid_no_overflow
  repeat_empty := by rw [hdf]; exact hs.repeat_empty
  full_in_last := by rw [hdf, hlast]; exact hs.full_in_last
  last_clear := by rw [hlast]; exact hs.last_clear

theorem resultInv_respond {s : State} (hs : ResultInv s) (st : Status) (v : Word) : ResultInv (respond st v s) :=
  resultInv_congr hs rfl rfl rfl

/-- A result that is not valid has no bits, and at most the overflow flag (R206, R213). -/
theorem resultInv_invalid {s : State} (hs : ResultInv s) {flags : BitVec 6} (hflags : flags = 0 ∨ flags = overflowFlags) :
    ResultInv { s with df := { DecodedFrame.cleared with flags := flags } } where
  raw_length := (chunkCount_zero s.cfg.wordBits).symm
  raw_fits := by simp [DecodedFrame.cleared]
  invalid_clear _ := by
    rcases hflags with rfl | rfl
    · exact .inl rfl
    · exact .inr rfl
  valid_slot hvalid := by simp [DecodedFrame.cleared] at hvalid
  valid_no_overflow hvalid := by simp [DecodedFrame.cleared] at hvalid
  repeat_empty hrepeat := by
    rcases hflags with rfl | rfl
    · simp [flagIsRepeat] at hrepeat
    · simp [overflowFlags] at hrepeat
  full_in_last hvalid := by simp [DecodedFrame.cleared] at hvalid
  last_clear := hs.last_clear

theorem resultInv_clearDF {s : State} (hs : ResultInv s) : ResultInv (clearDF s) :=
  resultInv_invalid hs (.inl rfl)

/-- The bit-order flag of a result is the slot's bit (R30, R37). -/
theorem flagBitOrder_of_slot (a b c d e : Bool) (o : BitOrder) :
    flagBitOrder (dfFlags a b c d e o) = bitOrderBit o := by
  rw [flagBitOrder_dfFlags]
  cases o <;> rfl

/-- R208: a repeat result carries its slot's tag and no bits. -/
theorem resultInv_writeRepeatResult {s : State} (hs : ResultInv s) {d : Slot} (hd : d ∈ s.cfg.dtab) :
    ResultInv (writeRepeatResult d s) where
  raw_length := (chunkCount_zero s.cfg.wordBits).symm
  raw_fits := by simp
  invalid_clear hvalid := by simp at hvalid
  valid_slot _ := ⟨d, hd, rfl, flagBitOrder_of_slot ..⟩
  valid_no_overflow _ := flagOverflow_dfFlags ..
  repeat_empty _ := ⟨rfl, rfl, rfl, flagIsAutoRepeat_dfFlags .., flagParityFailed_dfFlags ..⟩
  full_in_last _ hfull := by simp at hfull
  last_clear := hs.last_clear

/-- R210 to R212: a full result carries its slot's tag, the chunks of its bits, and stands in the LAST registers. -/
theorem resultInv_writeFullResult {s : State} {d : Slot} (hd : d ∈ s.cfg.dtab) {c : List Bool}
    (hlen : c.length < 2 ^ 16) (f : LayoutFields) : ResultInv (writeFullResult d c f s) where
  raw_length := by
    rw [writeFullResult_df, writeFullResult_cfg, length_chunksOfBits, BitVec.toNat_ofNat, Nat.mod_eq_of_lt hlen]
  raw_fits _ hch := fits_of_mem_chunksOfBits hch
  invalid_clear hvalid := by simp at hvalid
  valid_slot _ := ⟨d, hd, rfl, flagBitOrder_of_slot ..⟩
  valid_no_overflow _ := flagOverflow_dfFlags ..
  repeat_empty hrepeat := by simp at hrepeat
  full_in_last _ _ := rfl
  last_clear hvalid := by simp at hvalid

/-- A decoder attempt by one of the configuration's slots keeps the invariant. -/
theorem resultInv_tryDecode {s t : State} (hs : ResultInv s) {d : Slot} (hd : d ∈ s.cfg.dtab)
    (h : tryDecode d s = some t) : ResultInv t := by
  rcases tryDecode_eq_some h with ⟨-, rfl⟩ | ⟨-, c, f, hc, -, rfl⟩
  · exact resultInv_writeRepeatResult hs hd
  · exact resultInv_writeFullResult hd (length_conventionBits_lt hc) f

/-- Each of the four ends of a decode command (R203, R213) keeps the invariant. -/
theorem resultInv_decodeWith {s : State} (hs : ResultInv s) {slots : List Slot} (hslots : ∀ d ∈ slots, d ∈ s.cfg.dtab) :
    ResultInv (decodeWith slots (clearDF s)) := by
  have hclear := resultInv_clearDF hs
  rcases decodeWith_cases slots (clearDF s) with ⟨-, h⟩ | ⟨-, -, h⟩ | ⟨-, -, -, h⟩ | ⟨-, -, t, ht, h⟩ <;> rw [h]
  · exact resultInv_respond hclear ..
  · exact resultInv_respond (resultInv_invalid hclear (.inr rfl)) ..
  · exact resultInv_respond hclear ..
  · obtain ⟨before, d, after, rfl, -, hd⟩ := firstDecode_eq_some.1 ht
    exact resultInv_respond (resultInv_tryDecode hclear (hslots d (by simp)) hd) ..

/-- DECODE tries the slots of the table and TRYDEC one of them (R201, R202). -/
theorem resultInv_exec_decode {i : Instr} {s t : State} (hs : ResultInv s) (hi : isDecode i = true)
    (h : exec i s = .next t) : ResultInv t := by
  cases i <;> simp only [isDecode, Bool.false_eq_true] at hi
  case decode =>
    cases h
    exact resultInv_decodeWith hs fun _ hd => hd
  case tryDec slot =>
    cases hd : s.cfg.dtab[slot.toNat]? with
    | none =>
      simp only [exec, execTryDec, hd] at h
      cases h
      exact resultInv_respond hs ..
    | some d =>
      simp only [exec, execTryDec, hd] at h
      cases h
      exact resultInv_decodeWith hs (by simpa using List.mem_of_getElem? hd)

/-- The operations other than the decode commands write no result register. -/
theorem resultInv_exec {i : Instr} {s t : State} (hs : ResultInv s) (h : exec i s = .next t) : ResultInv t := by
  rcases exec_cases h with ⟨pin, -, st, el, n, o, m, rfl⟩ | ⟨-, rfl⟩ | ⟨-, rfl⟩ | ⟨-, st, v, rfl, -⟩ |
    ⟨hdecode, -⟩ | ⟨-, st, deg, car, evs, rfl, -⟩
  · exact resultInv_congr hs rfl rfl rfl
  · apply resultInv_respond
    split
    · exact resultInv_congr hs (releaseFrame_cfg s) (releaseFrame_df s) (releaseFrame_last s)
    · exact resultInv_congr hs rfl rfl rfl
  · exact resultInv_congr hs (releaseFrame_cfg s) (releaseFrame_df s) (releaseFrame_last s)
  · exact resultInv_respond hs ..
  · exact resultInv_exec_decode hs hdecode h
  · exact resultInv_congr hs rfl rfl rfl

/-- Settles O24: every operation keeps the invariant, and taking an input or rejecting a packet writes no result
register. -/
theorem stepKeepsResultInvariant : Obligations.StepKeepsResultInvariant := fun _ _ hs h =>
  step_preserves (Inv := ResultInv) (fun _ _ hs => resultInv_congr hs rfl rfl rfl)
    (fun _ hs => resultInv_respond hs ..) (fun _ _ _ _ => resultInv_exec) hs h

/-! ## Unwritten RawFrame entries -/

/-- The state with another RAWBUF. -/
abbrev withRawbuf (m : Memory) (s : State) : State := { s with rawbuf := m }


/-- Two memories read the same below `n`. -/
def AgreeBelow (n : Nat) (m m' : Memory) : Prop := ∀ i, i < n → Memory.read m i = Memory.read m' i

theorem sameButUnwritten_iff {s t : State} :
    SameButUnwritten s t ↔ ∃ m, t = withRawbuf m s ∧ AgreeBelow s.len s.rawbuf m := by
  constructor
  · rintro ⟨ht, hread⟩
    exact ⟨t.rawbuf, ht, hread⟩
  · rintro ⟨m, rfl, hread⟩
    exact ⟨rfl, hread⟩

/-- A store of the same value at the same index, into memories that agree below it and in the entries kept. -/
theorem agreeBelow_write {n k a : Nat} {m m' : Memory} (hwf : Memory.wf m = true) (hwf' : Memory.wf m' = true)
    (hagree : AgreeBelow n m m') (v : Entry) (hk : ∀ i, i < k → i < n ∨ i = a) :
    AgreeBelow k (Memory.write m a v) (Memory.write m' a v) := by
  intro i hi
  rw [Memory.read_write a v i (lo := none) hwf, Memory.read_write a v i (lo := none) hwf']
  split
  · rfl
  · exact hagree i ((hk i hi).resolve_right ‹_›)

/-! ### The decoders read below `len` -/

/-- The bit-loop asks only for the bits of its range. -/
theorem collectBits_congr {f g : Nat → Option Bool} : ∀ {n k : Nat}, (∀ j, k ≤ j → j < k + n → f j = g j) →
    collectBits f k n = collectBits g k n := by
  intro n
  induction n with
  | zero => intros; rfl
  | succ n ih =>
    intro k h
    rw [collectBits, collectBits, h k (by omega) (by omega), ih fun j h1 h2 => h j (by omega) (by omega)]

section
variable {s : State} {m : Memory} (hm : AgreeBelow s.len s.rawbuf m)
include hm

theorem entry_withRawbuf {i : Nat} (hi : i < s.len) : (withRawbuf m s).entry i = s.entry i :=
  congrArg BitVec.toNat (hm i hi).symm

theorem headerMatches_withRawbuf (d : Slot) (hlen : 2 < s.len) :
    headerMatches d (withRawbuf m s) = headerMatches d s := by
  simp only [headerMatches, entry_withRawbuf hm (show 1 < s.len by omega), entry_withRawbuf hm hlen]

theorem pdBits_withRawbuf (d : Slot) : pdBits d (withRawbuf m s) = pdBits d s := by
  by_cases hlen : s.len = 2 * d.bitCount.toNat + 4
  · have hentry : ∀ i, i < 2 * d.bitCount.toNat + 4 → (withRawbuf m s).entry i = s.entry i :=
      fun i hi => entry_withRawbuf hm (by omega)
    have hbits : collectBits (pdBit d (withRawbuf m s)) 0 d.bitCount.toNat =
        collectBits (pdBit d s) 0 d.bitCount.toNat :=
      collectBits_congr fun j _ hj => by
        simp only [pdBit, hentry (3 + 2 * j) (by omega), hentry (4 + 2 * j) (by omega)]
    simp only [pdBits, headerMatches_withRawbuf hm d (by omega), hbits,
      hentry (3 + 2 * d.bitCount.toNat) (by omega)]
  · simp only [pdBits, ne_eq, hlen, not_false_eq_true, if_true]

/-- Without a trailer the last bit has no space (R256), so its index `len` is not read; that the header is inside the
frame needs a bit to be there (R39 item 2). -/
theorem pwBits_withRawbuf (d : Slot) (hbit : 1 ≤ d.bitCount.toNat) : pwBits d (withRawbuf m s) = pwBits d s := by
  by_cases hlen : s.len = pwLength d
  · have hlen' := hlen
    unfold pwLength at hlen'
    have hmark : ∀ j, j < d.bitCount.toNat → (withRawbuf m s).entry (3 + 2 * j) = s.entry (3 + 2 * j) :=
      fun j hj => entry_withRawbuf hm (by split at hlen' <;> omega)
    have hspace : ∀ j, j < d.bitCount.toNat → pwSpacePresent d j = true →
        (withRawbuf m s).entry (4 + 2 * j) = s.entry (4 + 2 * j) := fun j hj hp => by
      simp only [pwSpacePresent, Bool.or_eq_true, decide_eq_true_eq] at hp
      refine entry_withRawbuf hm ?_
      rcases hp with hp | hp
      · split at hlen' <;> omega
      · rw [if_pos hp] at hlen'
        omega
    have hbits : collectBits (pwBit d (withRawbuf m s)) 0 d.bitCount.toNat =
        collectBits (pwBit d s) 0 d.bitCount.toNat :=
      collectBits_congr fun j _ hj => by
        cases hp : pwSpacePresent d j
        · simp only [pwBit, pwMark, hmark j (by omega), hp, Bool.false_and]
        · simp only [pwBit, pwMark, hmark j (by omega), hspace j (by omega) hp]
    have htrailer : hasTrailer d = true →
        (withRawbuf m s).entry (3 + 2 * d.bitCount.toNat) = s.entry (3 + 2 * d.bitCount.toNat) := fun ht =>
      entry_withRawbuf hm (by rw [if_pos ht] at hlen'; omega)
    have hheader := headerMatches_withRawbuf hm d (by split at hlen' <;> omega)
    cases ht : hasTrailer d
    · simp only [pwBits, hheader, hbits, ht, Bool.false_and]
    · simp only [pwBits, hheader, hbits, htrailer ht]
  · simp only [pwBits, ne_eq, hlen, not_false_eq_true, if_true]

/-- The biphase cursor reads its entry only inside the frame (R274). -/
theorem nextHalf_withRawbuf (d : Slot) (cur : Cursor) : nextHalf d (withRawbuf m s) cur = nextHalf d s cur := by
  by_cases hend : s.len ≤ cur.off
  · rw [nextHalf_past_end hend, nextHalf_past_end (by exact hend)]
  · simp only [nextHalf, entry_withRawbuf hm (show cur.off < s.len by omega)]

theorem biCells_withRawbuf (d : Slot) : ∀ (n : Nat) (cur : Cursor),
    biCells d (withRawbuf m s) n cur = biCells d s n cur := by
  intro n
  induction n with
  | zero => intro cur; rfl
  | succ n ih => intro cur; simp only [biCells, nextHalf_withRawbuf hm, ih]

theorem biBits_withRawbuf (d : Slot) : biBits d (withRawbuf m s) = biBits d s := by
  simp only [biBits, nextHalf_withRawbuf hm, biCells_withRawbuf hm]

theorem conventionBits_withRawbuf {d : Slot} (hbit : 1 ≤ d.bitCount.toNat) :
    conventionBits d (withRawbuf m s) = conventionBits d s := by
  cases hconv : d.convention <;> simp only [conventionBits, hconv]
  · exact pdBits_withRawbuf hm d
  · exact pwBits_withRawbuf hm d hbit
  · exact biBits_withRawbuf hm d

/-- A repeat frame has four entries, and entries 1 to 3 are read (R208). -/
theorem isRepeatFrame_withRawbuf (d : Slot) : isRepeatFrame d (withRawbuf m s) = isRepeatFrame d s := by
  by_cases hlen : s.len = 4
  · have hentry : ∀ i, i < 4 → (withRawbuf m s).entry i = s.entry i := fun i hi => entry_withRawbuf hm (by omega)
    simp only [isRepeatFrame, hentry 1 (by omega), hentry 2 (by omega),
      hentry 3 (by omega)]
  · simp only [isRepeatFrame, hlen, decide_false, Bool.false_and]

end

/-- A frame that gives bits is not empty, so its leading gap is a written entry (R209). -/
theorem len_pos_of_conventionBits {d : Slot} {s : State} {c : List Bool} (h : conventionBits d s = some c) :
    0 < s.len := by
  by_contra hzero
  have hzero : s.len = 0 := by omega
  cases hconv : d.convention <;> simp only [conventionBits, hconv] at h
  · simp [pdBits, hzero] at h
  · have : 0 ≠ pwLength d := by unfold pwLength; split <;> omega
    simp [pwBits, hzero, this] at h
  · simp [biBits, hzero] at h

/-- The bit count of a slot that R39 admits is positive (item 2). -/
theorem one_le_bitCount {nwmax : Nat} {d : Slot} (h : slotWf nwmax d = true) : 1 ≤ d.bitCount.toNat := by
  simp only [slotWf, Bool.and_eq_true] at h
  obtain ⟨⟨⟨⟨-, hbits⟩, -⟩, -⟩, -⟩ := h
  unfold bitCountOk at hbits
  split at hbits <;> simp only [decide_eq_true_eq] at hbits <;> omega

section
variable {s : State} {m : Memory} (hm : AgreeBelow s.len s.rawbuf m)
include hm

theorem tryDecode_withRawbuf {d : Slot} (hbit : 1 ≤ d.bitCount.toNat) :
    tryDecode d (withRawbuf m s) = (tryDecode d s).map (withRawbuf m) := by
  simp only [tryDecode, isRepeatFrame_withRawbuf hm, conventionBits_withRawbuf hm hbit]
  cases isRepeatFrame d s with
  | true => rfl
  | false =>
    cases hc : conventionBits d s with
    | none => rfl
    | some c =>
      cases hf : layoutFields d c with
      | none => simp [hf]
      | some f =>
        have hgap := entry_withRawbuf hm (len_pos_of_conventionBits hc)
        simp [hf, writeFullResult, autoRepeat, hgap]

theorem firstDecode_withRawbuf : ∀ {slots : List Slot}, (∀ d ∈ slots, 1 ≤ d.bitCount.toNat) →
    firstDecode slots (withRawbuf m s) = (firstDecode slots s).map (withRawbuf m) := by
  intro slots
  induction slots with
  | nil => intro; rfl
  | cons d ds ih =>
    intro hbits
    simp only [firstDecode, tryDecode_withRawbuf hm (hbits d (by simp)), ih fun e he => hbits e (by simp [he])]
    cases tryDecode d s <;> rfl

theorem decodeWith_withRawbuf {slots : List Slot} (hbits : ∀ d ∈ slots, 1 ≤ d.bitCount.toNat) :
    decodeWith slots (withRawbuf m s) = withRawbuf m (decodeWith slots s) := by
  simp only [decodeWith, firstDecode_withRawbuf hm hbits]
  split
  · rfl
  · split
    · rfl
    · cases firstDecode slots s <;> rfl

end

/-! ### The operations -/

/-- RDRAW answers an entry only below `len` (R172); no other read looks at RAWBUF. -/
theorem exec_read_withRawbuf {i : Instr} {s t : State} {m : Memory} (hm : AgreeBelow s.len s.rawbuf m)
    (hi : isRead i = true) (h : exec i s = .next t) : exec i (withRawbuf m s) = .next (withRawbuf m t) := by
  cases i <;> simp only [isRead, Bool.false_eq_true] at hi
  case rdsr n =>
    have hread : srRead n.toNat (withRawbuf m s) = srRead n.toNat s := rfl
    simp only [exec, execRdsr, hread] at h ⊢
    split at h <;> cases h <;> rfl
  case rdraw n =>
    simp only [exec, execRdraw] at h ⊢
    split at h
    · cases h
      rw [if_pos ‹_›]
      rfl
    · cases h
      rw [if_neg ‹_›, ← hm n.toNat (by omega)]
      rfl
  case rddesc slot word =>
    simp only [exec, execRddesc] at h ⊢
    split at h
    · cases h
      rw [if_pos ‹_›]
      rfl
    · rw [if_neg ‹_›]
      split at h <;> cases h <;> rfl
  all_goals cases h; rfl

theorem exec_decode_withRawbuf {i : Instr} {s t : State} {m : Memory} (hm : AgreeBelow s.len s.rawbuf m)
    (hc : configWf s.cfg = true) (hi : isDecode i = true) (h : exec i s = .next t) :
    exec i (withRawbuf m s) = .next (withRawbuf m t) := by
  have hbits : ∀ d ∈ s.cfg.dtab, 1 ≤ d.bitCount.toNat := fun d hd => one_le_bitCount (slotWf_of_configWf hc hd)
  have hclear : clearDF (withRawbuf m s) = withRawbuf m (clearDF s) := rfl
  cases i <;> simp only [isDecode, Bool.false_eq_true] at hi
  case decode =>
    cases h
    simp only [exec, execDecode, hclear]
    rw [decodeWith_withRawbuf (s := clearDF s) hm hbits]
  case tryDec slot =>
    simp only [exec, execTryDec] at h ⊢
    cases hd : s.cfg.dtab[slot.toNat]? with
    | none =>
      simp only [hd] at h
      cases h
      rfl
    | some d =>
      simp only [hd] at h
      cases h
      simp only [hclear]
      rw [decodeWith_withRawbuf (s := clearDF s) hm (by simpa using hbits d (List.mem_of_getElem? hd))]

/-- The transmit commands read the configuration alone. -/
theorem exec_transmit_withRawbuf {i : Instr} {s t : State} (m : Memory) (hi : isTransmit i = true)
    (h : exec i s = .next t) : exec i (withRawbuf m s) = .next (withRawbuf m t) := by
  cases i <;> simp only [isTransmit, Bool.false_eq_true] at hi
  case send slot nbits repeats chunks =>
    simp only [exec, execSend] at h ⊢
    cases hd : s.cfg.dtab[slot.toNat]? <;> simp only [hd] at h ⊢
    · cases h; rfl
    · split at h <;> cases h
      · rw [if_pos ‹_›]; rfl
      · rw [if_neg ‹_›]; rfl
  case sendRaw durations => cases h; rfl
  case sendBi nbits unit codeword =>
    simp only [exec, execSendBi] at h ⊢
    split at h <;> cases h
    · rw [if_pos ‹_›]; rfl
    · rw [if_neg ‹_›]; rfl

/-- A push stores the same value at `len` in both memories, or overflows in both. -/
theorem pushEntry_withRawbuf {s : State} {m : Memory} (hwf : Memory.wf s.rawbuf = true) (hwf' : Memory.wf m = true)
    (hm : AgreeBelow s.len s.rawbuf m) (e : Entry) (next : CapState) :
    SameButUnwritten (pushEntry e next s) (pushEntry e next (withRawbuf m s)) := by
  rw [sameButUnwritten_iff]
  by_cases hroom : s.len < s.cfg.rawCap
  · simp only [pushEntry, if_pos hroom]
    exact ⟨Memory.write m s.len e, rfl, agreeBelow_write hwf hwf' hm e fun i hi => by omega⟩
  · simp only [pushEntry, if_neg hroom]
    exact ⟨m, rfl, hm⟩

/-- Only a frame start and a push touch RAWBUF, and what they leave written is the same in both memories. -/
theorem captureTransition_withRawbuf {s : State} {m : Memory} (hwf : Memory.wf s.rawbuf = true)
    (hwf' : Memory.wf m = true) (hm : AgreeBelow s.len s.rawbuf m) (lvl : Level) (e : Entry) :
    SameButUnwritten (captureTransition lvl e s) (captureTransition lvl e (withRawbuf m s)) := by
  cases hst : s.capState <;> cases lvl <;> simp only [captureTransition, hst]
  case idle.mark =>
    split
    · rw [sameButUnwritten_iff]
      exact ⟨Memory.write m 0 e, rfl, agreeBelow_write hwf hwf' hm e fun i hi => .inr (by simp at hi; omega)⟩
    · exact ⟨rfl, hm⟩
  case mark.space => exact pushEntry_withRawbuf hwf hwf' hm ..
  case space.mark => exact pushEntry_withRawbuf hwf hwf' hm ..
  case space.space => split <;> exact ⟨rfl, hm⟩
  all_goals exact ⟨rfl, hm⟩

/-- Every operation: a TICK by its transitions, and the others leave RAWBUF and do not raise `len`. -/
theorem exec_withRawbuf {i : Instr} {s t : State} {m : Memory} (hc : configWf s.cfg = true)
    (hwf : Memory.wf s.rawbuf = true) (hwf' : Memory.wf m = true) (hm : AgreeBelow s.len s.rawbuf m)
    (h : exec i s = .next t) : ∃ t', exec i (withRawbuf m s) = .next t' ∧ SameButUnwritten t t' := by
  rcases instr_kind i with ⟨pin, rfl⟩ | rfl | rfl | hi | hi | hi
  · cases h
    refine ⟨_, rfl, ?_⟩
    split
    · exact captureTransition_withRawbuf hwf hwf' hm ..
    · exact ⟨rfl, hm⟩
  · cases h
    refine ⟨_, rfl, ?_⟩
    split
    · rw [releaseFrame_eq, releaseFrame_eq]
      exact ⟨rfl, hm⟩
    · exact ⟨rfl, fun i hi => by simp at hi⟩
  · cases h
    refine ⟨_, rfl, ?_⟩
    rw [releaseFrame_eq, releaseFrame_eq]
    exact ⟨rfl, hm⟩
  · refine ⟨_, exec_read_withRawbuf hm hi h, ?_⟩
    obtain ⟨st, v, hread, -⟩ := exec_read hi s
    cases hread.symm.trans h
    exact ⟨rfl, hm⟩
  · refine ⟨_, exec_decode_withRawbuf hm hc hi h, ?_⟩
    obtain ⟨st, df, last, hdecode, -⟩ := exec_decode hi s
    cases hdecode.symm.trans h
    exact ⟨rfl, hm⟩
  · refine ⟨_, exec_transmit_withRawbuf m hi h, ?_⟩
    obtain ⟨st, deg, car, evs, htransmit, -⟩ := exec_transmit hi s
    cases htransmit.symm.trans h
    exact ⟨rfl, hm⟩

/-- Settles O20: the two machines take the same input, and its operation reads and keeps only entries below `len`. -/
theorem unwrittenEntriesNeverObserved : Obligations.UnwrittenEntriesNeverObserved := by
  intro s t hst hwf hwf' s' h
  obtain ⟨m, rfl, hm⟩ := sameButUnwritten_iff.1 hst
  obtain ⟨hc, ⟨hp, rfl⟩ | ⟨inp, rest, hp, ⟨i, hi, he⟩ | ⟨e, ws, -, he, rfl⟩⟩⟩ := step_cases h
  · exact ⟨_, step_of_no_input hc hp, hst⟩
  · rw [step_of_operation (s := withRawbuf m s) hc hp hi]
    exact exec_withRawbuf (s := { s with pending := rest }) hc hwf hwf' hm he
  · exact ⟨_, step_of_illegal_packet (s := withRawbuf m s) hc hp he, rfl, hm⟩

/-! ## Descriptor words -/

section
variable (d : Slot)

/-! ### The fields of words 6 and 7 (R38) -/

@[simp] theorem slotShapeWord_bitCount : (slotShapeWord d).extractLsb' 0 16 = d.bitCount := by
  simp (disch := omega) only [slotShapeWord, BitVec.extractLsb'_append_eq_of_add_le]
  simp

@[simp] theorem slotShapeWord_bitOrder : (slotShapeWord d).getLsbD 16 = bitOrderBit d.bitOrder := by
  simp only [slotShapeWord, BitVec.getLsbD_append]
  simp

@[simp] theorem slotShapeWord_hasTrailer : (slotShapeWord d).getLsbD 17 = hasTrailer d := by
  simp only [slotShapeWord, BitVec.getLsbD_append]
  simp

@[simp] theorem slotShapeWord_hasRepeatSignal : (slotShapeWord d).getLsbD 18 = hasRepeatSignal d := by
  simp only [slotShapeWord, BitVec.getLsbD_append]
  simp

@[simp] theorem slotShapeWord_reserved19 : (slotShapeWord d).extractLsb' 19 1 = 0 := by
  simp (disch := omega) only [slotShapeWord, BitVec.extractLsb'_append_eq_of_add_le, BitVec.extractLsb'_append_eq_of_le]
  simp

@[simp] theorem slotShapeWord_convention : (slotShapeWord d).extractLsb' 20 2 = conventionCode d.convention := by
  simp (disch := omega) only [slotShapeWord, BitVec.extractLsb'_append_eq_of_add_le, BitVec.extractLsb'_append_eq_of_le]
  simp

@[simp] theorem slotShapeWord_reserved22 : (slotShapeWord d).extractLsb' 22 2 = 0 := by
  simp (disch := omega) only [slotShapeWord, BitVec.extractLsb'_append_eq_of_add_le, BitVec.extractLsb'_append_eq_of_le]
  simp

@[simp] theorem slotShapeWord_layout : (slotShapeWord d).extractLsb' 24 4 = layoutCode d.layout := by
  simp (disch := omega) only [slotShapeWord, BitVec.extractLsb'_append_eq_of_add_le, BitVec.extractLsb'_append_eq_of_le]
  simp

@[simp] theorem slotShapeWord_reserved28 : (slotShapeWord d).extractLsb' 28 4 = 0 := by
  simp (disch := omega) only [slotShapeWord, BitVec.extractLsb'_append_eq_of_le]
  simp

@[simp] theorem slotRateWord_frequency : (slotRateWord d).extractLsb' 0 8 = d.frequencyKHz := by
  simp (disch := omega) only [slotRateWord, BitVec.extractLsb'_append_eq_of_add_le]
  simp

@[simp] theorem slotRateWord_repeatPeriod : (slotRateWord d).extractLsb' 8 16 = d.repeatPeriodMillis := by
  simp (disch := omega) only [slotRateWord, BitVec.extractLsb'_append_eq_of_add_le, BitVec.extractLsb'_append_eq_of_le]
  simp

@[simp] theorem slotRateWord_tag : (slotRateWord d).extractLsb' 24 8 = d.tag := by
  simp (disch := omega) only [slotRateWord, BitVec.extractLsb'_append_eq_of_le]
  simp

end

/-- One bit of a word as a field. -/
theorem ofBool_getLsbD (w : Word) (i : Nat) : BitVec.ofBool (w.getLsbD i) = w.extractLsb' i 1 := by
  ext j hj
  simp [show j = 0 by omega]

/-- Word 6 is determined by its fields: they leave no bit of it out. -/
theorem slotShapeWord_eq {d : Slot} {w : Word} (h28 : w.extractLsb' 28 4 = 0)
    (hlayout : layoutCode d.layout = w.extractLsb' 24 4) (h22 : w.extractLsb' 22 2 = 0)
    (hconv : conventionCode d.convention = w.extractLsb' 20 2) (h19 : w.extractLsb' 19 1 = 0)
    (hrepeat : hasRepeatSignal d = w.getLsbD 18) (htrailer : hasTrailer d = w.getLsbD 17)
    (horder : bitOrderBit d.bitOrder = w.getLsbD 16) (hcount : d.bitCount = w.extractLsb' 0 16) :
    slotShapeWord d = w := by
  simp only [slotShapeWord, hlayout, hconv, hrepeat, htrailer, horder, hcount, ofBool_getLsbD]
  rw [show (0#4) = _ from h28.symm, show (0#2) = _ from h22.symm, show (0#1) = _ from h19.symm]
  simp only [BitVec.extractLsb'_append_extractLsb'_eq_extractLsb', BitVec.extractLsb'_eq_self]

/-- Word 7 is determined by its three fields. -/
theorem slotRateWord_eq {d : Slot} {w : Word} (htag : d.tag = w.extractLsb' 24 8)
    (hperiod : d.repeatPeriodMillis = w.extractLsb' 8 16) (hfreq : d.frequencyKHz = w.extractLsb' 0 8) :
    slotRateWord d = w := by
  simp only [slotRateWord, htag, hperiod, hfreq, BitVec.extractLsb'_append_extractLsb'_eq_extractLsb',
    BitVec.extractLsb'_eq_self]

/-! ### The codes of the fields (R37) -/

@[simp] theorem conventionOfCode_code (c : Convention) : conventionOfCode (conventionCode c) = some c := by
  cases c <;> rfl

@[simp] theorem layoutOfCode_code (l : Layout) : layoutOfCode (layoutCode l) = some l := by
  cases l <;> rfl

theorem conventionCode_of_conventionOfCode {x : BitVec 2} {c : Convention} (h : conventionOfCode x = some c) :
    conventionCode c = x := by
  unfold conventionOfCode at h
  split at h <;> cases h <;> apply BitVec.eq_of_toNat_eq <;> simp [conventionCode, *]

theorem layoutCode_of_layoutOfCode {x : BitVec 4} {l : Layout} (h : layoutOfCode x = some l) : layoutCode l = x := by
  unfold layoutOfCode at h
  split at h <;> cases h <;> apply BitVec.eq_of_toNat_eq <;> simp [layoutCode, *]

/-- An optional field and its flag determine each other: absent is flag 0 and the word 0 (R38). -/
theorem optionalWord_eq_some {present : Bool} {w : Word} {o : Option Word} :
    optionalWord present w = some o ↔ o.isSome = present ∧ o.getD 0 = w := by
  cases present
  · cases o <;> simp [optionalWord, eq_comm (a := 0#32) (b := w)]
  · cases o <;> simp [optionalWord, eq_comm (a := w)]

/-! ### The round trip -/

/-- A slot's words read back as the slot: every field stands where `slotOfWords` looks for it. -/
theorem slotOfWords_slotWords (d : Slot) : slotOfWords (slotWords d) = some d := by
  have htrailer : optionalWord (hasTrailer d) (trailerMicros d) = some d.trailerMarkMicros :=
    optionalWord_eq_some.2 ⟨rfl, rfl⟩
  have hmark : optionalWord (hasRepeatSignal d) ((d.repeatSignal.map RepeatSignal.markMicros).getD 0#32) =
      some (d.repeatSignal.map RepeatSignal.markMicros) :=
    optionalWord_eq_some.2 ⟨by simp [hasRepeatSignal], rfl⟩
  have hspace : optionalWord (hasRepeatSignal d) ((d.repeatSignal.map RepeatSignal.spaceMicros).getD 0#32) =
      some (d.repeatSignal.map RepeatSignal.spaceMicros) :=
    optionalWord_eq_some.2 ⟨by simp [hasRepeatSignal], rfl⟩
  have horder : (if bitOrderBit d.bitOrder = true then BitOrder.msbFirst else .lsbFirst) = d.bitOrder := by
    cases d.bitOrder <;> rfl
  simp only [slotOfWords, slotWords, BitVec.ofNat_eq_ofNat, slotShapeWord_bitCount, slotShapeWord_bitOrder,
    slotShapeWord_hasTrailer, slotShapeWord_hasRepeatSignal, slotShapeWord_reserved19, slotShapeWord_convention,
    slotShapeWord_reserved22, slotShapeWord_layout, slotShapeWord_reserved28, slotRateWord_frequency,
    slotRateWord_repeatPeriod, slotRateWord_tag, conventionOfCode_code, layoutOfCode_code, htrailer, hmark, hspace,
    horder, and_self, if_true]
  obtain ⟨hm, hs, om, zm, os, zs, count, order, freq, period, trailer, conv, lay, tag, rep, gap⟩ := d
  cases rep <;> rfl

/-- The words of a slot, given the two that hold several fields. -/
theorem slotWords_eq {d : Slot} {shape rate : Word} (hshape : slotShapeWord d = shape)
    (hrate : slotRateWord d = rate) :
    slotWords d =
      [d.headerMarkMicros, d.headerSpaceMicros, d.oneMarkMicros, d.zeroMarkMicros, d.oneSpaceMicros,
        d.zeroSpaceMicros, shape, rate, trailerMicros d, (d.repeatSignal.map RepeatSignal.markMicros).getD 0,
        (d.repeatSignal.map RepeatSignal.spaceMicros).getD 0, d.minCommandGapMicros, 0, 0, 0, 0] := by
  rw [slotWords, hshape, hrate]

/-- Words that read as a slot are that slot's: the checks of `slotOfWords` fix the bits no field holds, and its two
repeat words are present together. -/
theorem slotWords_of_slotOfWords {ws : List Word} {d : Slot} (h : slotOfWords ws = some d) : slotWords d = ws := by
  unfold slotOfWords at h
  split at h
  case h_2 => cases h
  case h_1 hm hs om zm os zs shape rate tr rm rs gap =>
    split at h
    case isFalse => cases h
    case isTrue hreserved =>
      obtain ⟨h28, h22, h19⟩ := hreserved
      split at h
      case h_2 => cases h
      case h_1 conv lay trailer mark space hconv hlay htrailer hmark hspace =>
        obtain ⟨hhas, rfl⟩ := optionalWord_eq_some.1 htrailer
        obtain ⟨hhasMark, rfl⟩ := optionalWord_eq_some.1 hmark
        obtain ⟨hhasSpace, rfl⟩ := optionalWord_eq_some.1 hspace
        have horder : bitOrderBit (if shape.getLsbD 16 then .msbFirst else .lsbFirst) = shape.getLsbD 16 := by
          cases shape.getLsbD 16 <;> rfl
        have hpair : (mark = none ∧ space = none) ∨ ∃ m sp, mark = some m ∧ space = some sp := by
          have hsame := hhasMark.trans hhasSpace.symm
          cases mark <;> cases space <;> simp at hsame ⊢
        obtain rfl := Option.some.inj h
        rcases hpair with ⟨rfl, rfl⟩ | ⟨m, sp, rfl, rfl⟩
        all_goals
          exact slotWords_eq (slotShapeWord_eq h28 (layoutCode_of_layoutOfCode hlay) h22
            (conventionCode_of_conventionOfCode hconv) h19 hhasMark hhas horder rfl) (slotRateWord_eq rfl rfl rfl)

/-- Settles O6: each field is cut out of its word where it was put, and the fields with the reserved bits make up the
word. -/
theorem descriptorWordsRoundTrip : Obligations.DescriptorWordsRoundTrip :=
  ⟨slotOfWords_slotWords, fun _ _ => slotWords_of_slotOfWords⟩

/-! ### The words RDDESC returns -/

theorem toNat_slotShapeWord (d : Slot) :
    (slotShapeWord d).toNat =
      d.bitCount.toNat + 2 ^ 16 * (bitOrderBit d.bitOrder).toNat + 2 ^ 17 * (hasTrailer d).toNat +
        2 ^ 18 * (hasRepeatSignal d).toNat + 2 ^ 20 * (conventionCode d.convention).toNat +
        2 ^ 24 * (layoutCode d.layout).toNat := by
  simp only [slotShapeWord, toNat_append_add, BitVec.toNat_ofBool, BitVec.toNat_ofNat]
  omega

theorem toNat_slotRateWord (d : Slot) :
    (slotRateWord d).toNat =
      d.frequencyKHz.toNat + 2 ^ 8 * d.repeatPeriodMillis.toNat + 2 ^ 24 * d.tag.toNat := by
  simp only [slotRateWord, toNat_append_add]
  omega

theorem exec_rddesc {s : State} {slot : BitVec 8} {word : BitVec 16} {d : Slot} {v : Word}
    (hd : s.cfg.dtab[slot.toNat]? = some d) (hword : word.toNat ≤ 15)
    (hv : (slotWords d)[word.toNat]? = some v) : exec (.rddesc slot word) s = .next (respond .ok v s) := by
  have hslot : slot.toNat < s.cfg.ndec := (List.getElem?_eq_some_iff.1 hd).1
  have hread : dtabRead (16 * slot.toNat + word.toNat) s.cfg = some v :=
    (dtabRead_word hd (by omega)).trans hv
  have hok : ¬ (s.cfg.ndec ≤ slot.toNat ∨ 15 < word.toNat) := by omega
  simp only [exec, execRddesc, if_neg hok, hread]

/-- Settles O34: the word read is the slot's word of that number; words 6 and 7 are the sums of their fields. -/
theorem rddescReturnsDescriptorWord : Obligations.RddescReturnsDescriptorWord := by
  intro s slot word d hd hword
  have hlt : word.toNat < (slotWords d).length := by
    rw [length_slotWords]
    omega
  obtain ⟨v, hv⟩ : ∃ v, (slotWords d)[word.toNat]? = some v := ⟨_, List.getElem?_eq_getElem hlt⟩
  have hval : ∀ {k : Nat} {w : Word}, word.toNat = k → (slotWords d)[k]? = some w → v = w := by
    rintro k w rfl hw
    exact Option.some.inj (hv.symm.trans hw)
  refine ⟨v, exec_rddesc hd hword hv, ?_, ?_, ?_, ?_, ?_, ?_, ?shape, ?rate, ?_, ?repeatMark, ?repeatSpace, ?noRepeat,
    ?_, ?reserved⟩
  case shape =>
    rintro rfl
    rw [hval rfl rfl, toNat_slotShapeWord]
    cases d.bitOrder <;> cases d.convention <;> cases d.layout <;> rfl
  case rate =>
    rintro rfl
    rw [hval rfl rfl, toNat_slotRateWord]
  case repeatMark | repeatSpace =>
    rintro rfl r hr
    rw [hval rfl rfl, hr]
    rfl
  case noRepeat =>
    rintro (rfl | rfl) hr <;> rw [hval rfl rfl, hr] <;> rfl
  case reserved =>
    intro hhigh
    have hcases : word.toNat = 12 ∨ word.toNat = 13 ∨ word.toNat = 14 ∨ word.toNat = 15 := by omega
    rcases hcases with h | h | h | h <;> exact hval h rfl
  all_goals
    rintro rfl
    exact hval rfl rfl

/-! ## Status registers -/

theorem toNat_srNat {width n : Nat} (hwidth : width ≤ 32) (hn : n < 2 ^ width) : (srNat width n).toNat = n := by
  rw [srNat, BitVec.zeroExtend, BitVec.toNat_setWidth_of_le hwidth, BitVec.toNat_ofNat, Nat.mod_eq_of_lt hn]

theorem toNat_capStatus (s : State) :
    (capStatus s).toNat = s.capState.code.toNat + 4 * s.run.toNat + 8 * s.ovf.toNat := by
  simp only [capStatus, toNat_append_add, BitVec.toNat_ofBool, BitVec.toNat_ofNat]
  omega

theorem toNat_validTag (valid : Bool) (tag : BitVec 8) :
    (validTag valid tag).toNat = valid.toNat + 256 * tag.toNat := by
  simp only [validTag, toNat_append_add, BitVec.toNat_ofBool, BitVec.toNat_ofNat]
  omega

/-- SR[8] where NWMAX fits its eight bits; the other fields always do (R3). -/
theorem toNat_cfgMisc {c : Config} (hnwmax : c.nwmax ≤ 255) (hndec : c.ndec ≤ 255) (hbits : c.tickBits ≤ 16) :
    (cfgMisc c).toNat =
      c.activeLow.toNat + 2 * (c.wordBits == .w64).toNat + 256 * c.tickBits + 65536 * c.ndec +
        16777216 * c.nwmax := by
  have hfield : (nwmaxField c.nwmax).toNat = c.nwmax := by
    rw [nwmaxField, if_pos (by omega), BitVec.toNat_ofNat, Nat.mod_eq_of_lt (by omega)]
  simp only [cfgMisc, toNat_append_add, BitVec.toNat_ofBool, BitVec.toNat_ofNat, hfield]
  omega

/-- SR[15] where the count fits its eight bits. -/
theorem toNat_nwordsField {n : Nat} (hn : n ≤ 255) : ((nwordsField n).zeroExtend 32).toNat = n := by
  rw [nwordsField, if_pos (by omega), BitVec.zeroExtend, BitVec.toNat_setWidth_of_le (by omega), BitVec.toNat_ofNat,
    Nat.mod_eq_of_lt (by omega)]

/-! ### DF_RAW32 (R31) -/

theorem toNat_rawWord_w32 (raw : List Chunk) (i : Nat) :
    (rawWord .w32 raw i).toNat = (raw.getD i 0).toNat % 2 ^ 32 := by
  rw [rawWord, BitVec.extractLsb'_toNat, Nat.shiftRight_zero]

/-- With W = 64 an even word is the low half of its chunk, and an odd one the high half. -/
theorem toNat_rawWord_w64_even (raw : List Chunk) {i : Nat} (hi : i % 2 = 0) :
    (rawWord .w64 raw i).toNat = (raw.getD (i / 2) 0).toNat % 2 ^ 32 := by
  simp only [rawWord, hi, BitVec.extractLsb'_toNat, Nat.mul_zero, Nat.shiftRight_zero]

theorem toNat_rawWord_w64_odd (raw : List Chunk) {i : Nat} (hi : i % 2 = 1) :
    (rawWord .w64 raw i).toNat = (raw.getD (i / 2) 0).toNat / 2 ^ 32 := by
  have hlt := (raw.getD (i / 2) 0).isLt
  simp only [rawWord, hi, BitVec.extractLsb'_toNat, Nat.mul_one, Nat.shiftRight_eq_div_pow]
  omega

/-! ### The map -/

theorem exec_rdsr {s : State} {n : BitVec 16} {v : Word} (hv : srRead n.toNat s = some v) :
    exec (.rdsr n) s = .next (respond .ok v s) := by
  simp only [exec, execRdsr, hv]

section
variable {s : State} {n k : BitVec 16} {v : Word} (hv : srRead n.toNat s = some v) (hk : n = k)
include hv hk

theorem eq_of_srRead {w : Word} (hw : srRead k.toNat s = some w) : v = w := by
  subst hk
  exact Option.some.inj (hv.symm.trans hw)

/-- A register that holds one field, zero-extended. -/
theorem toNat_of_srRead_field {width : Nat} {x : BitVec width} (hwidth : width ≤ 32)
    (hw : srRead k.toNat s = some (x.zeroExtend 32)) : v.toNat = x.toNat := by
  rw [eq_of_srRead hv hk hw, BitVec.zeroExtend, BitVec.toNat_setWidth_of_le hwidth]

/-- A register that holds one number that fits it. -/
theorem toNat_of_srRead_nat {width m : Nat} (hwidth : width ≤ 32) (hm : m < 2 ^ width)
    (hw : srRead k.toNat s = some (srNat width m)) : v.toNat = m := by
  rw [eq_of_srRead hv hk hw, toNat_srNat hwidth hm]

end

/-- The words from 32 on are DF_RAW32. -/
theorem eq_rawWord_of_srRead {s : State} {n : Nat} {v : Word} (hv : srRead n s = some v) (hn : 32 ≤ n) :
    v = rawWord s.cfg.wordBits s.df.raw (n - 32) := by
  rw [srRead_above (by omega)] at hv
  split at hv
  · exact (Option.some.inj hv).symm
  · cases hv

/-- Settles O32: the register's word is the one `srRead` gives its number, and its value is the sum of its fields. -/
theorem statusRegisterMap : Obligations.StatusRegisterMap := by
  intro s n hc hlen hn
  obtain ⟨⟨-, hdt⟩, htol, hexcess, ⟨-, hbits⟩, ⟨-, hgap⟩, ⟨-, hcap⟩, -, hndec⟩ := ranges_of_configWf hc
  have hgap : s.cfg.gapTicks < 2 ^ 16 := by
    have := Nat.pow_le_pow_right (show 0 < 2 by omega) hbits
    omega
  obtain ⟨v, hv⟩ : ∃ v, srRead n.toNat s = some v := Option.ne_none_iff_exists'.1 fun hnone => by
    rcases srRead_eq_none.1 hnone with h | h <;> omega
  refine ⟨v, exec_rdsr hv, ?capStatus, ?_, ?len, ?dt, ?tol, ?markExcess, ?gapTicks, ?rawCap, ?cfgMisc, ?dfTag, ?_, ?_, ?_,
    ?_, ?_, ?nwords, ?lastTag, ?_, ?_, ?repdeg, ?_, ?raw32, ?raw64even, ?raw64odd⟩
  case capStatus =>
    intro hk
    rw [eq_of_srRead hv hk rfl, toNat_capStatus]
    cases s.capState <;> rfl
  case gapTicks => exact fun hk => toNat_of_srRead_nat hv hk (by decide) hgap rfl
  case len | dt | tol | markExcess | rawCap =>
    exact fun hk => toNat_of_srRead_nat hv hk (by decide) (by omega) rfl
  case cfgMisc =>
    intro hk hnwmax
    rw [eq_of_srRead hv hk rfl]
    exact toNat_cfgMisc hnwmax hndec hbits
  case dfTag | lastTag =>
    intro hk
    rw [eq_of_srRead hv hk rfl, toNat_validTag]
  case nwords =>
    intro hk hcount
    rw [eq_of_srRead hv hk rfl, toNat_nwordsField hcount]
  case repdeg =>
    intro hk
    rw [toNat_of_srRead_field hv hk (by decide) rfl, BitVec.toNat_ofBool]
  case raw32 =>
    intro h32 hw
    rw [eq_rawWord_of_srRead hv h32, hw, toNat_rawWord_w32]
  case raw64even =>
    intro h32 hw heven
    rw [eq_rawWord_of_srRead hv h32, hw, toNat_rawWord_w64_even _ (by omega)]
  case raw64odd =>
    intro h32 hw hodd
    rw [eq_rawWord_of_srRead hv h32, hw, toNat_rawWord_w64_odd _ (by omega)]
  all_goals exact fun hk => toNat_of_srRead_field hv hk (by decide) rfl

/-! ## run -/

theorem run_exec_start {s t : State} (h : exec .start s = .next t) : t.run = true := by
  cases h
  cases hrun : s.run <;> simp [hrun]

/-- No operation but START writes `run`. -/
theorem run_exec_of_ne_start {i : Instr} {s t : State} (hi : i ≠ .start) (h : exec i s = .next t) : t.run = s.run := by
  rcases exec_cases h with ⟨pin, -, st, el, n, o, m, rfl⟩ | ⟨hstart, -⟩ | ⟨-, rfl⟩ | ⟨-, st, v, rfl, -⟩ |
    ⟨-, st, df, last, rfl, -⟩ | ⟨-, st, deg, car, evs, rfl, -⟩
  · rfl
  · exact absurd hstart hi
  · simp
  · rfl
  · rfl
  · rfl

theorem run_exec {i : Instr} {s t : State} (h : exec i s = .next t) :
    t.run = true ↔ s.run = true ∨ i = .start := by
  by_cases hi : i = .start
  · subst hi
    simp [run_exec_start h]
  · simp [run_exec_of_ne_start hi h, hi]

/-- Settles O11: START sets `run`, the other operations keep it, and TICK is guarded by it. -/
theorem runIsSetByStartOnly : Obligations.RunIsSetByStartOnly :=
  ⟨fun _ => rfl, fun _ _ _ h => run_exec h,
    fun pin s hrun => by simp [exec, execTick, hrun], fun pin s hrun => by simp [exec, execTick, hrun]⟩

/-! ## The output ports -/

/-- The transmit commands are SEND, SENDRAW and SENDBI. -/
theorem eq_of_isTransmit {i : Instr} (hi : isTransmit i = true) :
    (∃ a b c d, i = .send a b c d) ∨ (∃ a, i = .sendRaw a) ∨ ∃ a b c, i = .sendBi a b c := by
  cases i <;> simp [isTransmit] at hi ⊢

/-- Settles O13: the operations but the transmit commands leave TXTRACE, and those append positive durations. -/
theorem transmitTraceIsAppendOnly : Obligations.TransmitTraceIsAppendOnly := by
  intro i s t h
  have unchanged : t.txTrace = s.txTrace → ∃ evs, t.txTrace = s.txTrace ++ evs ∧
      (∀ ev ∈ evs, txEventOk ev = true) ∧
      (evs ≠ [] → (∃ a b c d, i = .send a b c d) ∨ (∃ a, i = .sendRaw a) ∨ ∃ a b c, i = .sendBi a b c) :=
    fun htrace => ⟨[], by simp [htrace], by simp, by simp⟩
  rcases exec_cases h with ⟨pin, -, st, el, n, o, m, rfl⟩ | ⟨-, rfl⟩ | ⟨-, rfl⟩ | ⟨-, st, v, rfl, -⟩ |
    ⟨-, st, df, last, rfl, -⟩ | ⟨htransmit, st, deg, car, evs, rfl, -, hevs, -⟩
  · exact unchanged rfl
  · apply unchanged
    cases hrun : s.run <;> simp
  · exact unchanged (by simp)
  · exact unchanged rfl
  · exact unchanged rfl
  · exact ⟨evs, rfl, hevs, fun _ => eq_of_isTransmit htransmit⟩

/-- One more response keeps the invariant when it is one R96 and R330 allow. -/
theorem portInv_respond {s : State} (hs : PortInv s) {st : Status} {v : Word}
    (hresp : responseOk { status := st, value := v } = true) : PortInv (respond st v s) where
  trace_ok := hs.trace_ok
  responses_ok := List.forall_mem_append.2 ⟨hs.responses_ok, List.forall_mem_singleton.2 hresp⟩

/-- The invariant speaks of TXTRACE and the responses alone. -/
theorem portInv_congr {s t : State} (hs : PortInv s) (htrace : t.txTrace = s.txTrace)
    (hresp : t.responses = s.responses) : PortInv t where
  trace_ok := by rw [htrace]; exact hs.trace_ok
  responses_ok := by rw [hresp]; exact hs.responses_ok

/-- A status that is returned may come with the value 0. -/
theorem responseOk_zero {st : Status} (hst : st.returned = true) : responseOk { status := st, value := 0 } = true := by
  simp [responseOk, hst]

/-- A TICK gives no response; every other operation gives one that R96 and R330 allow. -/
theorem portInv_exec {i : Instr} {s t : State} (hs : PortInv s) (h : exec i s = .next t) : PortInv t := by
  rcases exec_cases h with ⟨pin, -, st, el, n, o, m, rfl⟩ | ⟨-, rfl⟩ | ⟨-, rfl⟩ | ⟨-, st, v, rfl, hresp⟩ |
    ⟨-, st, df, last, rfl, hst⟩ | ⟨-, st, deg, car, evs, rfl, hst, hevs, -⟩
  · exact portInv_congr hs rfl rfl
  · refine portInv_respond ?_ rfl
    split
    · exact portInv_congr hs (releaseFrame_txTrace s) (releaseFrame_responses s)
    · exact portInv_congr hs rfl rfl
  · exact portInv_respond (portInv_congr hs (releaseFrame_txTrace s) (releaseFrame_responses s)) rfl
  · exact portInv_respond hs hresp
  · exact portInv_respond (s := { s with df := df, last := last }) (portInv_congr hs rfl rfl) (responseOk_zero hst)
  · have hsent : PortInv { s with txRepdeg := deg, txCarrier := car, txTrace := s.txTrace ++ evs } :=
      ⟨List.forall_mem_append.2 ⟨hs.trace_ok, hevs⟩, hs.responses_ok⟩
    exact portInv_respond hsent (responseOk_zero hst)

/-- Settles O25: every operation keeps the invariant, and BadCommand is a response R330 allows. -/
theorem stepKeepsPortInvariant : Obligations.StepKeepsPortInvariant := fun _ _ hs h =>
  step_preserves (Inv := PortInv) (fun _ _ hs => portInv_congr hs rfl rfl) (fun _ hs => portInv_respond hs rfl)
    (fun _ _ _ _ => portInv_exec) hs h

/-! ## STOP and reset -/

/-- In STOP a TICK moves the counter and nothing else (R77). -/
theorem exec_tick_stop (pin : Bool) {s : State} (hstop : s.capState = .stop) :
    ∃ e, exec (.tick pin) s = .next { s with elapsed := e } := by
  simp only [exec, execTick]
  split
  · cases hlvl : levelOf s.cfg pin <;> simp only [tickRunning, captureTransition, hstop, hlvl] <;> exact ⟨_, rfl⟩
  · exact ⟨s.elapsed, rfl⟩

/-- Settles O29, by induction on the TICKs. -/
theorem stopHoldsTheFrame : Obligations.StopHoldsTheFrame := by
  intro pins
  induction pins with
  | nil => exact fun s hstop => ⟨s, rfl, hstop, rfl, rfl, fun _ => rfl⟩
  | cons pin pins ih =>
    intro s hstop
    obtain ⟨e, htick⟩ := exec_tick_stop pin hstop
    obtain ⟨t, hrun, ht⟩ := ih { s with elapsed := e } hstop
    exact ⟨t, by simpa only [List.map_cons, runInstrs, htick] using hrun, ht⟩

/-- Settles O21: `State.resetWith` field by field; no chunk of DF_RAW32 is there, so every word of it reads 0. -/
theorem resetValues : Obligations.ResetValues := by
  intro c
  have hraw : ∀ i, rawWord c.wordBits [] i = 0 := fun i => by
    cases c.wordBits <;> simp [rawWord]
  exact ⟨rfl, rfl, rfl, rfl, rfl, rfl, hraw, rfl, rfl, rfl, rfl, rfl⟩

end Sys2Proof.Proofs

/-! PROOFS. The statements about the order and the visibility of operations (spec/20_memory.md R61, R69, R76, R78): what
no operation writes, the frames of TICK and of the transmit commands, and the two that commute. -/

namespace Sys2Proof.Proofs

open Sys2Proof Sys2Proof.Machine

/-! ## The configuration -/

theorem cfg_exec {i : Instr} {s t : State} (h : exec i s = .next t) : t.cfg = s.cfg := by
  rcases exec_cases h with ⟨pin, -, st, el, n, o, m, rfl⟩ | ⟨-, rfl⟩ | ⟨-, rfl⟩ | ⟨-, st, v, rfl, -⟩ |
    ⟨-, st, df, last, rfl, -⟩ | ⟨-, st, deg, car, evs, rfl, -⟩
  · rfl
  · cases hrun : s.run <;> simp
  · simp
  · rfl
  · rfl
  · rfl

/-- Settles O10: no operation writes the configuration, nor does taking an input or rejecting a packet. -/
theorem configurationIsConstant : Obligations.ConfigurationIsConstant := fun s _ h =>
  step_preserves (Inv := fun u => u.cfg = s.cfg) (fun _ _ hu => hu) (fun _ hu => hu)
    (fun _ _ _ _ hu hexec => (cfg_exec hexec).trans hu) rfl h

/-! ## The commands that only answer -/

theorem isRead_iff {i : Instr} :
    isRead i = true ↔
      i = .isIdle ∨ i = .isAvail ∨ (∃ n, i = .rdsr n) ∨ (∃ n, i = .rdraw n) ∨ (∃ a b, i = .rddesc a b) ∨
        (∃ a, i = .toMicros a) ∨ (∃ a b, i = .matchMark a b) ∨ (∃ a b, i = .matchSpace a b) ∨
        ∃ a b, i = .matchExact a b := by
  cases i <;> simp [isRead]

/-- What a read answers does not depend on the responses given before it. -/
theorem exec_read_answer {i : Instr} (hi : isRead i = true) (s : State) :
    ∃ r, ∀ rs, exec i { s with responses := rs } = .next { s with responses := rs ++ [r] } := by
  cases i <;> simp only [isRead, Bool.false_eq_true] at hi
  case isIdle => exact ⟨⟨.ok, boolWord (s.capState == .idle)⟩, fun _ => rfl⟩
  case isAvail => exact ⟨⟨.ok, boolWord (s.capState == .stop)⟩, fun _ => rfl⟩
  case rdsr n =>
    have hread : ∀ rs, srRead n.toNat { s with responses := rs } = srRead n.toNat s := fun _ => rfl
    cases hn : srRead n.toNat s with
    | some w => exact ⟨⟨.ok, w⟩, fun rs => by simp only [exec, execRdsr, hread, hn]; rfl⟩
    | none => exact ⟨⟨.badOperand, 0⟩, fun rs => by simp only [exec, execRdsr, hread, hn]; rfl⟩
  case rdraw n =>
    by_cases hn : s.len ≤ n.toNat
    · exact ⟨⟨.badOperand, 0⟩, fun _ => if_pos hn⟩
    · exact ⟨⟨.ok, (Memory.read s.rawbuf n.toNat).zeroExtend 32⟩, fun _ => if_neg hn⟩
  case rddesc slot word =>
    by_cases hbad : s.cfg.ndec ≤ slot.toNat ∨ 15 < word.toNat
    · exact ⟨⟨.badOperand, 0⟩, fun _ => if_pos hbad⟩
    · cases hw : dtabRead (16 * slot.toNat + word.toNat) s.cfg with
      | some w => exact ⟨⟨.ok, w⟩, fun _ => by simp only [exec, execRddesc, if_neg hbad, hw]; rfl⟩
      | none => exact ⟨⟨.badOperand, 0⟩, fun _ => by simp only [exec, execRddesc, if_neg hbad, hw]; rfl⟩
  case toMicros t => exact ⟨⟨.ok, BitVec.ofNat 32 (t.toNat * s.cfg.dt)⟩, fun _ => rfl⟩
  case matchMark ticks target =>
    exact ⟨⟨.ok, boolWord (matchMark s.cfg ticks.toNat target.toNat)⟩, fun _ => rfl⟩
  case matchSpace ticks target =>
    exact ⟨⟨.ok, boolWord (matchSpace s.cfg ticks.toNat target.toNat)⟩, fun _ => rfl⟩
  case matchExact ticks target =>
    exact ⟨⟨.ok, boolWord (matchExact s.cfg ticks.toNat target.toNat)⟩, fun _ => rfl⟩

/-- Settles O15: the first answer is the only change, and the second is the same. -/
theorem readsAndMatchesChangeNothing : Obligations.ReadsAndMatchesChangeNothing := by
  intro i s t hi h
  obtain ⟨r, hr⟩ := exec_read_answer (isRead_iff.2 hi) s
  cases (hr s.responses).symm.trans h
  exact ⟨⟨rfl, rfl, rfl, rfl, rfl, fun _ => rfl⟩, ⟨rfl, rfl⟩, ⟨rfl, rfl, rfl⟩, ⟨rfl, rfl⟩, r, rfl, hr _⟩

/-! ## The frame of TICK -/

/-- A push stores at `len` when it has room (R156, R157) and nowhere else. -/
theorem read_pushEntry {s : State} (hwf : Memory.wf s.rawbuf = true) (e : Entry) (next : CapState) {a : Nat}
    (ha : s.len < s.cfg.rawCap → a ≠ s.len) : Memory.read (pushEntry e next s).rawbuf a = Memory.read s.rawbuf a := by
  rcases pushEntry_cases e next s with ⟨hroom, h⟩ | ⟨-, h⟩ <;> rw [h]
  · exact (Memory.read_write s.len e a hwf).trans (if_neg (ha hroom))
  · rfl

/-- R153: the store of a frame's start is at index 0. -/
theorem read_startFrame {s : State} (hwf : Memory.wf s.rawbuf = true) (e : Entry) {a : Nat} (ha : a ≠ 0) :
    Memory.read (startFrame e s).rawbuf a = Memory.read s.rawbuf a :=
  (Memory.read_write 0 e a hwf).trans (if_neg ha)

/-- A running unit stores only to the index `tickStoreIndex` gives: three kinds of transition leave RAWBUF, the start of
a frame stores to 0, and the two pushes to `len`. -/
theorem read_tickRunning {s : State} (hwf : Memory.wf s.rawbuf = true) (hrun : s.run = true) {pin : Bool} {a : Nat}
    (ha : tickStoreIndex pin s ≠ some a) :
    Memory.read (tickRunning pin s).rawbuf a = Memory.read s.rawbuf a := by
  unfold tickRunning
  rcases captureTransition_cases (levelOf s.cfg pin) (satInc s.cfg.tickBits s.elapsed) s with
    ⟨-, -, h⟩ | ⟨-, -, h⟩ | ⟨hst, hlvl, hgap, h⟩ | ⟨hst, hlvl, h⟩ | ⟨hst, hlvl, h⟩ | ⟨-, -, -, h⟩ <;> rw [h]
  · exact read_startFrame hwf _ fun h0 => ha (by simp [tickStoreIndex, hrun, hst, hlvl, hgap, h0])
  · exact read_pushEntry hwf _ _ fun hroom hlen => ha (by simp [tickStoreIndex, hrun, hst, hlvl, hroom, hlen])
  · exact read_pushEntry hwf _ _ fun hroom hlen => ha (by simp [tickStoreIndex, hrun, hst, hlvl, hroom, hlen])

theorem read_exec_tick {pin : Bool} {s t : State} (hwf : Memory.wf s.rawbuf = true) (h : exec (.tick pin) s = .next t)
    {a : Nat} (ha : tickStoreIndex pin s ≠ some a) : Memory.read t.rawbuf a = Memory.read s.rawbuf a := by
  cases hrun : s.run <;> simp only [exec, execTick, hrun] at h <;> cases h
  · rfl
  · exact read_tickRunning hwf hrun ha

/-- Settles O16: a TICK writes only capture registers, and RAWBUF at one index at most. -/
theorem tickWritesOnlyCapture : Obligations.TickWritesOnlyCapture := by
  intro pin s t hwf h
  have hread : ∀ a, tickStoreIndex pin s ≠ some a → Memory.read t.rawbuf a = Memory.read s.rawbuf a :=
    fun _ => read_exec_tick hwf h
  obtain ⟨st, el, n, o, m, htick⟩ := exec_tick pin s
  cases htick.symm.trans h
  exact ⟨rfl, ⟨rfl, rfl⟩, ⟨rfl, rfl, rfl⟩, ⟨rfl, rfl⟩, rfl, hread⟩

/-! ## The frames of the transmit commands -/

theorem isTransmit_iff {i : Instr} :
    isTransmit i = true ↔
      (∃ a b c d, i = .send a b c d) ∨ (∃ a, i = .sendRaw a) ∨ ∃ a b c, i = .sendBi a b c := by
  refine ⟨eq_of_isTransmit, ?_⟩
  rintro (⟨a, b, c, d, rfl⟩ | ⟨a, rfl⟩ | ⟨a, b, c, rfl⟩) <;> rfl

/-- R299: SENDRAW and SENDBI set neither TX_REPDEG nor TX_CARRIER. -/
theorem txRegisters_exec_of_ne_send {i : Instr} {s t : State} (hi : isTransmit i = true)
    (hsend : ∀ a b c d, i ≠ .send a b c d) (h : exec i s = .next t) :
    t.txRepdeg = s.txRepdeg ∧ t.txCarrier = s.txCarrier := by
  obtain ⟨st, deg, car, evs, htransmit, -, -, hkeep⟩ := exec_transmit hi s
  cases htransmit.symm.trans h
  exact hkeep hsend

/-- Settles O18: a transmit command writes the transmit registers and the response at most. -/
theorem transmitFrames : Obligations.TransmitFrames := by
  intro i s t h
  constructor
  · intro hi
    obtain ⟨st, deg, car, evs, htransmit, -⟩ := exec_transmit (isTransmit_iff.2 hi) s
    cases htransmit.symm.trans h
    exact ⟨⟨rfl, rfl, rfl, rfl, rfl, fun _ => rfl⟩, ⟨rfl, rfl⟩, ⟨rfl, rfl⟩⟩
  · intro hi
    refine txRegisters_exec_of_ne_send (isTransmit_iff.2 (.inr hi)) (fun _ _ _ _ => ?_) h
    rcases hi with ⟨a, rfl⟩ | ⟨a, b, c, rfl⟩ <;> nofun

/-! ## A transmit command and a TICK commute -/

/-- The state `s` with the capture registers and the RawFrame of `u`, which are all that a TICK writes. -/
abbrev withCapture (u s : State) : State :=
  { s with capState := u.capState, elapsed := u.elapsed, len := u.len, ovf := u.ovf, rawbuf := u.rawbuf }

/-- The state `s` with the transmit registers and the responses of `u`, which are all that a transmit command writes. -/
abbrev withOutputs (u s : State) : State :=
  { s with txRepdeg := u.txRepdeg, txCarrier := u.txCarrier, txTrace := u.txTrace, responses := u.responses }

theorem exec_tick_eq_withCapture {pin : Bool} {s t : State} (h : exec (.tick pin) s = .next t) :
    t = withCapture t s := by
  obtain ⟨st, el, n, o, m, htick⟩ := exec_tick pin s
  cases htick.symm.trans h
  rfl

theorem exec_transmit_eq_withOutputs {i : Instr} {s t : State} (hi : isTransmit i = true) (h : exec i s = .next t) :
    t = withOutputs t s := by
  obtain ⟨st, deg, car, evs, htransmit, -⟩ := exec_transmit hi s
  cases htransmit.symm.trans h
  rfl

theorem captureTransition_withOutputs (u : State) (lvl : Level) (e : Entry) (s : State) :
    captureTransition lvl e (withOutputs u s) = withOutputs u (captureTransition lvl e s) := by
  cases hst : s.capState <;> cases lvl <;> simp only [captureTransition, hst]
  case idle.mark => split <;> rfl
  case mark.space => simp only [pushEntry]; split <;> rfl
  case space.mark => simp only [pushEntry]; split <;> rfl
  case space.space => split <;> rfl

/-- A TICK reads no transmit register and no response. -/
theorem exec_tick_withOutputs {pin : Bool} {s t : State} (u : State) (h : exec (.tick pin) s = .next t) :
    exec (.tick pin) (withOutputs u s) = .next (withOutputs u t) := by
  cases hrun : s.run <;> simp only [exec, execTick, hrun] at h ⊢ <;> cases h
  · rfl
  · exact congrArg _ (captureTransition_withOutputs u ..)

/-- A transmit command reads no capture register and no RawFrame entry. -/
theorem exec_transmit_withCapture {i : Instr} {s t : State} (u : State) (hi : isTransmit i = true)
    (h : exec i s = .next t) : exec i (withCapture u s) = .next (withCapture u t) := by
  cases i <;> simp only [isTransmit, Bool.false_eq_true] at hi
  case send slot nbits repeats chunks =>
    cases hd : s.cfg.dtab[slot.toNat]? with
    | none =>
      simp only [exec, execSend, hd] at h ⊢
      cases h
      rfl
    | some d =>
      by_cases hbad : d.convention = .biphase ∨ nbits.toNat < 1 ∨ 32 * s.cfg.nwmax < nbits.toNat <;>
        simp only [exec, execSend, hd, hbad, if_true, if_false] at h ⊢ <;> cases h <;> rfl
  case sendRaw durations => cases h; rfl
  case sendBi nbits unit codeword =>
    by_cases hbad : nbits.toNat < 1 ∨ s.cfg.wordBits.bits < nbits.toNat ∨ unit.toNat < 1 <;>
      simp only [exec, execSendBi, hbad, if_true, if_false] at h ⊢ <;> cases h <;> rfl

theorem runInstrs_pair {i j : Instr} {s t u : State} (hi : exec i s = .next t) (hj : exec j t = .next u) :
    runInstrs [i, j] s = .next u := by
  simp only [runInstrs, hi, hj]

/-- Settles O19: each of the two reads nothing the other writes, and they write different fields. -/
theorem transmitCommutesWithTick : Obligations.TransmitCommutesWithTick := by
  intro i pin s hi
  have htransmit := isTransmit_iff.2 hi
  obtain ⟨sent, hsent⟩ := exec_answers i s
  obtain ⟨ticked, hticked⟩ := exec_answers (.tick pin) s
  have hsent' := exec_transmit_eq_withOutputs htransmit hsent
  have hticked' := exec_tick_eq_withCapture hticked
  have htickLast : exec (.tick pin) sent = .next (withOutputs sent ticked) := by
    rw [hsent']; exact exec_tick_withOutputs sent hticked
  have hsendLast : exec i ticked = .next (withCapture ticked sent) := by
    rw [hticked']; exact exec_transmit_withCapture ticked htransmit hsent
  have hsame : withOutputs sent ticked = withCapture ticked sent := by
    rw [hsent', hticked']
  rw [runInstrs_pair hsent htickLast, runInstrs_pair hticked hsendLast, hsame]

end Sys2Proof.Proofs

/-! PROOFS. The statements about the packets (spec/30_encoding.md R91 to R99): encoder and decoder are inverse, a row is
selected by its match and mask, an illegal packet is answered BadCommand, and each packet gets one response (R96). -/

namespace Sys2Proof.Proofs

open Sys2Proof Sys2Proof.Machine

/-! ## Command words and the rows they select (R91, R95) -/

/-- The command words of a row: its opcode with any two fields that are 0 where the row asks for it (R92). -/
theorem selectRow_iff_commandWord {cw : Word} {o : Op} :
    selectRow cw = some o ↔
      ∃ a b, cw = commandWord o.code a b ∧ (o.aMustBeZero = true → a = 0) ∧ (o.bMustBeZero = true → b = 0) := by
  constructor
  · intro h
    obtain ⟨hop, ha, hb⟩ := selectRow_eq_some.1 h
    exact ⟨aField cw, bField cw, by rw [← hop, commandWord_fields], ha, hb⟩
  · rintro ⟨a, b, rfl, ha, hb⟩
    exact selectRow_commandWord o a b ha hb

theorem commandWord_and (op a op' a' : BitVec 8) (b b' : BitVec 16) :
    commandWord op a b &&& commandWord op' a' b' = commandWord (op &&& op') (a &&& a') (b &&& b') :=
  (BitVec.and_append (x₁ := op ++ a)).trans (congrArg (· ++ (b &&& b')) BitVec.and_append)

theorem commandWord_eq_iff {op a op' a' : BitVec 8} {b b' : BitVec 16} :
    commandWord op a b = commandWord op' a' b' ↔ op = op' ∧ a = a' ∧ b = b' :=
  ⟨commandWord_inj, by rintro ⟨rfl, rfl, rfl⟩; rfl⟩

/-- A mask of ones lets a field be nothing but 0, and a mask of zeros asks nothing of it. -/
theorem and_mask_eq_zero {w : Nat} (x : BitVec w) (z : Bool) :
    x &&& (if z then BitVec.allOnes w else 0) = 0 ↔ (z = true → x = 0) := by
  cases z <;> simp

theorem and_maskWord_eq_matchWord {cw : Word} {o : Op} :
    cw &&& o.maskWord = o.matchWord ↔
      opField cw = o.code ∧ (o.aMustBeZero = true → aField cw = 0) ∧ (o.bMustBeZero = true → bField cw = 0) := by
  rw [← and_mask_eq_zero (aField cw), ← and_mask_eq_zero (bField cw), ← BitVec.and_allOnes (x := opField cw),
    ← commandWord_eq_iff, ← commandWord_and, commandWord_fields]
  rfl

/-- Settles O3: the mask keeps the opcode and the must-be-zero fields, which are what `selectRow` tests. -/
theorem rowSelectionIsMatchAndMask : Obligations.RowSelectionIsMatchAndMask :=
  ⟨fun _ _ => selectRow_eq_some.trans and_maskWord_eq_matchWord.symm, rfl⟩

/-! ## Packets of the right length (R93, R99) -/

/-- The operand words that follow the command word of a row whose field `b` is given (R93). -/
def operandCount (wb : WordBits) (o : Op) (b : BitVec 16) : Nat :=
  match o.format with
  | .z | .i | .s => 0
  | .m => 1
  | .t => 1 + wb.chunkCount b.toNat * wb.words
  | .v => b.toNat
  | .b => 1 + wb.words

/-- The packet is the command word and its operand words. -/
theorem packetLength_eq_operandCount {wb : WordBits} {cw : Word} {o : Op} (h : selectRow cw = some o) :
    packetLength wb cw = operandCount wb o (bField cw) + 1 := by
  rw [packetLength_of_selectRow h]
  cases o <;> simp only [operandCount, Op.format] <;> omega

theorem decodePacket_commandWord {wb : WordBits} {o : Op} {a : BitVec 8} {b : BitVec 16} {operands : List Word}
    (ha : o.aMustBeZero = true → a = 0) (hb : o.bMustBeZero = true → b = 0)
    (hlen : operands.length = operandCount wb o b) :
    decodePacket wb (commandWord o.code a b :: operands) = assemble wb o (commandWord o.code a b) operands := by
  have hsel := selectRow_commandWord o a b ha hb
  refine decodePacket_of_selectRow hsel ?_
  rw [packetLength_eq_operandCount hsel, bField_commandWord, hlen]

theorem decodeInput_commandWord {wb : WordBits} {i : Instr} (o : Op) (a : BitVec 8) (b : BitVec 16)
    (operands : List Word) (ha : o.aMustBeZero = true → a = 0) (hb : o.bMustBeZero = true → b = 0)
    (hlen : operands.length = operandCount wb o b)
    (hi : assemble wb o (commandWord o.code a b) operands = .ok i) :
    decodeInput wb (.packet (commandWord o.code a b :: operands)) = .ok i :=
  (decodePacket_commandWord ha hb hlen).trans hi

/-- The words of `n` chunks hold `n` chunks that fit, and are those chunks' words. -/
theorem exists_chunks {wb : WordBits} {ws : List Word} {n : Nat} (h : ws.length = n * wb.words) :
    ∃ chunks, chunksOfWords wb ws = some chunks ∧ chunks.length = n ∧ chunks.all wb.fits = true ∧
      chunks.flatMap (wordsOfChunk wb) = ws := by
  obtain ⟨chunks, hchunks, hcount⟩ := chunksOfWords_isSome wb ws n h
  exact ⟨chunks, hchunks, hcount, flatMap_chunksOfWords wb ws chunks hchunks⟩

/-- A legal packet assembles to a well-formed operation whose encoding is that packet. -/
theorem assemble_spec {wb : WordBits} {o : Op} {a : BitVec 8} {b : BitVec 16} {operands : List Word}
    (ha : o.aMustBeZero = true → a = 0) (hb : o.bMustBeZero = true → b = 0)
    (hlen : operands.length = operandCount wb o b) :
    ∃ i, assemble wb o (commandWord o.code a b) operands = .ok i ∧ i.wf wb = true ∧
      encode wb i = .packet (commandWord o.code a b :: operands) := by
  cases o with
  | start | resume | isIdle | isAvail | decode =>
    obtain rfl := ha rfl
    obtain rfl := hb rfl
    obtain rfl := List.eq_nil_of_length_eq_zero hlen
    exact ⟨_, rfl, rfl, rfl⟩
  | rdsr | rdraw | toMicros =>
    obtain rfl := ha rfl
    obtain rfl := List.eq_nil_of_length_eq_zero hlen
    exact ⟨_, rfl, rfl, by rw [encode, bField_commandWord]; rfl⟩
  | rddesc =>
    obtain rfl := List.eq_nil_of_length_eq_zero hlen
    exact ⟨_, rfl, rfl, by rw [encode, aField_commandWord, bField_commandWord]; rfl⟩
  | tryDec =>
    obtain rfl := hb rfl
    obtain rfl := List.eq_nil_of_length_eq_zero hlen
    exact ⟨_, rfl, rfl, by rw [encode, aField_commandWord]; rfl⟩
  | matchMark | matchSpace | matchExact =>
    obtain rfl := ha rfl
    obtain ⟨target, rfl⟩ := List.length_eq_one_iff.1 hlen
    exact ⟨_, rfl, rfl, by rw [encode, bField_commandWord]; rfl⟩
  | send =>
    obtain ⟨repeats, ws, rfl⟩ := List.exists_cons_of_length_eq_add_one (hlen.trans (Nat.add_comm _ _))
    have hws : ws.length = wb.chunkCount b.toNat * wb.words := by
      simpa [operandCount, Op.format, Nat.add_comm 1] using hlen
    obtain ⟨chunks, hchunks, hcount, hfits, hwords⟩ := exists_chunks hws
    refine ⟨.send a b repeats chunks, ?_, ?_, ?_⟩
    · simp [assemble, hchunks]
    · simp [Instr.wf, hcount, hfits]
    · rw [encode, hwords]; rfl
  | sendRaw =>
    obtain rfl := ha rfl
    have hcount : operands.length = b.toNat := hlen
    refine ⟨.sendRaw operands, rfl, ?_, ?_⟩
    · simpa [Instr.wf, hcount] using b.isLt
    · rw [encode, hcount, BitVec.ofNat_toNat, BitVec.setWidth_eq]; rfl
  | sendBi =>
    obtain rfl := ha rfl
    obtain ⟨unit, ws, rfl⟩ := List.exists_cons_of_length_eq_add_one (hlen.trans (Nat.add_comm _ _))
    have hws : ws.length = 1 * wb.words := by
      simpa [operandCount, Op.format, Nat.add_comm 1] using hlen
    obtain ⟨chunks, hchunks, hcount, hfits, hwords⟩ := exists_chunks hws
    obtain ⟨codeword, rfl⟩ := List.length_eq_one_iff.1 hcount
    refine ⟨.sendBi b unit codeword, ?_, ?_, ?_⟩
    · simp [assemble, hchunks]
    · simpa [Instr.wf] using hfits
    · rw [encode, ← hwords, List.flatMap_singleton]; rfl

/-- A packet whose row is selected and whose length is `L(CW)` is an operation, and that operation's encoding. -/
theorem decodePacket_spec {wb : WordBits} {cw : Word} {o : Op} {operands : List Word} (hsel : selectRow cw = some o)
    (hlen : (cw :: operands).length = packetLength wb cw) :
    ∃ i, decodePacket wb (cw :: operands) = .ok i ∧ i.wf wb = true ∧ encode wb i = .packet (cw :: operands) := by
  have hcount : operands.length = operandCount wb o (bField cw) := by
    rw [packetLength_eq_operandCount hsel, List.length_cons] at hlen
    exact Nat.succ.inj hlen
  obtain ⟨a, b, rfl, ha, hb⟩ := selectRow_iff_commandWord.1 hsel
  rw [bField_commandWord] at hcount
  rw [decodePacket_commandWord ha hb hcount]
  exact assemble_spec ha hb hcount

theorem decodePacket_illegal {wb : WordBits} {cw : Word} {operands : List Word}
    (h : selectRow cw = none ∨ (cw :: operands).length ≠ packetLength wb cw) :
    ∃ e, decodePacket wb (cw :: operands) = .error e := by
  cases hsel : selectRow cw with
  | none => exact ⟨.noRow, by simp only [decodePacket, hsel]⟩
  | some o =>
    have hlen := h.resolve_left (by simp [hsel])
    exact ⟨.wrongLength, by simp only [decodePacket, hsel, if_neg hlen]⟩

/-! ## Decoder and encoder are inverse -/

/-- Settles O2: the decoder accepts a packet only by a row and with its length, and such a packet is the encoding of
what it decodes to. -/
theorem encodeOfDecodeIsIdentity : Obligations.EncodeOfDecodeIsIdentity := by
  rintro wb (pin | _ | ⟨cw, operands⟩) i h
  · cases h
    exact ⟨rfl, rfl⟩
  · cases h
  · by_cases hlegal : selectRow cw = none ∨ (cw :: operands).length ≠ packetLength wb cw
    · obtain ⟨e, he⟩ := decodePacket_illegal hlegal
      rw [decodeInput, he] at h
      cases h
    · obtain ⟨hsome, hlen⟩ := not_or.1 hlegal
      obtain ⟨o, hsel⟩ := Option.ne_none_iff_exists'.1 hsome
      obtain ⟨j, hj, hwf, henc⟩ := decodePacket_spec hsel (not_not.1 hlen)
      rw [decodeInput, hj] at h
      cases h
      exact ⟨hwf, henc⟩

/-- Settles O1: row by row, the encoder's packet has the row's length, and its fields and words assemble to the operands
they were made of. -/
theorem decodeOfEncodeIsIdentity : Obligations.DecodeOfEncodeIsIdentity := by
  intro wb i hwf
  cases i with
  | tick pin => rfl
  | start => exact decodeInput_commandWord .start 0 0 [] (fun _ => rfl) (fun _ => rfl) rfl rfl
  | resume => exact decodeInput_commandWord .resume 0 0 [] (fun _ => rfl) (fun _ => rfl) rfl rfl
  | isIdle => exact decodeInput_commandWord .isIdle 0 0 [] (fun _ => rfl) (fun _ => rfl) rfl rfl
  | isAvail => exact decodeInput_commandWord .isAvail 0 0 [] (fun _ => rfl) (fun _ => rfl) rfl rfl
  | decode => exact decodeInput_commandWord .decode 0 0 [] (fun _ => rfl) (fun _ => rfl) rfl rfl
  | rdsr n => exact decodeInput_commandWord .rdsr 0 n [] (fun _ => rfl) nofun rfl (by simp [assemble])
  | rdraw idx => exact decodeInput_commandWord .rdraw 0 idx [] (fun _ => rfl) nofun rfl (by simp [assemble])
  | toMicros t => exact decodeInput_commandWord .toMicros 0 t [] (fun _ => rfl) nofun rfl (by simp [assemble])
  | rddesc slot word => exact decodeInput_commandWord .rddesc slot word [] nofun nofun rfl (by simp [assemble])
  | tryDec slot => exact decodeInput_commandWord .tryDec slot 0 [] nofun (fun _ => rfl) rfl (by simp [assemble])
  | matchMark ticks target =>
    exact decodeInput_commandWord .matchMark 0 ticks [target] (fun _ => rfl) nofun rfl (by simp [assemble])
  | matchSpace ticks target =>
    exact decodeInput_commandWord .matchSpace 0 ticks [target] (fun _ => rfl) nofun rfl (by simp [assemble])
  | matchExact ticks target =>
    exact decodeInput_commandWord .matchExact 0 ticks [target] (fun _ => rfl) nofun rfl (by simp [assemble])
  | send slot nbits repeats chunks =>
    obtain ⟨hcount, hfits⟩ : chunks.length = wb.chunkCount nbits.toNat ∧ chunks.all wb.fits = true := by
      simpa only [Instr.wf, Bool.and_eq_true, decide_eq_true_eq] using hwf
    refine decodeInput_commandWord .send slot nbits (repeats :: chunks.flatMap (wordsOfChunk wb)) nofun nofun ?_ ?_
    · rw [List.length_cons, length_flatMap_wordsOfChunk, hcount, Nat.add_comm]
      rfl
    · simp [assemble, chunksOfWords_flatMap wb chunks hfits]
  | sendRaw durations =>
    have hcount : durations.length < 2 ^ 16 := of_decide_eq_true hwf
    exact decodeInput_commandWord .sendRaw 0 (BitVec.ofNat 16 durations.length) durations (fun _ => rfl) nofun
      (by rw [operandCount, Op.format, BitVec.toNat_ofNat, Nat.mod_eq_of_lt hcount]) rfl
  | sendBi nbits unit codeword =>
    have hwords : chunksOfWords wb (wordsOfChunk wb codeword) = some [codeword] := by
      simpa using chunksOfWords_flatMap wb [codeword] (by simpa [Instr.wf] using hwf)
    refine decodeInput_commandWord .sendBi 0 nbits (unit :: wordsOfChunk wb codeword) (fun _ => rfl) nofun ?_ ?_
    · rw [List.length_cons, length_wordsOfChunk, Nat.add_comm]
      rfl
    · simp [assemble, hwords]

/-! ## Illegal packets (R97, R339) -/

/-- Settles O4: the decoder rejects such a packet, and the step answers a rejected packet with `rejectPacket`. -/
theorem illegalPacketsAnswerBadCommand : Obligations.IllegalPacketsAnswerBadCommand := by
  intro s cw operands rest hc hp
  constructor
  · intro hillegal
    obtain ⟨e, he⟩ := decodePacket_illegal hillegal
    exact step_of_illegal_packet hc hp he
  · rintro ⟨⟨o, hsel⟩, hlen⟩
    obtain ⟨i, hi, -⟩ := decodePacket_spec hsel hlen
    exact ⟨i, hi⟩

/-! ## Responses (R94, R96, R330) -/

theorem responses_exec_tick {pin : Bool} {s t : State} (h : exec (.tick pin) s = .next t) :
    t.responses = s.responses := by
  obtain ⟨st, el, n, o, m, htick⟩ := exec_tick pin s
  rw [htick] at h
  cases h
  rfl

/-- Every operation but TICK appends one response that R96 and R330 allow. -/
theorem responses_exec {i : Instr} {s t : State} (hi : ∀ pin, i ≠ .tick pin) (h : exec i s = .next t) :
    ∃ r, t.responses = s.responses ++ [r] ∧ responseOk r = true := by
  rcases exec_cases h with ⟨pin, htick, -⟩ | ⟨-, rfl⟩ | ⟨-, rfl⟩ | ⟨-, st, v, rfl, hresp⟩ |
    ⟨-, st, df, last, rfl, hst⟩ | ⟨-, st, deg, car, evs, rfl, hst, -⟩
  · exact absurd htick (hi pin)
  · exact ⟨⟨.ok, 0⟩, by cases hrun : s.run <;> simp, rfl⟩
  · exact ⟨⟨.ok, 0⟩, by simp, rfl⟩
  · exact ⟨⟨st, v⟩, rfl, hresp⟩
  · exact ⟨⟨st, 0⟩, rfl, responseOk_zero hst⟩
  · exact ⟨⟨st, 0⟩, rfl, responseOk_zero hst⟩

/-- No packet is a TICK, since a TICK's encoding is an input of the other port. -/
theorem ne_tick_of_decodeInput_packet {wb : WordBits} {words : List Word} {i : Instr}
    (h : decodeInput wb (.packet words) = .ok i) (pin : Bool) : i ≠ .tick pin := by
  rintro rfl
  obtain ⟨-, henc⟩ := encodeOfDecodeIsIdentity wb _ _ h
  cases henc

/-- A packet's step appends one response that R96 and R330 allow. -/
theorem responses_step_packet {s t : State} {words : List Word} {rest : List PortInput}
    (hp : s.pending = .packet words :: rest) (h : step s = .next t) :
    ∃ r, t.responses = s.responses ++ [r] ∧ responseOk r = true := by
  obtain ⟨hc, -⟩ := step_cases h
  cases hd : decodeInput s.cfg.wordBits (.packet words) with
  | ok i =>
    rw [step_of_operation hc hp hd] at h
    exact responses_exec (s := { s with pending := rest }) (ne_tick_of_decodeInput_packet hd) h
  | error e =>
    rw [step_of_illegal_packet hc hp hd] at h
    cases h
    exact ⟨⟨.badCommand, 0⟩, rfl, rfl⟩

theorem responses_step_tick {s t : State} {pin : Bool} {rest : List PortInput}
    (hp : s.pending = .tick pin :: rest) (h : step s = .next t) : t.responses = s.responses := by
  obtain ⟨hc, -⟩ := step_cases h
  rw [step_of_operation hc hp rfl] at h
  exact responses_exec_tick (s := { s with pending := rest }) h

/-- The six responses there are, with the numbers of R330. -/
theorem status_of_responseOk {r : Response} (h : responseOk r = true) :
    (r.status = .ok ∧ r.rw0.toNat = 0x00) ∨
      (r.value = 0 ∧
        ((r.status = .noFrameAvailable ∧ r.rw0.toNat = 0x01) ∨ (r.status = .overflow ∧ r.rw0.toNat = 0x02) ∨
          (r.status = .decodeMismatch ∧ r.rw0.toNat = 0x03) ∨ (r.status = .badCommand ∧ r.rw0.toNat = 0x80) ∨
          (r.status = .badOperand ∧ r.rw0.toNat = 0x81))) := by
  obtain ⟨hreturned, hvalue⟩ : r.status.returned = true ∧ (r.status = .ok ∨ r.value = 0) := by
    simpa [responseOk] using h
  obtain ⟨st, v⟩ := r
  cases st with
  | ok => exact .inl ⟨rfl, rfl⟩
  | noFrameAvailable | overflow | decodeMismatch | badCommand | badOperand =>
    exact .inr ⟨hvalue.resolve_left nofun, by simp [Response.rw0, Status.code]⟩
  | parityFailed | classificationFailed | invalidRepeatConfiguration => cases hreturned

/-- Settles O9: a TICK is answered nothing; a packet, whether it is an operation or not, is answered once. -/
theorem oneResponsePerPacket : Obligations.OneResponsePerPacket := by
  intro s t inp rest hp h
  cases inp with
  | tick pin => exact responses_step_tick hp h
  | packet words =>
    obtain ⟨r, hr, hok⟩ := responses_step_packet hp h
    exact ⟨r, hr, rfl, status_of_responseOk hok⟩

end Sys2Proof.Proofs

/-! PROOFS. The round trip of SEND and TRYDEC (spec/42_decode_common.md R223) and the matcher
(spec/40_matcher.md R130 to R134). -/

namespace Sys2Proof.Proofs

open Sys2Proof Sys2Proof.Machine

/-! ## The timing of a pulse-distance or pulse-width slot (R39) -/

/-- Items 2 to 6 of R39 for a slot that SEND accepts. -/
theorem timing_of_slotWf {nwmax : Nat} {d : Slot} (h : slotWf nwmax d = true) (hconv : d.convention ≠ .biphase) :
    (1 ≤ d.bitCount.toNat ∧ d.bitCount.toNat ≤ 32 * nwmax) ∧
      (d.convention = .pulseDistance → d.oneMarkMicros = d.zeroMarkMicros ∧ hasTrailer d = true) ∧
      (d.convention = .pulseWidth → d.oneSpaceMicros = d.zeroSpaceMicros) ∧
      (d.repeatSignal ≠ none → hasTrailer d = true) := by
  simp only [slotWf, Bool.and_eq_true] at h
  obtain ⟨⟨⟨⟨-, hbits⟩, htiming⟩, hrepeat⟩, -⟩ := h
  refine ⟨?_, fun hpd => ?_, fun hpw => ?_, fun hr => ?_⟩
  · cases hc : d.convention with
    | pulseDistance | pulseWidth => simpa only [bitCountOk, hc, decide_eq_true_eq] using hbits
    | biphase => exact absurd hc hconv
  · simp only [timingOk, hpd, decide_eq_true_eq] at htiming
    obtain ⟨hmark, -, -, -, -, -, htrailer, -⟩ := htiming
    exact ⟨hmark, htrailer⟩
  · simp only [timingOk, hpw, decide_eq_true_eq] at htiming
    exact htiming.1
  · cases hsig : d.repeatSignal with
    | none => exact absurd hsig hr
    | some r =>
      simp only [repeatOk, hsig, Bool.and_eq_true] at hrepeat
      exact hrepeat.1.1

/-- No duration of such a slot is 0 (R39 items 3 and 4). -/
theorem micros_pos_of_slotWf {nwmax : Nat} {d : Slot} (h : slotWf nwmax d = true) (hconv : d.convention ≠ .biphase) :
    (0 < d.headerMarkMicros.toNat ∧ 0 < d.headerSpaceMicros.toNat) ∧
      (0 < d.oneMarkMicros.toNat ∧ 0 < d.zeroMarkMicros.toNat) ∧
      (0 < d.oneSpaceMicros.toNat ∧ 0 < d.zeroSpaceMicros.toNat) ∧
      ∀ tr, d.trailerMarkMicros = some tr → 0 < tr.toNat := by
  simp only [slotWf, Bool.and_eq_true] at h
  obtain ⟨⟨⟨-, htiming⟩, -⟩, -⟩ := h
  cases hc : d.convention with
  | pulseDistance =>
    simp only [timingOk, hc, decide_eq_true_eq] at htiming
    obtain ⟨hmark, hzm, hlt, hzs, hhm, hhs, -, htr⟩ := htiming
    refine ⟨⟨hhm, hhs⟩, ⟨by rw [hmark]; exact hzm, hzm⟩, ⟨by omega, hzs⟩, fun tr ht => ?_⟩
    simpa [trailerMicros, ht] using htr
  | pulseWidth =>
    simp only [timingOk, hc, decide_eq_true_eq] at htiming
    obtain ⟨hspace, hzs, hlt, hzm, hhm, hhs, htr⟩ := htiming
    refine ⟨⟨hhm, hhs⟩, ⟨by omega, hzm⟩, ⟨by rw [hspace]; exact hzs, hzs⟩, fun tr ht => ?_⟩
    simpa [trailerMicros, ht] using htr (by simp [hasTrailer, ht])
  | biphase => exact absurd hc hconv

/-! ## The pulses of a full frame, by place (R294) -/

/-- The mark of a bit, in microseconds. -/
def bitMark (d : Slot) (b : Bool) : Nat := if b then d.oneMarkMicros.toNat else d.zeroMarkMicros.toNat

/-- The space of a bit, in microseconds. -/
def bitSpace (d : Slot) (b : Bool) : Nat := if b then d.oneSpaceMicros.toNat else d.zeroSpaceMicros.toNat

@[simp] theorem bitMark_true (d : Slot) : bitMark d true = d.oneMarkMicros.toNat := rfl
@[simp] theorem bitMark_false (d : Slot) : bitMark d false = d.zeroMarkMicros.toNat := rfl
@[simp] theorem bitSpace_true (d : Slot) : bitSpace d true = d.oneSpaceMicros.toNat := rfl
@[simp] theorem bitSpace_false (d : Slot) : bitSpace d false = d.zeroSpaceMicros.toNat := rfl

theorem bitPulses_eq (d : Slot) (b : Bool) : bitPulses d b = [.mark (bitMark d b), .space (bitSpace d b)] := by
  cases b <;> rfl

theorem length_flatMap_bitPulses (d : Slot) (t : List Bool) : (t.flatMap (bitPulses d)).length = 2 * t.length := by
  simp [bitPulses_eq, Nat.mul_comm]

theorem length_trailerPulses (d : Slot) : (trailerPulses d).length = if hasTrailer d then 1 else 0 := by
  unfold trailerPulses hasTrailer
  cases d.trailerMarkMicros <;> rfl

theorem length_fullFrame (d : Slot) (t : List Bool) :
    (fullFrame d t).length = 2 + 2 * t.length + if hasTrailer d then 1 else 0 := by
  simp only [fullFrame, List.length_append, length_flatMap_bitPulses, length_trailerPulses, List.length_cons,
    List.length_nil]

/-- Bit `k` is the pulses `2k` and `2k + 1` of the bits. -/
theorem getElem?_flatMap_bitPulses (d : Slot) : ∀ (t : List Bool) (k : Nat), k < t.length →
    (t.flatMap (bitPulses d))[2 * k]? = some (.mark (bitMark d (t.getD k false))) ∧
      (t.flatMap (bitPulses d))[2 * k + 1]? = some (.space (bitSpace d (t.getD k false))) := by
  intro t
  induction t with
  | nil => intro k hk; exact absurd hk (Nat.not_lt_zero k)
  | cons b t ih =>
    intro k hk
    rw [List.flatMap_cons, bitPulses_eq]
    cases k with
    | zero => exact ⟨rfl, rfl⟩
    | succ k => exact ih k (Nat.lt_of_succ_lt_succ hk)

/-- The bits stand behind the two pulses of the header. -/
theorem getElem?_fullFrame_bits (d : Slot) {t : List Bool} {i : Nat} (hi : i < 2 * t.length) :
    (fullFrame d t)[i + 2]? = (t.flatMap (bitPulses d))[i]? := by
  have hlen := length_flatMap_bitPulses d t
  rw [fullFrame, List.append_assoc, List.cons_append, List.cons_append, List.getElem?_cons_succ,
    List.getElem?_cons_succ, List.nil_append, List.getElem?_append_left (by omega)]

theorem getElem?_fullFrame_mark (d : Slot) {t : List Bool} {k : Nat} (hk : k < t.length) :
    (fullFrame d t)[2 * k + 2]? = some (.mark (bitMark d (t.getD k false))) := by
  rw [getElem?_fullFrame_bits d (by omega)]
  exact (getElem?_flatMap_bitPulses d t k hk).1

theorem getElem?_fullFrame_space (d : Slot) {t : List Bool} {k : Nat} (hk : k < t.length) :
    (fullFrame d t)[2 * k + 3]? = some (.space (bitSpace d (t.getD k false))) := by
  rw [getElem?_fullFrame_bits d (i := 2 * k + 1) (by omega)]
  exact (getElem?_flatMap_bitPulses d t k hk).2

theorem getElem?_fullFrame_trailer {d : Slot} (t : List Bool) {tr : Word} (htr : d.trailerMarkMicros = some tr) :
    (fullFrame d t)[2 * t.length + 2]? = some (.mark tr.toNat) := by
  have hlen := length_flatMap_bitPulses d t
  rw [fullFrame, List.getElem?_append_right (by simp [hlen])]
  simp [hlen, trailerPulses, htr]

/-- Every pulse of a full frame of a well-formed slot is emitted (R291). -/
theorem emitted_fullFrame {nwmax : Nat} {d : Slot} (h : slotWf nwmax d = true) (hconv : d.convention ≠ .biphase)
    (t : List Bool) : emitted (fullFrame d t) = fullFrame d t := by
  obtain ⟨⟨hhm, hhs⟩, ⟨hom, hzm⟩, ⟨hos, hzs⟩, htr⟩ := micros_pos_of_slotWf h hconv
  refine emitted_eq_self fun p hp => ?_
  simp only [fullFrame, List.mem_append, List.mem_cons, List.not_mem_nil, or_false, List.mem_flatMap] at hp
  rcases hp with ((rfl | rfl) | ⟨b, -, hb⟩) | htrailer
  · exact hhm
  · exact hhs
  · rw [bitPulses_eq, List.mem_pair] at hb
    rcases hb with rfl | rfl <;> cases b
    · exact hzm
    · exact hom
    · exact hzs
    · exact hos
  · unfold trailerPulses at htrailer
    split at htrailer
    · exact absurd htrailer List.not_mem_nil
    · rw [List.mem_singleton] at htrailer
      subst htrailer
      exact htr _ ‹_›

/-! ## The frame that is captured (R158, R255) -/

theorem recordedPulses_prefix (pulses : List TxEvent) : recordedPulses pulses <+: pulses := by
  unfold recordedPulses
  split
  · exact List.dropLast_prefix pulses
  · exact List.prefix_refl pulses

/-- A full frame with a trailer is captured whole; without one its final space is not. -/
theorem length_recordedPulses_fullFrame (d : Slot) {t : List Bool} (ht : 1 ≤ t.length) :
    (recordedPulses (fullFrame d t)).length = if hasTrailer d then 2 * t.length + 3 else 2 * t.length + 1 := by
  have hlen := length_fullFrame d t
  cases htr : d.trailerMarkMicros with
  | none =>
    have hno : hasTrailer d = false := by simp [hasTrailer, htr]
    have hlast : (fullFrame d t).getLast? = some (.space (bitSpace d (t.getD (t.length - 1) false))) := by
      rw [List.getLast?_eq_getElem?, hlen, ← getElem?_fullFrame_space d (k := t.length - 1) (by omega), hno]
      exact congrArg _ (show 2 + 2 * t.length + 0 - 1 = _ by omega)
    simp only [recordedPulses, hlast, List.length_dropLast, hlen, hno, Bool.false_eq_true, if_false]
    omega
  | some tr =>
    have hyes : hasTrailer d = true := by simp [hasTrailer, htr]
    have hlast : (fullFrame d t).getLast? = some (.mark tr.toNat) := by
      rw [List.getLast?_eq_getElem?, hlen, ← getElem?_fullFrame_trailer t htr, hyes]
      exact congrArg _ (show 2 + 2 * t.length + 1 - 1 = _ by omega)
    simp only [recordedPulses, hlast, hlen, hyes, if_true]
    omega

/-- Entry `i + 1` of an accepted frame is accepted for pulse `i`. -/
theorem pulseAccepted_of_frameAccepted {pulses : List TxEvent} {s : State}
    (h : FrameAccepted (recordedPulses pulses) s) {i : Nat} {p : TxEvent} (hi : i + 1 < s.len)
    (hp : pulses[i]? = some p) : pulseAccepted s.cfg (s.entry (i + 1)) p = true := by
  obtain ⟨hlen, hacc⟩ := h
  have hrec : i < (recordedPulses pulses).length := by omega
  have hget : (recordedPulses pulses)[i] = p := by
    obtain ⟨hi', rfl⟩ := List.getElem?_eq_some_iff.1 hp
    exact (recordedPulses_prefix pulses).getElem hrec
  exact hget ▸ hacc i hrec

section
variable {d : Slot} {t : List Bool} {s : State} (ht : 1 ≤ t.length)
  (h : FrameAccepted (recordedPulses (fullFrame d t)) s)
include ht h

theorem len_of_frameAccepted : s.len = if hasTrailer d then 2 * t.length + 4 else 2 * t.length + 2 := by
  have hlen := h.1
  rw [length_recordedPulses_fullFrame d ht] at hlen
  split at hlen <;> simp only [if_true, Bool.false_eq_true, if_false, *]

theorem headerMatches_of_frameAccepted : headerMatches d s = true := by
  have hlen : 2 < s.len := by rw [len_of_frameAccepted ht h]; split <;> omega
  have hmark := pulseAccepted_of_frameAccepted h (i := 0) (by omega) rfl
  have hspace := pulseAccepted_of_frameAccepted h (i := 1) (by omega) rfl
  exact Bool.and_eq_true_iff.2 ⟨hmark, hspace⟩

theorem matchMark_of_frameAccepted {k : Nat} (hk : k < t.length) :
    matchMark s.cfg (s.entry (3 + 2 * k)) (bitMark d (t.getD k false)) = true := by
  have hlen : 2 * k + 3 < s.len := by rw [len_of_frameAccepted ht h]; split <;> omega
  rw [Nat.add_comm]
  exact pulseAccepted_of_frameAccepted h hlen (getElem?_fullFrame_mark d hk)

theorem matchSpace_of_frameAccepted {k : Nat} (hk : k < t.length) (hrec : k + 1 < t.length ∨ hasTrailer d = true) :
    matchSpace s.cfg (s.entry (4 + 2 * k)) (bitSpace d (t.getD k false)) = true := by
  have hlen : 2 * k + 4 < s.len := by
    rw [len_of_frameAccepted ht h]
    rcases hrec with hrec | hrec
    · split <;> omega
    · rw [if_pos hrec]; omega
  rw [Nat.add_comm]
  exact pulseAccepted_of_frameAccepted h hlen (getElem?_fullFrame_space d hk)

theorem matchTrailer_of_frameAccepted (htr : hasTrailer d = true) :
    matchMark s.cfg (s.entry (3 + 2 * t.length)) (trailerMicros d).toNat = true := by
  obtain ⟨tr, hsome⟩ := Option.isSome_iff_exists.1 htr
  have hlen : 2 * t.length + 3 < s.len := by rw [len_of_frameAccepted ht h, if_pos htr]; omega
  rw [Nat.add_comm, trailerMicros, hsome]
  exact pulseAccepted_of_frameAccepted h hlen (getElem?_fullFrame_trailer t hsome)

end

/-! ## When the two decoders give a bit list (R242, R257) -/

theorem pdBit_eq_some {d : Slot} {s : State} {k : Nat} {b : Bool} :
    pdBit d s k = some b ↔
      matchMark s.cfg (s.entry (3 + 2 * k)) d.oneMarkMicros.toNat = true ∧
        matchSpace s.cfg (s.entry (4 + 2 * k)) (bitSpace d b) = true ∧
        (b = false → matchSpace s.cfg (s.entry (4 + 2 * k)) d.oneSpaceMicros.toNat = false) := by
  unfold pdBit
  cases b <;> split_ifs <;> simp [*]

theorem pdBits_eq_some {d : Slot} {s : State} {c : List Bool} :
    pdBits d s = some c ↔
      s.len = 2 * d.bitCount.toNat + 4 ∧ headerMatches d s = true ∧
        (c.length = d.bitCount.toNat ∧ ∀ k, k < d.bitCount.toNat → pdBit d s k = some (c.getD k false)) ∧
        matchMark s.cfg (s.entry (3 + 2 * d.bitCount.toNat)) (trailerMicros d).toNat = true := by
  have hloop := collectBits_eq_some (f := pdBit d s) (n := d.bitCount.toNat) (k := 0) (bs := c)
  simp only [Nat.zero_add] at hloop
  rw [← hloop]
  unfold pdBits
  by_cases hlen : s.len = 2 * d.bitCount.toNat + 4
  · cases hh : headerMatches d s
    · simp [hlen]
    · cases hcol : collectBits (pdBit d s) 0 d.bitCount.toNat <;> simp [hlen, hcol, and_comm]
  · simp [hlen]

theorem pwMark_eq_some {d : Slot} {s : State} {k : Nat} {b : Bool} :
    pwMark d s k = some b ↔
      matchMark s.cfg (s.entry (3 + 2 * k)) (bitMark d b) = true ∧
        (b = false → matchMark s.cfg (s.entry (3 + 2 * k)) d.oneMarkMicros.toNat = false) := by
  unfold pwMark
  cases b <;> split_ifs <;> simp [*]

theorem pwBit_eq_some {d : Slot} {s : State} {k : Nat} {b : Bool} :
    pwBit d s k = some b ↔
      pwMark d s k = some b ∧
        (pwSpacePresent d k = true → matchSpace s.cfg (s.entry (4 + 2 * k)) d.oneSpaceMicros.toNat = true) := by
  unfold pwBit
  cases pwMark d s k <;> cases pwSpacePresent d k <;>
    cases matchSpace s.cfg (s.entry (4 + 2 * k)) d.oneSpaceMicros.toNat <;> simp

theorem pwBits_eq_some {d : Slot} {s : State} {c : List Bool} :
    pwBits d s = some c ↔
      s.len = pwLength d ∧ headerMatches d s = true ∧
        (c.length = d.bitCount.toNat ∧ ∀ k, k < d.bitCount.toNat → pwBit d s k = some (c.getD k false)) ∧
        (hasTrailer d = true →
          matchMark s.cfg (s.entry (3 + 2 * d.bitCount.toNat)) (trailerMicros d).toNat = true) := by
  have hloop := collectBits_eq_some (f := pwBit d s) (n := d.bitCount.toNat) (k := 0) (bs := c)
  simp only [Nat.zero_add] at hloop
  rw [← hloop]
  unfold pwBits
  by_cases hlen : s.len = pwLength d
  · cases hh : headerMatches d s
    · simp [hlen]
    · cases hcol : collectBits (pwBit d s) 0 d.bitCount.toNat <;> cases hasTrailer d <;>
        simp [hlen, hcol, and_comm]
  · simp [hlen]

/-! ## The round trip (R223) -/

section
variable {nwmax : Nat} {d : Slot} {t : List Bool} {s : State} (hwf : slotWf nwmax d = true)
  (ht : t.length = d.bitCount.toNat) (h : FrameAccepted (recordedPulses (fullFrame d t)) s)
include hwf ht h

theorem pdBits_of_frameAccepted (hconv : d.convention = .pulseDistance)
    (hzero : ∀ k, k < d.bitCount.toNat → t.getD k false = false →
      matchSpace s.cfg (s.entry (4 + 2 * k)) d.oneSpaceMicros.toNat = false) : pdBits d s = some t := by
  obtain ⟨⟨hn, -⟩, hpd, -⟩ := timing_of_slotWf hwf (by rw [hconv]; nofun)
  obtain ⟨hmark, htrailer⟩ := hpd hconv
  have hbitMark : ∀ b, bitMark d b = d.oneMarkMicros.toNat := fun b => by cases b <;> simp [hmark]
  rw [← ht] at hn
  have hlen := len_of_frameAccepted hn h
  rw [if_pos htrailer, ht] at hlen
  refine pdBits_eq_some.2 ⟨hlen, headerMatches_of_frameAccepted hn h, ⟨ht, fun k hk => ?_⟩, ?_⟩
  · have hk' : k < t.length := ht.symm ▸ hk
    exact pdBit_eq_some.2 ⟨hbitMark _ ▸ matchMark_of_frameAccepted hn h hk',
      matchSpace_of_frameAccepted hn h hk' (.inr htrailer), hzero k hk⟩
  · exact ht ▸ matchTrailer_of_frameAccepted hn h htrailer

theorem pwBits_of_frameAccepted (hconv : d.convention = .pulseWidth)
    (hzero : ∀ k, k < d.bitCount.toNat → t.getD k false = false →
      matchMark s.cfg (s.entry (3 + 2 * k)) d.oneMarkMicros.toNat = false) : pwBits d s = some t := by
  obtain ⟨⟨hn, -⟩, -, hpw, -⟩ := timing_of_slotWf hwf (by rw [hconv]; nofun)
  have hbitSpace : ∀ b, bitSpace d b = d.oneSpaceMicros.toNat := fun b => by
    cases b <;> simp [hpw hconv]
  rw [← ht] at hn
  have hlen := len_of_frameAccepted hn h
  rw [ht] at hlen
  refine pwBits_eq_some.2 ⟨hlen, headerMatches_of_frameAccepted hn h, ⟨ht, fun k hk => ?_⟩, fun htrailer => ?_⟩
  · have hk' : k < t.length := ht.symm ▸ hk
    refine pwBit_eq_some.2 ⟨pwMark_eq_some.2 ⟨matchMark_of_frameAccepted hn h hk', hzero k hk⟩, fun hpresent => ?_⟩
    rw [pwSpacePresent, ← ht, Bool.or_eq_true, decide_eq_true_eq] at hpresent
    exact hbitSpace _ ▸ matchSpace_of_frameAccepted hn h hk' hpresent
  · exact ht ▸ matchTrailer_of_frameAccepted hn h htrailer

/-- A slot with a repeat signal has a trailer (R39 item 6), so its full frames have more than the four entries of a
repeat frame (R208). -/
theorem isRepeatFrame_of_frameAccepted (hconv : d.convention ≠ .biphase) : isRepeatFrame d s = false := by
  obtain ⟨⟨hn, -⟩, -, -, htrailer⟩ := timing_of_slotWf hwf hconv
  rw [← ht] at hn
  cases hsig : d.repeatSignal with
  | none => simp only [isRepeatFrame, hsig]
  | some sig =>
    have hlen := len_of_frameAccepted hn h
    rw [if_pos (htrailer (by simp [hsig]))] at hlen
    have hne : s.len ≠ 4 := by omega
    simp [isRepeatFrame, hsig, hne]

end

/-- SEND without repeats, of a slot's own number of bits, emits one full frame (R296). -/
theorem exec_send_fullFrame {s : State} {slot : BitVec 8} {d : Slot} (chunks : List Chunk)
    (hd : s.cfg.dtab[slot.toNat]? = some d) (hwf : slotWf s.cfg.nwmax d = true) (hconv : d.convention ≠ .biphase) :
    ∃ t, exec (.send slot d.bitCount 0 chunks) s = .next t ∧
      t.txTrace = s.txTrace ++ .carrier d.frequencyKHz ::
        fullFrame d (txBits s.cfg.wordBits d.bitOrder chunks d.bitCount.toNat) := by
  obtain ⟨⟨hmin, hmax⟩, -⟩ := timing_of_slotWf hwf hconv
  have hok : ¬(d.convention = .biphase ∨ d.bitCount.toNat < 1 ∨ 32 * s.cfg.nwmax < d.bitCount.toNat) := by
    rintro (hbi | hlow | hhigh)
    · exact hconv hbi
    · omega
    · omega
  refine ⟨_, by simp only [exec, execSend, hd, if_neg hok]; rfl, ?_⟩
  simp [sendPulses, transmission, emitted_fullFrame hwf hconv]

/-- TRYDEC of a slot whose bits decode and whose layout cuts them (R202, R207). -/
theorem exec_tryDec_fullResult {s : State} {slot : BitVec 8} {d : Slot} {c : List Bool} {f : LayoutFields}
    (hstop : s.capState = .stop) (hovf : s.ovf = false) (hd : s.cfg.dtab[slot.toNat]? = some d)
    (hrepeat : isRepeatFrame d s = false) (hbits : conventionBits d s = some c) (hf : layoutFields d c = some f) :
    exec (.tryDec slot) s = .next (respond .ok 0 (writeFullResult d c f (clearDF s))) := by
  have hrepeat' : isRepeatFrame d (clearDF s) = false := hrepeat
  have hbits' : conventionBits d (clearDF s) = some c := 
    (conventionBits_congr (s := s) (t := clearDF s) rfl rfl rfl d).trans hbits
  simp [exec, execTryDec, hd, decodeWith, hstop, hovf, firstDecode, tryDecode, hrepeat', hbits', hf]

/-- Only RC5 rejects bits, and only for a first bit of 0 (R220). -/
theorem exists_layoutFields {d : Slot} {c : List Bool} (hrc5 : d.layout = .rc5 → c.getD 0 false = true) :
    ∃ f, layoutFields d c = some f := by
  cases hl : d.layout with
  | raw => exact ⟨rawFields, by simp only [layoutFields, hl]⟩
  | acpar => exact ⟨acparFields d.bitOrder c, by simp only [layoutFields, hl]⟩
  | rc5 => exact ⟨_, by simp only [layoutFields, hl, rc5Fields, if_pos (hrc5 hl)]; rfl⟩

/-- Settles O58: the frame decodes to the bits that were sent, and cutting those into chunks gives the chunks back. -/
theorem sendThenTryDecRoundTrip : Obligations.SendThenTryDecRoundTrip := by
  intro s s' r slot d chunks pulses hc hcfg hd hconv hchunks hrc5 hsend htrace hstop hovf hacc hzero
  have hwf := slotWf_of_configWf hc (List.mem_of_getElem? hd)
  have hpulses : pulses = fullFrame d (txBits s.cfg.wordBits d.bitOrder chunks d.bitCount.toNat) := by
    obtain ⟨u, hu, hutrace⟩ := exec_send_fullFrame chunks hd hwf hconv
    cases hu.symm.trans hsend
    simpa using htrace.symm.trans hutrace
  subst hpulses
  have ht := length_txBits s.cfg.wordBits d.bitOrder chunks d.bitCount.toNat
  have hbits : conventionBits d r = some (txBits s.cfg.wordBits d.bitOrder chunks d.bitCount.toNat) := by
    cases hd' : d.convention with
    | pulseDistance =>
      simp only [conventionBits, hd']
      exact pdBits_of_frameAccepted hwf ht hacc hd' fun k hk hb => (hzero k hk hb).1 hd'
    | pulseWidth =>
      simp only [conventionBits, hd']
      exact pwBits_of_frameAccepted hwf ht hacc hd' fun k hk hb => (hzero k hk hb).2 hd'
    | biphase => exact absurd hd' hconv
  obtain ⟨f, hf⟩ := exists_layoutFields hrc5
  have hraw : chunksOfBits r.cfg.wordBits d.bitOrder
      (txBits s.cfg.wordBits d.bitOrder chunks d.bitCount.toNat) = chunks := by
    rw [hcfg]; exact chunksOfBits_txBits d.bitOrder hchunks
  have hrepeat := isRepeatFrame_of_frameAccepted hwf ht hacc hconv
  exact ⟨_, f, exec_tryDec_fullResult hstop hovf (hcfg ▸ hd) hrepeat hbits hf,
    rfl, rfl, rfl, hraw, by simp, hf, rfl, rfl, rfl⟩

/-! ## The matcher (R130 to R134) -/

/-- The closed interval of R130. -/
theorem within_iff {c : Config} {m : Nat} {a : Int} :
    within c m a = true ↔
      a * (100 - (c.tol : Int)) ≤ 100 * (m : Int) * (c.dt : Int) ∧
        100 * (m : Int) * (c.dt : Int) ≤ a * (100 + (c.tol : Int)) := by
  rw [within, Bool.and_eq_true, decide_eq_true_eq, decide_eq_true_eq]

/-- The same interval in ticks: both of its ends divided by `100·DT`. -/
theorem within_iff_ceil_floor {c : Config} {m : Nat} {a : Int} (hdt : 1 ≤ c.dt) :
    within c m a = true ↔
      ⌈(a * (100 - c.tol) : ℚ) / (100 * c.dt)⌉ ≤ (m : Int) ∧
        (m : Int) ≤ ⌊(a * (100 + c.tol) : ℚ) / (100 * c.dt)⌋ := by
  have hpos : (0 : ℚ) < 100 * c.dt := by positivity
  have hswap : (m : ℚ) * (100 * c.dt) = 100 * m * c.dt := by ring
  rw [within_iff, Int.ceil_le, Int.le_floor, div_le_iff₀ hpos, le_div_iff₀ hpos, Int.cast_natCast, hswap]
  norm_cast

/-- For `DT = 50` and `TOL = 25` the interval is `3·a ≤ 200·m` and `40·m ≤ a`: `lo` is the least tick count that meets
the first inequality and `hi` the greatest that meets the second. -/
def areTickEnds (a : Int) (lo hi : Nat) : Bool :=
  decide (3 * a ≤ 200 * lo ∧ 200 * lo < 3 * a + 200) && decide (40 * hi ≤ a ∧ a < 40 * hi + 40)

section
variable {c : Config} (hdt : c.dt = 50) (htol : c.tol = 25)
include hdt htol

theorem within_iff_of_areTickEnds {m : Nat} {a : Int} {lo hi : Nat} (h : areTickEnds a lo hi = true) :
    within c m a = true ↔ lo ≤ m ∧ m ≤ hi := by
  rw [areTickEnds, Bool.and_eq_true, decide_eq_true_eq, decide_eq_true_eq] at h
  rw [within_iff, hdt, htol]
  omega

/-- The rows of a table of targets, with `corrected` the correction of each. -/
theorem within_iff_of_row (corrected : Nat → Int) (m : Nat) {rows : List (Nat × Nat × Nat)}
    (h : ∀ row ∈ rows, areTickEnds (corrected row.1) row.2.1 row.2.2 = true) :
    ∀ row ∈ rows, within c m (corrected row.1) = true ↔ row.2.1 ≤ m ∧ m ≤ row.2.2 :=
  fun row hrow => within_iff_of_areTickEnds hdt htol (h row hrow)

end

/-- Settles O37: the ends of the interval divided by `100·DT`, and each row of the table by its two ends. -/
theorem matcherTickBoundaries : Obligations.MatcherTickBoundaries := by
  refine ⟨fun c m a hc _ => ?_, fun c m hdt htol hexcess => ⟨?marks, ?spaces, ?exact⟩⟩
  · obtain ⟨⟨hdt, -⟩, -⟩ := ranges_of_configWf hc
    simpa only [Int.cast_natCast] using within_iff_ceil_floor (m := m) (a := (a : Int)) hdt
  case marks =>
    simp only [matchMark, hexcess]
    exact within_iff_of_row hdt htol (fun t => (t : Int) + (20 : Nat)) m (by decide)
  case spaces =>
    simp only [matchSpace, hexcess]
    exact within_iff_of_row hdt htol (fun t => (t : Int) - (20 : Nat)) m (by decide)
  case exact => exact within_iff_of_areTickEnds hdt htol (by decide)

/-- Settles O38: a negative target has a negative upper end, and the target 0 has the interval from 0 to 0 (R132). -/
theorem spaceTargetBelowCorrection : Obligations.SpaceTargetBelowCorrection := by
  intro c m t hc
  obtain ⟨⟨hdt, -⟩, -⟩ := ranges_of_configWf hc
  have hnonneg : 0 ≤ 100 * (m : Int) * c.dt := by positivity
  refine ⟨fun hlt => ?_, fun heq => ?_⟩
  · have hneg : ((t : Int) - c.markExcess) * (100 + c.tol) < 0 := mul_neg_of_neg_of_pos (by omega) (by omega)
    rw [← Bool.not_eq_true, matchSpace, within_iff]
    omega
  · have hzero : 100 * (m : Int) * c.dt = 0 ↔ m = 0 := by rw [mul_eq_zero, mul_eq_zero]; omega
    rw [matchSpace, within_iff, heq, sub_self, zero_mul, zero_mul, ← hzero]
    omega

/-- The value a matcher command answers. -/
theorem boolWord_within (c : Config) (m : Nat) (a : Int) :
    boolWord (within c m a) =
      if a * (100 - (c.tol : Int)) ≤ 100 * (m : Int) * (c.dt : Int) ∧
        100 * (m : Int) * (c.dt : Int) ≤ a * (100 + (c.tol : Int)) then (1 : Word) else 0 := by
  rw [boolWord]
  simp only [within_iff]

/-- Settles O36: each command answers its function's value, which decides the interval, and writes nothing else. -/
theorem matchCommandsDecideInterval : Obligations.MatchCommandsDecideInterval := by
  intro s m t answer
  have hrespond : ∀ a, respond .ok (boolWord (within s.cfg m.toNat a)) s =
      { s with responses := s.responses ++ [{ status := .ok, value := answer a }] } := fun a => by
    rw [boolWord_within]
    rfl
  exact ⟨congrArg _ (hrespond _), congrArg _ (hrespond _), congrArg _ (hrespond _)⟩

end Sys2Proof.Proofs

/-! PROOFS. The statements about the capture unit and the commands that read it (spec/41_capture_quantizer.md): the
transition table (R161), the durations it records (R163) and where a frame ends (R174), and what START, RESUME, the
polls, RDRAW and TOMICROS answer. -/

namespace Sys2Proof.Proofs

open Sys2Proof Sys2Proof.Machine

/-! ## The rows of R161 -/

section
variable {s : State} {e : Entry}

theorem captureTransition_idle_space (h : s.capState = .idle) :
    captureTransition .space e s = { s with elapsed := e } := by
  simp only [captureTransition, h]

/-- R153: the leading gap was long enough. -/
theorem captureTransition_idle_mark_gap (h : s.capState = .idle) (hgap : s.cfg.gapTicks ≤ e.toNat) :
    captureTransition .mark e s = startFrame e s := by
  simp only [captureTransition, h, if_pos hgap]

theorem captureTransition_idle_mark_short (h : s.capState = .idle) (hshort : e.toNat < s.cfg.gapTicks) :
    captureTransition .mark e s = { s with elapsed := 0 } := by
  simp only [captureTransition, h, if_neg (Nat.not_le.2 hshort)]

theorem captureTransition_mark_mark (h : s.capState = .mark) :
    captureTransition .mark e s = { s with elapsed := e } := by
  simp only [captureTransition, h]

theorem captureTransition_mark_space (h : s.capState = .mark) :
    captureTransition .space e s = pushEntry e .space s := by
  simp only [captureTransition, h]

theorem captureTransition_space_mark (h : s.capState = .space) :
    captureTransition .mark e s = pushEntry e .mark s := by
  simp only [captureTransition, h]

/-- R158: the space is too long to lie inside the frame. -/
theorem captureTransition_space_space_end (h : s.capState = .space) (hend : s.cfg.gapTicks < e.toNat) :
    captureTransition .space e s = { s with elapsed := e, capState := .stop } := by
  simp only [captureTransition, h, if_pos hend]

theorem captureTransition_space_space_inside (h : s.capState = .space) (hinside : e.toNat ≤ s.cfg.gapTicks) :
    captureTransition .space e s = { s with elapsed := e } := by
  simp only [captureTransition, h, if_neg (Nat.not_lt.2 hinside)]

theorem captureTransition_stop_mark (h : s.capState = .stop) :
    captureTransition .mark e s = { s with elapsed := 0 } := by
  simp only [captureTransition, h]

theorem captureTransition_stop_space (h : s.capState = .stop) :
    captureTransition .space e s = { s with elapsed := e } := by
  simp only [captureTransition, h]

/-! ## The capture registers after a row -/

theorem captureIs_elapsed {st : CapState} (h : s.capState = st) :
    CaptureIs { s with elapsed := e } st e.toNat s.len s.ovf s.entry :=
  ⟨h, rfl, rfl, rfl, fun _ => rfl⟩

theorem captureIs_frameEnd : CaptureIs { s with elapsed := e, capState := .stop } .stop e.toNat s.len s.ovf s.entry :=
  ⟨rfl, rfl, rfl, rfl, fun _ => rfl⟩

theorem captureIs_startFrame (hwf : Memory.wf s.rawbuf = true) :
    CaptureIs (startFrame e s) .mark 0 1 false fun a => if a = 0 then e.toNat else s.entry a :=
  ⟨rfl, rfl, rfl, rfl, entry_write hwf 0 e⟩

/-- R156, R157: a push that finds room. -/
theorem captureIs_pushEntry_room {next : CapState} (hwf : Memory.wf s.rawbuf = true) (hroom : s.len < s.cfg.rawCap) :
    CaptureIs (pushEntry e next s) next 0 (s.len + 1) s.ovf fun a => if a = s.len then e.toNat else s.entry a := by
  rw [pushEntry, if_pos hroom]
  exact ⟨rfl, rfl, rfl, rfl, entry_write hwf s.len e⟩

/-- R160: a push that finds none. -/
theorem captureIs_pushEntry_full {next : CapState} (hfull : s.len = s.cfg.rawCap) :
    CaptureIs (pushEntry e next s) .stop 0 s.len true s.entry := by
  rw [pushEntry, if_neg (by omega)]
  exact ⟨rfl, rfl, rfl, rfl, fun _ => rfl⟩

end

/-! ## One TICK -/

/-- A TICK on a running unit is one transition on the level of its pin, after the increment (R150 to R152). -/
theorem exec_tick_of_run {s : State} (hrun : s.run = true) {pin : Bool} {l : Level} (hl : levelOf s.cfg pin = l) :
    exec (.tick pin) s = .next (captureTransition l (satInc s.cfg.tickBits s.elapsed) s) := by
  simp only [exec, execTick, hrun, if_true, tickRunning, hl]

/-- No operation but RESUME and START leaves STOP (R77): a TICK there moves the counter, and the others write no
capture register. -/
theorem capState_exec_stop {i : Instr} {s t : State} (h : exec i s = .next t) (hstop : s.capState = .stop) :
    t.capState = .stop ∨ i = .resume ∨ i = .start := by
  rcases exec_cases h with ⟨pin, rfl, -⟩ | ⟨hstart, -⟩ | ⟨hresume, -⟩ | ⟨-, st, v, rfl, -⟩ |
    ⟨-, st, df, last, rfl, -⟩ | ⟨-, st, deg, car, evs, rfl, -⟩
  · obtain ⟨e, htick⟩ := exec_tick_stop pin hstop
    cases htick.symm.trans h
    exact .inl hstop
  · exact .inr (.inr hstart)
  · exact .inr (.inl hresume)
  · exact .inl hstop
  · exact .inl hstop
  · exact .inl hstop

/-- Settles O26: row by row, the transition the table gives, and what it leaves in the capture registers. -/
theorem tickFollowsTransitionTable : Obligations.TickFollowsTransitionTable := by
  refine ⟨fun i s t h hstop hleft => (capState_exec_stop h hstop).resolve_left hleft, ?_⟩
  intro s pin hrun hwf hbits e isMark pushed
  have he : (satInc s.cfg.tickBits s.elapsed).toNat = e := toNat_satInc hbits s.elapsed
  have hmark : isMark = true → levelOf s.cfg pin = .mark := fun h => if_pos h
  have hspace : isMark = false → levelOf s.cfg pin = .space := fun h => if_neg (Bool.not_eq_true _ ▸ h)
  have htick := exec_tick_of_run (pin := pin) hrun rfl
  obtain ⟨hrun', hresults, htransmit, hinputs, hresp, -⟩ := tickWritesOnlyCapture pin s _ hwf htick
  refine ⟨_, htick, hrun'.trans hrun, hresults, htransmit, hinputs, hresp, ?_⟩
  simp only [pushed, ← he]
  refine ⟨fun hst hm => ?_, fun hst hm hgap => ?_, fun hst hm hshort => ?_, fun hst hm => ?_, fun hst hm hroom => ?_,
    fun hst hm hfull => ?_, fun hst hm hroom => ?_, fun hst hm hfull => ?_, fun hst hm hend => ?_,
    fun hst hm hinside => ?_, fun hst hm => ?_, fun hst hm => ?_⟩
  · rw [hspace hm, captureTransition_idle_space hst]; exact captureIs_elapsed hst
  · rw [hmark hm, captureTransition_idle_mark_gap hst hgap]; exact captureIs_startFrame hwf
  · rw [hmark hm, captureTransition_idle_mark_short hst hshort]; exact captureIs_elapsed hst
  · rw [hmark hm, captureTransition_mark_mark hst]; exact captureIs_elapsed hst
  · rw [hspace hm, captureTransition_mark_space hst]; exact captureIs_pushEntry_room hwf hroom
  · rw [hspace hm, captureTransition_mark_space hst]; exact captureIs_pushEntry_full hfull
  · rw [hmark hm, captureTransition_space_mark hst]; exact captureIs_pushEntry_room hwf hroom
  · rw [hmark hm, captureTransition_space_mark hst]; exact captureIs_pushEntry_full hfull
  · rw [hspace hm, captureTransition_space_space_end hst hend]; exact captureIs_frameEnd
  · rw [hspace hm, captureTransition_space_space_inside hst hinside]; exact captureIs_elapsed hst
  · rw [hmark hm, captureTransition_stop_mark hst]; exact captureIs_elapsed hst
  · rw [hspace hm, captureTransition_stop_space hst]; exact captureIs_elapsed hst

/-! ## Runs of TICKs of one level -/

/-- The counter after `n` samples from 0 (R152, R163). -/
def sampleCount (tickBits n : Nat) : Entry := BitVec.ofNat 16 (min n (2 ^ tickBits - 1))

theorem toNat_sampleCount {tickBits : Nat} (hbits : tickBits ≤ 16) (n : Nat) :
    (sampleCount tickBits n).toNat = min n (2 ^ tickBits - 1) := by
  have hpow : 2 ^ tickBits ≤ 2 ^ 16 := Nat.pow_le_pow_right (by omega) hbits
  have hpos : 0 < 2 ^ tickBits := Nat.two_pow_pos _
  rw [sampleCount, BitVec.toNat_ofNat, Nat.mod_eq_of_lt (by omega)]

/-- One more sample counts one more. -/
theorem satInc_sampleCount {tickBits : Nat} (hbits : tickBits ≤ 16) (n : Nat) :
    satInc tickBits (sampleCount tickBits n) = sampleCount tickBits (n + 1) := by
  rw [satInc, toNat_sampleCount hbits, sampleCount]
  congr 1
  omega

/-- The longest space inside a frame is counted without saturation (R4, R174). -/
theorem toNat_sampleCount_of_le {c : Config} (hc : configWf c = true) {n : Nat} (hn : n ≤ c.gapTicks + 1) :
    (sampleCount c.tickBits n).toNat = n := by
  obtain ⟨-, -, -, ⟨-, hbits⟩, ⟨hpos, hgap⟩, -, -, -⟩ := ranges_of_configWf hc
  rw [toNat_sampleCount hbits]
  omega

theorem runInstrs_answers (is : List Instr) : ∀ s : State, ∃ t, runInstrs is s = .next t := by
  induction is with
  | nil => exact fun s => ⟨s, rfl⟩
  | cons i is ih =>
    intro s
    obtain ⟨u, hu⟩ := exec_answers i s
    simpa only [runInstrs, hu] using ih u

/-- The state `s` after `n` samples that only counted. -/
abbrev withSamples (n : Nat) (s : State) : State := { s with elapsed := sampleCount s.cfg.tickBits n }

section
variable {s : State} (hbits : s.cfg.tickBits ≤ 16) (hrun : s.run = true) (h0 : s.elapsed = 0)
include hbits hrun

theorem exec_tick_withSamples (l : Level) (n : Nat) :
    exec (.tick (pinOf s.cfg l)) (withSamples n s) =
      .next (captureTransition l (sampleCount s.cfg.tickBits (n + 1)) (withSamples n s)) := by
  rw [← satInc_sampleCount hbits n]
  exact exec_tick_of_run (s := withSamples n s) hrun (levelOf_pinOf s.cfg l)

include h0

/-- Samples of a level that only moves the counter, up to a limit, are counted. -/
theorem runInstrs_ticksAt_count {l : Level} {limit : Nat}
    (hcount : ∀ n < limit, captureTransition l (sampleCount s.cfg.tickBits (n + 1)) (withSamples n s) =
      withSamples (n + 1) s) :
    ∀ j ≤ limit, runInstrs (ticksAt s.cfg l j) s = .next (withSamples j s) := by
  intro j
  induction j with
  | zero =>
    intro _
    have hzero : sampleCount s.cfg.tickBits 0 = s.elapsed := by rw [h0, sampleCount, Nat.zero_min]; rfl
    rw [withSamples, hzero]
    rfl
  | succ j ih =>
    intro hj
    rw [ticksAt, List.replicate_succ']
    exact runInstrs_snoc (ih (by omega)) ((exec_tick_withSamples hbits hrun l j).trans (congrArg _ (hcount j hj)))

/-- `n` samples that are counted and one more that pushes: the entry pushed is the number of samples (R163). -/
theorem runInstrs_count_push {l l' : Level} {next : CapState} {n : Nat} (hwf : Memory.wf s.rawbuf = true)
    (hroom : s.len < s.cfg.rawCap)
    (hcount : ∀ m < n, captureTransition l (sampleCount s.cfg.tickBits (m + 1)) (withSamples m s) =
      withSamples (m + 1) s)
    (hpush : ∀ e, captureTransition l' e (withSamples n s) = pushEntry e next (withSamples n s)) :
    ∃ t, runInstrs (ticksAt s.cfg l n ++ ticksAt s.cfg l' 1) s = .next t ∧
      CaptureIs t next 0 (s.len + 1) s.ovf
        fun a => if a = s.len then (sampleCount s.cfg.tickBits (n + 1)).toNat else s.entry a := by
  have hpushed := (exec_tick_withSamples hbits hrun l' n).trans (congrArg _ (hpush _))
  exact ⟨_, runInstrs_snoc (runInstrs_ticksAt_count hbits hrun h0 hcount n le_rfl) hpushed,
    captureIs_pushEntry_room (s := withSamples n s) hwf hroom⟩

end

/-- Inside a frame GAP_TICKS Space samples only count (R158). -/
theorem captureTransition_space_withSamples {s : State} (hc : configWf s.cfg = true) (hspace : s.capState = .space) :
    ∀ n < s.cfg.gapTicks, captureTransition .space (sampleCount s.cfg.tickBits (n + 1)) (withSamples n s) =
      withSamples (n + 1) s := by
  intro n hn
  have hinside : (sampleCount s.cfg.tickBits (n + 1)).toNat ≤ s.cfg.gapTicks := by
    rw [toNat_sampleCount_of_le hc (by omega)]
    exact hn
  exact captureTransition_space_space_inside (s := withSamples n s) hspace hinside

/-- Settles O27: a mark counts without a limit, and a space as long as it lies inside the frame. -/
theorem recordedDurationIsSampleCount : Obligations.RecordedDurationIsSampleCount := by
  intro s k hc hwf hrun h0 hroom hk
  obtain ⟨-, -, -, ⟨-, hbits⟩, -⟩ := ranges_of_configWf hc
  obtain ⟨n, rfl⟩ := Nat.exists_eq_add_of_le' hk
  constructor
  · intro hmark
    rw [← toNat_sampleCount hbits (n + 1)]
    exact runInstrs_count_push hbits hrun h0 hwf hroom (fun _ _ => captureTransition_mark_mark hmark)
      fun _ => captureTransition_mark_space hmark
  · intro hspace hle
    have hrecorded := runInstrs_count_push hbits hrun h0 (n := n) hwf hroom
      (fun m hm => captureTransition_space_withSamples hc hspace m (by omega))
      fun _ => captureTransition_space_mark hspace
    rwa [toNat_sampleCount_of_le hc hle] at hrecorded

/-- Settles O28: GAP_TICKS samples are counted, and the next one ends the frame. -/
theorem frameEndsAfterGap : Obligations.FrameEndsAfterGap := by
  intro s j hc hrun hspace h0
  obtain ⟨-, -, -, ⟨-, hbits⟩, -⟩ := ranges_of_configWf hc
  have hcounted := runInstrs_ticksAt_count hbits hrun h0 (captureTransition_space_withSamples hc hspace)
  obtain ⟨t, ht⟩ := runInstrs_answers (ticksAt s.cfg .space j) s
  refine ⟨t, ht, fun hj => ?inside, fun hj => ?ended⟩
  case inside =>
    cases ht.symm.trans (hcounted j hj)
    exact ⟨hspace, toNat_sampleCount_of_le hc (by omega), rfl, rfl, fun _ => rfl⟩
  case ended =>
    subst hj
    have hend : (sampleCount s.cfg.tickBits (s.cfg.gapTicks + 1)).toNat = s.cfg.gapTicks + 1 :=
      toNat_sampleCount_of_le hc le_rfl
    have hlast := (exec_tick_withSamples hbits hrun .space s.cfg.gapTicks).trans
      (congrArg _ (captureTransition_space_space_end hspace (Nat.lt_of_succ_le hend.ge)))
    rw [ticksAt, List.replicate_succ'] at ht
    cases ht.symm.trans (runInstrs_snoc (hcounted _ le_rfl) hlast)
    exact ⟨rfl, hend, rfl, rfl, fun _ => rfl⟩

/-! ## The commands of the capture unit -/

/-- Settles O30: the first START initialises the capture registers; on a running unit START is RESUME, which writes the
capture state alone. -/
theorem startAndResume : Obligations.StartAndResume := by
  intro s
  refine ⟨fun hrun => ?_, fun hrun => ?_, ?_⟩
  · simp only [exec, execStart, hrun]
    rfl
  · simp only [exec, execStart, hrun, if_true, releaseFrame_eq]
    rfl
  · simp only [exec, execResume, releaseFrame_eq]
    rfl

theorem boolWord_capState_beq (a b : CapState) : boolWord (a == b) = if a = b then 1 else 0 := by
  simp only [boolWord, beq_iff_eq]

/-- Settles O31: each poll answers one comparison of the capture state. -/
theorem pollsReportState : Obligations.PollsReportState := by
  intro s
  simp only [exec, execIsIdle, execIsAvail, boolWord_capState_beq]
  exact ⟨rfl, rfl⟩

/-- Settles O33: the two sides of the bounds check of R172; zero-extension keeps the number. -/
theorem rdrawReturnsEntry : Obligations.RdrawReturnsEntry := by
  intro s i
  refine ⟨fun hin => ⟨(Memory.read s.rawbuf i.toNat).zeroExtend 32, ?_, if_neg (Nat.not_le.2 hin)⟩,
    fun hout => if_pos hout⟩
  exact BitVec.toNat_setWidth_of_le (by decide)

/-- Settles O35: both factors are below `2^16`, so the product does not wrap (R166). -/
theorem toMicrosIsExact : Obligations.ToMicrosIsExact := by
  intro s t hc
  obtain ⟨⟨-, hdt⟩, -⟩ := ranges_of_configWf hc
  have hlt : t.toNat * s.cfg.dt < 2 ^ 16 * 2 ^ 16 := Nat.mul_lt_mul'' t.isLt (by omega)
  exact ⟨_, (BitVec.toNat_ofNat ..).trans (Nat.mod_eq_of_lt hlt), rfl⟩

end Sys2Proof.Proofs

/-! PROOFS. The statements about what all conventions share (spec/42_decode_common.md): the frames of the control and
decode commands (R222, R345), where bits stand in chunks and fields (R216 to R220), what DECODE and TRYDEC answer and
write (R200 to R213, R221), and how a biphase transmission is read back (R223). -/

namespace Sys2Proof.Proofs

open Sys2Proof Sys2Proof.Machine

/-! ## The frames of START, RESUME, DECODE and TRYDEC (R222, R345) -/

theorem isDecode_iff {i : Instr} : isDecode i = true ↔ i = .decode ∨ ∃ n, i = .tryDec n := by
  cases i <;> simp [isDecode]

/-- Settles O17: START and RESUME write capture registers alone, and DECODE and TRYDEC the result registers. -/
theorem controlAndDecodeFrames : Obligations.ControlAndDecodeFrames := by
  intro i s t h
  refine ⟨?control, fun hi => ?decode⟩
  case control =>
    rintro (rfl | rfl) <;> cases h
    · cases s.run
      · exact ⟨⟨rfl, rfl⟩, ⟨rfl, rfl, rfl⟩, ⟨rfl, rfl⟩, fun _ => rfl⟩
      · rw [if_pos rfl, releaseFrame_eq]
        exact ⟨⟨rfl, rfl⟩, ⟨rfl, rfl, rfl⟩, ⟨rfl, rfl⟩, fun _ => rfl⟩
    · rw [releaseFrame_eq]
      exact ⟨⟨rfl, rfl⟩, ⟨rfl, rfl, rfl⟩, ⟨rfl, rfl⟩, fun _ => rfl⟩
  case decode =>
    obtain ⟨st, df, last, hdecode, -⟩ := exec_decode (isDecode_iff.2 hi) s
    cases hdecode.symm.trans h
    exact ⟨⟨rfl, rfl, rfl, rfl, rfl, fun _ => rfl⟩, ⟨rfl, rfl, rfl⟩, ⟨rfl, rfl⟩⟩

/-! ## Chunks (R215, R216) -/

section
variable {wb : WordBits} {c : List Bool} {j k : Nat}

theorem getLsbD_chunkAt_lsb (hk : k < min wb.bits (c.length - j * wb.bits)) :
    (chunkAt wb .lsbFirst c j).getLsbD k = c.getD (j * wb.bits + k) false := by
  rw [BitVec.getLsbD, toNat_chunkAt, testBit_orderedNat_lsb, getD_chunkBits wb c hk]

theorem getLsbD_chunkAt_msb (hk : k < min wb.bits (c.length - j * wb.bits)) :
    (chunkAt wb .msbFirst c j).getLsbD (min wb.bits (c.length - j * wb.bits) - 1 - k) =
      c.getD (j * wb.bits + k) false := by
  have hbit := testBit_orderedNat_msb ((c.drop (j * wb.bits)).take wb.bits) (k := k) (by rwa [length_chunkBits])
  rwa [length_chunkBits, getD_chunkBits wb c hk, ← toNat_chunkAt] at hbit

theorem getLsbD_chunkAt_above {o : BitOrder} (hk : min wb.bits (c.length - j * wb.bits) ≤ k) :
    (chunkAt wb o c j).getLsbD k = false :=
  Nat.testBit_lt_two_pow ((toNat_chunkAt_lt wb o c j).trans_le (Nat.pow_le_pow_right Nat.two_pos hk))

end

/-- Settles O39: a chunk is the number of its bits in the slot's order, which fixes each bit of it. -/
theorem chunkBitPlacement : Obligations.ChunkBitPlacement := by
  intro wb o c
  refine ⟨?count, fun j k hj => ?bits⟩
  case count =>
    rw [length_chunksOfBits]
    cases wb <;> rfl
  case bits =>
    rw [List.getD_eq_getElem _ _ hj, getElem_chunksOfBits]
    refine ⟨fun hk ho => ?_, fun hk ho => ?_, getLsbD_chunkAt_above⟩ <;> subst ho
    · exact getLsbD_chunkAt_lsb hk
    · exact getLsbD_chunkAt_msb hk

/-! ## Fields and layouts (R217 to R220) -/

theorem bitsToNat_eq_sum (bs : List Bool) :
    bitsToNat bs = ∑ k ∈ Finset.range bs.length, (bs.getD k false).toNat * 2 ^ k := by
  induction bs with
  | nil => rfl
  | cons b bs ih =>
    have hweight : ∀ k, 2 * ((bs.getD k false).toNat * 2 ^ k) = ((b :: bs).getD (k + 1) false).toNat * 2 ^ (k + 1) :=
      fun k => by rw [List.getD_cons_succ, Nat.pow_succ]; ring
    rw [bitsToNat, ih, List.length_cons, Finset.sum_range_succ', Finset.mul_sum, Nat.add_comm]
    simp only [hweight, List.getD_cons_zero, Nat.pow_zero, Nat.mul_one]

/-- In MSB-first order the first bit received has the greatest weight. -/
theorem orderedNat_msb_eq_sum (bs : List Bool) :
    orderedNat .msbFirst bs = ∑ k ∈ Finset.range bs.length, (bs.getD k false).toNat * 2 ^ (bs.length - 1 - k) := by
  rw [orderedNat, bitsToNat_eq_sum, List.length_reverse, ← Finset.sum_range_reflect]
  refine Finset.sum_congr rfl fun k hk => ?_
  have hk : k < bs.length := Finset.mem_range.1 hk
  have hback : bs.length - 1 - (bs.length - 1 - k) = k := by omega
  simp [List.getD_eq_getElem?_getD, List.getElem?_reverse (show bs.length - 1 - k < bs.length by omega), hback]

theorem getD_fieldBits (c : List Bool) (p : Nat) {w k : Nat} (hk : k < w) :
    ((c.drop p).take w).getD k false = c.getD (p + k) false := by
  rw [List.getD_eq_getElem?_getD, List.getElem?_take_of_lt hk, List.getElem?_drop, ← List.getD_eq_getElem?_getD]

/-- Settles O41: the number of the field's bits in each order, as a sum over the bits. -/
theorem fieldIsWeightedSum : Obligations.FieldIsWeightedSum := by
  intro c p w hpw
  have hlen : ((c.drop p).take w).length = w := by
    rw [List.length_take, List.length_drop]
    omega
  have hbit : ∀ k ∈ Finset.range w, ((c.drop p).take w).getD k false = c.getD (p + k) false :=
    fun k hk => getD_fieldBits c p (Finset.mem_range.1 hk)
  constructor
  · rw [field, orderedNat, bitsToNat_eq_sum, hlen]
    exact Finset.sum_congr rfl fun k hk => by rw [hbit k hk]
  · rw [field, orderedNat_msb_eq_sum, hlen]
    exact Finset.sum_congr rfl fun k hk => by rw [hbit k hk]

theorem field_lt (o : BitOrder) (c : List Bool) (p w : Nat) : field o c p w < 2 ^ w :=
  (orderedNat_lt o _).trans_le (Nat.pow_le_pow_right Nat.two_pos (by simp))

/-- A field of at most 16 bits is kept whole in its register. -/
theorem toNat_ofNat_field (o : BitOrder) (c : List Bool) (p : Nat) {w : Nat} (hw : w ≤ 16) :
    (BitVec.ofNat 16 (field o c p w)).toNat = field o c p w :=
  Nat.mod_eq_of_lt ((field_lt o c p w).trans_le (Nat.pow_le_pow_right Nat.two_pos hw))

/-- The parity test of R219 on numbers of 8 bits. -/
theorem complementFails_iff {x y : Nat} (hx : x < 2 ^ 8) (hy : y < 2 ^ 8) :
    complementFails x y = true ↔ x ^^^ y ≠ 0xFF := by
  rw [complementFails, bne_iff_ne, ne_eq, ← BitVec.toNat_inj, BitVec.toNat_xor, BitVec.toNat_ofNat, BitVec.toNat_ofNat,
    Nat.mod_eq_of_lt hx, Nat.mod_eq_of_lt hy]
  rfl

/-- Settles O42: each layout by its definition, with fields that fit their registers; a parity failure only sets its
flag in the full result. -/
theorem layoutsCutFields : Obligations.LayoutsCutFields := by
  refine ⟨?delivered, fun d c => ⟨fun hl => ?raw, fun hl _ => ?acpar, fun hl _ => ⟨fun hstart => ?rc5Mismatch,
    fun hstart => ?rc5⟩⟩⟩
  case delivered =>
    intro s slot d c f hstop hovf hd _ hrepeat hbits hf hparity
    exact ⟨_, exec_tryDec_fullResult hstop hovf hd hrepeat hbits hf, rfl, rfl,
      (flagParityFailed_dfFlags ..).trans hparity, rfl, rfl, rfl⟩
  case raw => simp only [layoutFields, hl, rawFields]
  case acpar =>
    refine ⟨acparFields d.bitOrder c, by simp only [layoutFields, hl],
      toNat_ofNat_field (w := 8) _ _ _ (by decide), toNat_ofNat_field (w := 8) _ _ _ (by decide), rfl, rfl, ?_⟩
    rw [acparFields, Bool.or_eq_true, complementFails_iff (field_lt ..) (field_lt ..),
      complementFails_iff (field_lt ..) (field_lt ..)]
  case rc5Mismatch => simp only [layoutFields, hl, rc5Fields, hstart, Bool.false_eq_true, if_false]
  case rc5 =>
    refine ⟨_, by simp only [layoutFields, hl, rc5Fields, if_pos hstart]; rfl,
      toNat_ofNat_field (w := 5) _ _ _ (by decide), toNat_ofNat_field (w := 6) _ _ _ (by decide), ?_, rfl, rfl⟩
    cases c.getD 1 false <;> rfl

/-! ## What DECODE and TRYDEC answer (R201 to R203) -/

theorem exec_tryDec_of_slot {s : State} {slot : BitVec 8} {d : Slot} (hd : s.cfg.dtab[slot.toNat]? = some d) :
    exec (.tryDec slot) s = .next (decodeWith [d] (clearDF s)) := by
  simp only [exec, execTryDec, hd]

/-- DECODE, and TRYDEC of a slot below NDEC, try some slots after clearing the result registers. -/
theorem exec_decode_eq_decodeWith {i : Instr} {s : State}
    (hi : i = .decode ∨ ∃ k : BitVec 8, i = .tryDec k ∧ k.toNat < s.cfg.ndec) :
    ∃ slots, exec i s = .next (decodeWith slots (clearDF s)) := by
  rcases hi with rfl | ⟨k, rfl, hk⟩
  · exact ⟨s.cfg.dtab, rfl⟩
  · exact ⟨_, exec_tryDec_of_slot (List.getElem?_eq_getElem hk)⟩

/-- The other TRYDECs are refused before anything is written (R202). -/
theorem exec_decode_cases {i : Instr} {s t : State} (hi : isDecode i = true) (h : exec i s = .next t) :
    t = raise .badOperand s ∨ ∃ slots, t = decodeWith slots (clearDF s) := by
  rcases isDecode_iff.1 hi with rfl | ⟨k, rfl⟩
  · cases h
    exact .inr ⟨_, rfl⟩
  · cases hd : s.cfg.dtab[k.toNat]? with
    | none =>
      simp only [exec, execTryDec, hd] at h
      cases h
      exact .inl rfl
    | some d =>
      cases (exec_tryDec_of_slot hd).symm.trans h
      exact .inr ⟨_, rfl⟩

theorem decodeWith_of_not_stop {slots : List Slot} {s : State} (hstop : s.capState ≠ .stop) :
    decodeWith slots s = raise .noFrameAvailable s := if_pos hstop

theorem decodeWith_of_overflow {slots : List Slot} {s : State} (hstop : s.capState = .stop) (hovf : s.ovf = true) :
    decodeWith slots s = raise .overflow { s with df := { s.df with flags := overflowFlags } } := by
  rw [decodeWith, if_neg (not_not.2 hstop), if_pos hovf]

/-- Settles O51: the two checks come before any slot is tried. -/
theorem decodeChecksAvailabilityThenOverflow : Obligations.DecodeChecksAvailabilityThenOverflow := by
  intro i s hi
  obtain ⟨slots, h⟩ := exec_decode_eq_decodeWith hi
  rw [h]
  refine ⟨fun hstop => ?_, fun hstop hovf => ?_⟩
  · rw [decodeWith_of_not_stop (s := clearDF s) hstop]
    rfl
  · rw [decodeWith_of_overflow (s := clearDF s) hstop hovf]
    rfl

theorem responses_tryDecode {d : Slot} {s t : State} (h : tryDecode d s = some t) : t.responses = s.responses := by
  rw [tryDecode_frame h]

section
variable {s : State} (hstop : s.capState = .stop) (hovf : s.ovf = false)
include hstop hovf

theorem decodeWith_of_firstDecode {slots : List Slot} {t : State} (h : firstDecode slots s = some t) :
    decodeWith slots s = respond .ok 0 t := by
  simp [decodeWith, hstop, hovf, h]

theorem decodeWith_of_mismatch {slots : List Slot} (h : ∀ d ∈ slots, tryDecode d s = none) :
    decodeWith slots s = raise .decodeMismatch s := by
  simp [decodeWith, hstop, hovf, firstDecode_eq_none.2 h]

/-- The slot's attempt succeeds. -/
theorem exec_tryDec_of_tryDecode {slot : BitVec 8} {d : Slot} {t : State} (hd : s.cfg.dtab[slot.toNat]? = some d)
    (h : tryDecode d (clearDF s) = some t) : exec (.tryDec slot) s = .next (respond .ok 0 t) := by
  rw [exec_tryDec_of_slot hd, decodeWith_of_firstDecode (s := clearDF s) hstop hovf]
  simp only [firstDecode, h]

/-- The slot's attempt fails. -/
theorem exec_tryDec_of_mismatch {slot : BitVec 8} {d : Slot} (hd : s.cfg.dtab[slot.toNat]? = some d)
    (h : tryDecode d (clearDF s) = none) : exec (.tryDec slot) s = .next (raise .decodeMismatch (clearDF s)) := by
  rw [exec_tryDec_of_slot hd, decodeWith_of_mismatch (s := clearDF s) hstop hovf (by simpa using h)]

/-- Some slot's attempt succeeds, and none before it. -/
theorem exec_decode_of_firstDecode {t : State} (h : firstDecode s.cfg.dtab (clearDF s) = some t) :
    exec .decode s = .next (respond .ok 0 t) :=
  congrArg _ (decodeWith_of_firstDecode (s := clearDF s) hstop hovf h)

/-- Every slot's attempt fails. -/
theorem exec_decode_of_mismatch (h : ∀ d ∈ s.cfg.dtab, tryDecode d (clearDF s) = none) :
    exec .decode s = .next (raise .decodeMismatch (clearDF s)) :=
  congrArg _ (decodeWith_of_mismatch (s := clearDF s) hstop hovf h)

end

/-- Settles O49: the chain of R200 gives the first slot's result, or none. -/
theorem decodeTakesFirstMatchingSlot : Obligations.DecodeTakesFirstMatchingSlot := by
  intro s hstop hovf
  refine ⟨fun before after d t htab hbefore hd => ?_, exec_decode_of_mismatch hstop hovf⟩
  rw [exec_decode_of_firstDecode hstop hovf (firstDecode_eq_some.2 ⟨before, d, after, htab, hbefore, hd⟩), respond,
    responses_tryDecode hd]
  rfl

/-- Settles O50: the slot at which the chain stops is the one whose TRYDEC answers OK, and its number fits the operand
since NDEC is at most 255 (R3). -/
theorem decodeIsTryDecInOrder : Obligations.DecodeIsTryDecInOrder := by
  intro s t hc hstop hovf h
  cases hfirst : firstDecode s.cfg.dtab (clearDF s) with
  | none =>
    have hnone := firstDecode_eq_none.1 hfirst
    cases (exec_decode_of_mismatch hstop hovf hnone).symm.trans h
    exact .inr ⟨rfl, fun j hj => exec_tryDec_of_mismatch hstop hovf (List.getElem?_eq_getElem hj)
      (hnone _ (List.getElem_mem hj))⟩
  | some u =>
    cases (exec_decode_of_firstDecode hstop hovf hfirst).symm.trans h
    obtain ⟨before, d, after, htab, hbefore, hd⟩ := firstDecode_eq_some.1 hfirst
    obtain ⟨-, -, -, -, -, -, -, hndec⟩ := ranges_of_configWf hc
    have hlen : before.length < s.cfg.ndec := by simp [Config.ndec, htab]
    have hk : (BitVec.ofNat 8 before.length).toNat = before.length := Nat.mod_eq_of_lt (by omega)
    refine .inl ⟨BitVec.ofNat 8 before.length, by rwa [hk], ?stops, ?ok, fun j hj => ?before⟩
    case stops => exact exec_tryDec_of_tryDecode hstop hovf (by simp [hk, htab]) hd
    case ok => rw [respond_responses, responses_tryDecode hd, clearDF_responses]
    case before =>
      rw [hk] at hj
      refine exec_tryDec_of_mismatch hstop hovf (d := before[j.toNat]) ?_ (hbefore _ (List.getElem_mem hj))
      rw [htab, List.getElem?_append_left hj, List.getElem?_eq_getElem hj]

/-! ## What is written (R206 to R213) -/

theorem exec_tryDec_repeatResult {s : State} {slot : BitVec 8} {d : Slot} (hstop : s.capState = .stop)
    (hovf : s.ovf = false) (hd : s.cfg.dtab[slot.toNat]? = some d) (hrepeat : isRepeatFrame d s = true) :
    exec (.tryDec slot) s = .next (respond .ok 0 (writeRepeatResult d (clearDF s))) :=
  exec_tryDec_of_tryDecode hstop hovf hd (if_pos hrepeat)

/-- Settles O47: the frame passes the repeat test, and a repeat result has `isRepeat` and the bit order as its flags. -/
theorem repeatFrameCopiesLast : Obligations.RepeatFrameCopiesLast := by
  intro s slot d r tr hstop hovf hd hsignal htrailer hlen hmark hspace htrailerMark
  have hrepeat : isRepeatFrame d s = true := by
    simp [isRepeatFrame, trailerMicros, hsignal, htrailer, hlen, hmark, hspace, htrailerMark]
  have hflags : dfFlags true false false false false d.bitOrder =
      if d.bitOrder = .msbFirst then 0b100001 else 0b000001 := by
    cases d.bitOrder <;> rfl
  rw [exec_tryDec_repeatResult hstop hovf hd hrepeat, writeRepeatResult, hflags]
  rfl

/-- Settles O48: the full result, and its flags one by one. -/
theorem fullDecodeWritesResult : Obligations.FullDecodeWritesResult := by
  intro s slot d c f hstop hovf hd hrepeat hbits hf
  refine ⟨dfFlags false (autoRepeat s.cfg d s) f.parityFailed f.extraInfoPresent false d.bitOrder,
    exec_tryDec_fullResult hstop hovf hd hrepeat hbits hf, flagIsRepeat_dfFlags .., ?gap, flagParityFailed_dfFlags ..,
    flagExtraInfoPresent_dfFlags .., flagOverflow_dfFlags .., ?order⟩
  case gap => exact (Bool.eq_iff_iff.1 (flagIsAutoRepeat_dfFlags ..)).trans decide_eq_true_iff
  case order => exact (Bool.eq_iff_iff.1 (flagBitOrder_dfFlags ..)).trans beq_iff_eq

/-- A decode that changes LAST is a full one (R210). -/
theorem decodeWith_last {slots : List Slot} {s : State} (h : (decodeWith slots s).last ≠ s.last) :
    ∃ d c f, decodeWith slots s = respond .ok 0 (writeFullResult d c f s) := by
  rcases decodeWith_cases slots s with ⟨-, ht⟩ | ⟨-, -, ht⟩ | ⟨-, -, -, ht⟩ | ⟨-, -, u, hu, ht⟩ <;> rw [ht] at h
  · exact absurd rfl h
  · exact absurd rfl h
  · exact absurd rfl h
  · obtain ⟨-, d, -, -, -, hd⟩ := firstDecode_eq_some.1 hu
    rcases tryDecode_eq_some hd with ⟨-, rfl⟩ | ⟨-, c, f, -, -, rfl⟩
    · exact absurd rfl h
    · exact ⟨d, c, f, ht⟩

theorem last_exec_of_not_isDecode {i : Instr} {s t : State} (hi : isDecode i ≠ true) (h : exec i s = .next t) :
    t.last = s.last := by
  rcases exec_cases h with ⟨pin, -, st, el, n, o, m, rfl⟩ | ⟨-, rfl⟩ | ⟨-, rfl⟩ | ⟨-, st, v, rfl, -⟩ |
    ⟨hdecode, -⟩ | ⟨-, st, deg, car, evs, rfl, -⟩
  · rfl
  · cases hrun : s.run <;> simp
  · simp
  · rfl
  · exact absurd hdecode hi
  · rfl

/-- Settles O52: only a decode command can change LAST, and of its ends only the full decode does. -/
theorem lastWrittenOnlyByFullDecode : Obligations.LastWrittenOnlyByFullDecode := by
  intro i s t h hlast
  have hi : isDecode i = true := not_not.1 fun hi => hlast (last_exec_of_not_isDecode hi h)
  refine ⟨isDecode_iff.1 hi, ?_⟩
  rcases exec_decode_cases hi h with rfl | ⟨slots, rfl⟩
  · exact absurd rfl hlast
  · obtain ⟨d, c, f, hfull⟩ := decodeWith_last (s := clearDF s) hlast
    rw [hfull]
    exact ⟨rfl, flagIsRepeat_dfFlags .., rfl⟩

/-! ## DECODE issued twice (R221) -/

/-- An attempt that succeeded gives the same result again: it reads what it does not write, and a repeat result copies
the LAST registers that it leaves. -/
theorem tryDecode_again {d : Slot} {s t : State} (h : tryDecode d s = some t) :
    tryDecode d (clearDF (respond .ok 0 t)) = some (respond .ok 0 t) := by
  rcases tryDecode_eq_some h with ⟨hrepeat, rfl⟩ | ⟨hrepeat, c, f, hbits, hf, rfl⟩
  · exact if_pos hrepeat
  · have hrepeat' : isRepeatFrame d (clearDF (respond .ok 0 (writeFullResult d c f s))) = false := hrepeat
    have hbits' : conventionBits d (clearDF (respond .ok 0 (writeFullResult d c f s))) = some c := by
      rw [← hbits]
      apply conventionBits_congr <;> rfl
    simp only [tryDecode, hrepeat', hbits', hf]
    rfl

theorem firstDecode_again {slots : List Slot} {s t : State} (h : firstDecode slots s = some t) :
    firstDecode slots (clearDF (respond .ok 0 t)) = some (respond .ok 0 t) := by
  obtain ⟨before, d, after, hslots, hbefore, hd⟩ := firstDecode_eq_some.1 h
  refine firstDecode_eq_some.2 ⟨before, d, after, hslots, fun p hp => ?_, tryDecode_again hd⟩
  refine (tryDecode_none_congr (s := s) ?_ ?_ ?_ p).2 (hbefore p hp) <;> rw [tryDecode_frame hd] <;> rfl

theorem firstDecode_frame {slots : List Slot} {s t : State} (h : firstDecode slots s = some t) :
    ∃ df last, t = { s with df := df, last := last } := by
  obtain ⟨-, d, -, -, -, hd⟩ := firstDecode_eq_some.1 h
  exact ⟨t.df, t.last, tryDecode_frame hd⟩

/-- Settles O53: each of the four ends of DECODE is reached again, and with the same result registers. -/
theorem decodeIsIdempotent : Obligations.DecodeIsIdempotent := by
  intro s t r h hr
  cases h
  rcases decodeWith_cases s.cfg.dtab (clearDF s) with ⟨hstop, ht⟩ | ⟨hstop, hovf, ht⟩ | ⟨hstop, hovf, hnone, ht⟩ |
    ⟨hstop, hovf, u, hu, ht⟩ <;> rw [ht] at hr ⊢
  · cases List.append_cancel_left hr
    exact congrArg _ (decodeWith_of_not_stop (s := clearDF (raise .noFrameAvailable (clearDF s))) hstop)
  · cases List.append_cancel_left hr
    exact congrArg _ (decodeWith_of_overflow
      (s := clearDF (raise .overflow { clearDF s with df := { DecodedFrame.cleared with flags := overflowFlags } }))
      hstop hovf)
  · cases List.append_cancel_left hr
    have hagain : ∀ d ∈ s.cfg.dtab, tryDecode d (clearDF (raise .decodeMismatch (clearDF s))) = none := fun d hd =>
      (tryDecode_none_congr (s := clearDF s) (t := clearDF (raise .decodeMismatch (clearDF s))) rfl rfl rfl d).2
        (firstDecode_eq_none.1 hnone d hd)
    exact exec_decode_of_mismatch (s := raise .decodeMismatch (clearDF s)) hstop hovf hagain
  · obtain ⟨df, last, rfl⟩ := firstDecode_frame hu
    cases List.append_cancel_left hr
    refine congrArg _ (decodeWith_of_firstDecode ?_ ?_ (firstDecode_again hu))
    · exact hstop
    · exact hovf

/-! ## The half-units of a captured biphase frame (R272 to R274) -/

theorem readHalves_append {d : Slot} {s : State} {n : Nat} {c₂ c₃ : Cursor} {ls' : List Level}
    (hrest : readHalves d s n c₂ = some (ls', c₃)) : ∀ {m : Nat} {c₁ : Cursor} {ls : List Level},
    readHalves d s m c₁ = some (ls, c₂) → readHalves d s (m + n) c₁ = some (ls ++ ls', c₃) := by
  intro m
  induction m with
  | zero =>
    intro c₁ ls h
    cases h
    simpa using hrest
  | succ m ih =>
    intro c₁ ls h
    simp only [readHalves, Option.bind_eq_some_iff, Option.map_eq_some_iff] at h
    obtain ⟨⟨l, c⟩, hl, ⟨ls₀, c₀⟩, hls, hcons⟩ := h
    cases hcons
    rw [Nat.add_right_comm]
    simp [readHalves, hl, ih hls]

/-- Past the end every half-unit is a virtual Space (R274). -/
theorem readHalves_past_end {d : Slot} {s : State} {cur : Cursor} (h : s.len ≤ cur.off) :
    ∀ n, readHalves d s n cur = some (List.replicate n .space, cur) := by
  intro n
  induction n with
  | zero => rfl
  | succ n ih => simp [readHalves, nextHalf_past_end h, ih, List.replicate_succ]

/-- The half-units that are left of one entry of width `used + k`, after which the cursor is at the next entry. -/
theorem readHalves_entry {d : Slot} {s : State} {off w : Nat} (hlt : off < s.len)
    (hw : entryWidth s.cfg (halfUnit d) (entryLevel off) (s.entry off) = some w) :
    ∀ {k used : Nat}, 1 ≤ k → used + k = w →
      readHalves d s k ⟨off, used⟩ = some (List.replicate k (entryLevel off), ⟨off + 1, 0⟩) := by
  intro k
  induction k with
  | zero => intro used hk; omega
  | succ k ih =>
    intro used _ hsum
    have hnext := nextHalf_of_entryWidth (d := d) (cur := ⟨off, used⟩) hlt hw
    cases k with
    | zero => simp [readHalves, hnext, ← hsum]
    | succ k =>
      rw [if_neg (by simp only; omega)] at hnext
      rw [readHalves, hnext, List.replicate_succ]
      simp [ih (used := used + 1) (by omega) (by omega)]

/-- The half-units of a list of runs, laid end to end. -/
def halvesOfRuns (rs : List (Level × Nat)) : List Level := rs.flatMap fun r => List.replicate r.2 r.1

theorem halvesOfRuns_runs (ls : List Level) : halvesOfRuns (runs ls) = ls := flatMap_runs ls

theorem entryLevel_succ_eq {i : Nat} {l : Level} (h : l ≠ entryLevel i) : entryLevel (i + 1) = l := by
  rcases Nat.mod_two_eq_zero_or_one i with hi | hi <;> cases l <;>
    simp_all [entryLevel, Nat.add_mod]

/-- Entries with the widths of alternating runs are read as those runs' half-units. -/
theorem readHalves_runs {d : Slot} {s : State} : ∀ {rs : List (Level × Nat)} {off : Nat},
    rs.IsChain (fun a b => a.1 ≠ b.1) → (∀ r ∈ rs.head?, r.1 = entryLevel off) → off + rs.length ≤ s.len →
    (∀ i (h : i < rs.length),
      entryWidth s.cfg (halfUnit d) (entryLevel (off + i)) (s.entry (off + i)) = some rs[i].2) →
    readHalves d s (halvesOfRuns rs).length ⟨off, 0⟩ = some (halvesOfRuns rs, ⟨off + rs.length, 0⟩) := by
  intro rs
  induction rs with
  | nil => intros; rfl
  | cons r rs ih =>
    intro off hchain hhead hlen hwidth
    obtain ⟨l, w⟩ := r
    simp only [List.length_cons] at hlen hwidth
    have hl : l = entryLevel off := hhead (l, w) rfl
    have hw : entryWidth s.cfg (halfUnit d) (entryLevel off) (s.entry off) = some w := hwidth 0 (by omega)
    have hentry := readHalves_entry (d := d) (s := s) (by omega) hw (entryWidth_bounds hw).1 (Nat.zero_add w)
    have hnext : ∀ r ∈ rs.head?, r.1 = entryLevel (off + 1) := fun r hr =>
      (entryLevel_succ_eq fun heq => List.isChain_cons.1 hchain |>.1 r hr (hl.trans heq.symm)).symm
    have hrest := ih (off := off + 1) hchain.tail hnext (by omega) fun i h => by
      rw [Nat.add_right_comm]
      exact hwidth (i + 1) (by omega)
    have hread := readHalves_append hrest hentry
    rw [← hl] at hread
    simpa [halvesOfRuns, Nat.add_assoc, Nat.add_comm 1] using hread

/-! ## What is captured of a biphase transmission (R274, R275, R301) -/

theorem exists_runs_cons (l : Level) (ls : List Level) : ∃ k rs, runs (l :: ls) = (l, k) :: rs := by
  simp only [runs]
  split
  · exact ⟨_, _, rfl⟩
  · split
    · exact ⟨_, _, rfl⟩
    · exact ⟨_, _, rfl⟩

/-- A Space before a Mark is a run of its own. -/
theorem runs_space_mark (ls : List Level) :
    runs (.space :: .mark :: ls) = (.space, 1) :: runs (.mark :: ls) := by
  obtain ⟨k, rs, h⟩ := exists_runs_cons .mark ls
  rw [runs, h]
  rfl

/-- All runs behind the first are captured, or all but a final Space. -/
theorem recordedRuns_cons (r : Level × Nat) (rs : List (Level × Nat)) :
    ∃ k, recordedRuns (r :: rs) <+: rs ∧
      halvesOfRuns rs = halvesOfRuns (recordedRuns (r :: rs)) ++ List.replicate k .space := by
  unfold recordedRuns
  simp only [List.tail_cons]
  split
  · rename_i k hlast
    refine ⟨k, List.dropLast_prefix rs, ?_⟩
    obtain ⟨init, rfl⟩ := List.getLast?_eq_some_iff.1 hlast
    simp [halvesOfRuns]
  · exact ⟨0, List.prefix_refl rs, by simp⟩

/-- Of a Space half, a Mark half and the half-units `ls`, alternating runs from the Mark on are captured, and at most
Spaces at the end are not. -/
theorem recordedRuns_space_mark (ls : List Level) :
    ∃ w rs k, recordedRuns (runs (.space :: .mark :: ls)) = (.mark, w) :: rs ∧
      ((.mark, w) :: rs).IsChain (fun a b => a.1 ≠ b.1) ∧
      .mark :: ls = halvesOfRuns ((.mark, w) :: rs) ++ List.replicate k .space := by
  rw [runs_space_mark]
  obtain ⟨k, ⟨last, hprefix⟩, hhalves⟩ := recordedRuns_cons (.space, 1) (runs (.mark :: ls))
  rw [halvesOfRuns_runs] at hhalves
  have hchain := runs_isChain (.mark :: ls)
  rw [← hprefix] at hchain
  cases hrec : recordedRuns ((.space, 1) :: runs (.mark :: ls)) with
  | nil =>
    rw [hrec] at hhalves
    cases k <;> cases hhalves
  | cons r rs =>
    obtain ⟨w, rest, hruns⟩ := exists_runs_cons .mark ls
    rw [hrec, hruns, List.cons_append, List.cons.injEq] at hprefix
    obtain ⟨rfl, -⟩ := hprefix
    rw [hrec] at hchain hhalves
    exact ⟨w, rs, k, rfl, hchain.left_of_append, hhalves⟩

/-- What is read of a frame that was captured from a Space half, a Mark half, and the half-units `ls`. -/
theorem readHalves_of_runsRecorded {d : Slot} {s : State} {ls : List Level}
    (h : RunsRecorded (halfUnit d) (recordedRuns (runs (.space :: .mark :: ls))) s) :
    2 ≤ s.len ∧ readHalves d s (ls.length + 1) ⟨1, 0⟩ = some (.mark :: ls, ⟨s.len, 0⟩) := by
  obtain ⟨w, rs, k, hrec, hchain, hhalves⟩ := recordedRuns_space_mark ls
  rw [hrec] at h
  obtain ⟨hlen, hwidth⟩ := h
  have hrun := readHalves_runs (d := d) (s := s) (off := 1) hchain (by simp [entryLevel]) (by omega) fun i hi => by
    rw [Nat.add_comm]
    exact hwidth i hi
  rw [Nat.add_comm 1, ← hlen] at hrun
  have hread := readHalves_append (readHalves_past_end le_rfl k) hrun
  have hcount := congrArg List.length hhalves
  rw [List.length_cons, List.length_append, List.length_replicate] at hcount
  rw [hcount, hhalves]
  exact ⟨by rw [hlen, List.length_cons]; omega, hread⟩

/-- R275 to R277: the start bit's Mark half, the halves of the bits, and the end of the frame. -/
theorem biBits_of_readHalves {d : Slot} {s : State} {bits : List Bool} (hlen : 2 ≤ s.len)
    (hbits : bits.length = d.bitCount.toNat - 1)
    (h : readHalves d s ((bits.flatMap halvesOfBit).length + 1) ⟨1, 0⟩ =
      some (.mark :: bits.flatMap halvesOfBit, ⟨s.len, 0⟩)) : biBits d s = some bits := by
  have hcount : (bits.flatMap halvesOfBit).length = 2 * (d.bitCount.toNat - 1) := by
    rw [← hbits, List.length_flatMap]
    have htwo : ∀ b, (halvesOfBit b).length = 2 := by decide
    simp [htwo, Nat.mul_comm]
  rw [readHalves, Option.bind_eq_some_iff] at h
  obtain ⟨⟨l, cur⟩, hstart, hrest⟩ := h
  rw [Option.map_eq_some_iff] at hrest
  obtain ⟨⟨ls, cur'⟩, hread, hcons⟩ := hrest
  cases hcons
  have hcells := biCells_eq_some.2 ⟨hbits, hcount ▸ hread⟩
  simp [biBits, Nat.not_lt.2 hlen, hstart, hcells]

/-! ## The round trip of SENDBI and TRYDEC (R223) -/

/-- A biphase slot that R39 admits has a start bit and another, and no repeat signal (items 2 and 5). -/
theorem biphase_of_slotWf {nwmax : Nat} {d : Slot} (h : slotWf nwmax d = true) (hconv : d.convention = .biphase) :
    2 ≤ d.bitCount.toNat ∧ d.repeatSignal = none := by
  simp only [slotWf, Bool.and_eq_true] at h
  obtain ⟨⟨⟨⟨-, hbits⟩, htiming⟩, -⟩, -⟩ := h
  simp only [bitCountOk, timingOk, hconv, decide_eq_true_eq] at hbits htiming
  obtain ⟨-, -, -, -, -, -, -, hrepeat⟩ := htiming
  exact ⟨hbits.1, by simpa [hasRepeatSignal] using hrepeat⟩

/-- The bits of a codeword behind its start bit, in the order in which SENDBI sends them. -/
def biSentBits (codeword : Chunk) (n : Nat) : List Bool :=
  (List.range (n - 1)).map fun k => codeword.getLsbD (n - 2 - k)

@[simp] theorem length_biSentBits (codeword : Chunk) (n : Nat) : (biSentBits codeword n).length = n - 1 := by
  simp [biSentBits]

theorem biBitsToSend_eq_cons (codeword : Chunk) {n : Nat} (hn : 2 ≤ n) :
    biBitsToSend codeword n = codeword.getLsbD (n - 1) :: biSentBits codeword n := by
  obtain ⟨m, rfl⟩ : ∃ m, n = m + 1 := ⟨n - 1, by omega⟩
  simp only [biBitsToSend, biSentBits, List.range_succ_eq_map, List.map_cons, List.map_map, Nat.add_sub_cancel]
  congr 1
  exact List.map_congr_left fun k _ => congrArg codeword.getLsbD (show m - (k + 1) = m + 1 - 2 - k by omega)

theorem biBits_of_runsRecorded {d : Slot} {s : State} {codeword : Chunk} (hn : 2 ≤ d.bitCount.toNat)
    (hstart : codeword.getLsbD (d.bitCount.toNat - 1) = true)
    (h : RunsRecorded (halfUnit d)
      (recordedRuns (runs ((biBitsToSend codeword d.bitCount.toNat).flatMap halvesOfBit))) s) :
    biBits d s = some (biSentBits codeword d.bitCount.toNat) := by
  rw [biBitsToSend_eq_cons codeword hn, hstart] at h
  obtain ⟨hlen, hread⟩ := readHalves_of_runsRecorded h
  exact biBits_of_readHalves hlen (length_biSentBits ..) hread

/-- The codeword without its start bit is the one chunk of the bits sent behind it. -/
theorem chunksOfBits_biSentBits (codeword : Chunk) {wb : WordBits} {n : Nat} (hn : 2 ≤ n) (hW : n ≤ wb.bits) :
    chunksOfBits wb .msbFirst (biSentBits codeword n) = [BitVec.ofNat 64 (codeword.toNat % 2 ^ (n - 1))] := by
  have hW64 := bits_le wb
  have hlow : (BitVec.ofNat 64 (codeword.toNat % 2 ^ (n - 1))).toNat = codeword.toNat % 2 ^ (n - 1) :=
    Nat.mod_eq_of_lt ((Nat.mod_le _ _).trans_lt codeword.isLt)
  have hsent : biSentBits codeword n =
      txBits wb .msbFirst [BitVec.ofNat 64 (codeword.toNat % 2 ^ (n - 1))] (n - 1) := by
    refine List.map_congr_left fun k hk => ?_
    have hk : k < n - 1 := List.mem_range.1 hk
    have hdiv : k / wb.bits = 0 := Nat.div_eq_of_lt (by omega)
    have hmod : k % wb.bits = k := Nat.mod_eq_of_lt (by omega)
    have hmin : min wb.bits (n - 1 - 0 * wb.bits) = n - 1 := by omega
    have hbit : n - 1 - 1 - k < n - 1 := by omega
    rw [txBit]
    simp only [hdiv, hmod, hmin, List.getD_cons_zero]
    rw [BitVec.getLsbD, BitVec.getLsbD, hlow, Nat.testBit_mod_two_pow, decide_eq_true hbit, Bool.true_and]
    exact congrArg _ (show n - 2 - k = n - 1 - 1 - k by omega)
  rw [hsent]
  refine chunksOfBits_txBits .msbFirst ⟨?_, fun j hj => ?_⟩
  · cases wb <;> simp only [WordBits.bits, WordBits.chunkCount, List.length_singleton] at hW ⊢ <;> omega
  · obtain rfl : j = 0 := by simpa using hj
    have hmin : min wb.bits (n - 1 - 0 * wb.bits) = n - 1 := by omega
    rw [hmin, List.getElem_cons_zero, hlow]
    exact Nat.mod_lt _ (Nat.two_pow_pos _)

/-- Settles O59: the entries are read as the half-units that were sent, the merged Spaces as virtual ones, and these are
the halves of the codeword's bits behind the start bit. -/
theorem sendBiThenTryDecRoundTrip : Obligations.SendBiThenTryDecRoundTrip := by
  intro r slot d codeword hc hd hconv horder hW hstart hrc5 hstop hovf hrec
  obtain ⟨hn, hnorepeat⟩ := biphase_of_slotWf (slotWf_of_configWf hc (List.mem_of_getElem? hd)) hconv
  have hbits : conventionBits d r = some (biSentBits codeword d.bitCount.toNat) := by
    simp only [conventionBits, hconv]
    exact biBits_of_runsRecorded hn hstart hrec
  have hrepeat : isRepeatFrame d r = false := by simp only [isRepeatFrame, hnorepeat]
  obtain ⟨f, hf⟩ : ∃ f, layoutFields d (biSentBits codeword d.bitCount.toNat) = some f :=
    exists_layoutFields fun hl => by
      have hfirst : 0 < d.bitCount.toNat - 1 := by omega
      simpa [biSentBits, hfirst] using hrc5 hl
  have hnbits : (BitVec.ofNat 16 (biSentBits codeword d.bitCount.toNat).length).toNat = d.bitCount.toNat - 1 := by
    have := d.bitCount.isLt
    rw [length_biSentBits, BitVec.toNat_ofNat]
    omega
  have hraw := chunksOfBits_biSentBits codeword hn hW
  rw [← horder] at hraw
  exact ⟨_, f, exec_tryDec_fullResult hstop hovf hd hrepeat hbits hf, rfl, rfl, rfl, hnbits, hraw, hf, rfl, rfl, rfl⟩

end Sys2Proof.Proofs

/-! PROOFS. The statement about the pulse-distance decoder (spec/43_decode_pulse_distance.md): which frames it accepts
and which bits it reads (R242 to R245). -/

namespace Sys2Proof.Proofs

open Sys2Proof Sys2Proof.Machine

/-! ## What the pulse-distance decoder accepts (R242 to R245) -/

theorem headerMatches_iff {d : Slot} {s : State} :
    headerMatches d s = true ↔
      matchMark s.cfg (s.entry 1) d.headerMarkMicros.toNat = true ∧
        matchSpace s.cfg (s.entry 2) d.headerSpaceMicros.toNat = true :=
  Bool.and_eq_true_iff

/-- One is tested before zero (R244), so a space that both intervals hold is never read as a 0. -/
theorem pdBit_eq_some_iff_spaces {d : Slot} {s : State} {k : Nat} {b : Bool} :
    pdBit d s k = some b ↔
      matchMark s.cfg (s.entry (3 + 2 * k)) d.oneMarkMicros.toNat = true ∧
        (b = true → matchSpace s.cfg (s.entry (4 + 2 * k)) d.oneSpaceMicros.toNat = true) ∧
        (b = false →
          matchSpace s.cfg (s.entry (4 + 2 * k)) d.oneSpaceMicros.toNat = false ∧
          matchSpace s.cfg (s.entry (4 + 2 * k)) d.zeroSpaceMicros.toNat = true) := by
  rw [pdBit_eq_some]
  cases b with
  | true => simp
  | false => simp [and_comm]

/-- Settles O43: the conditions of `pdBits_eq_some`, with the header's two entries and each bit's mark and space
written out. -/
theorem pulseDistanceDecodesExactly : Obligations.PulseDistanceDecodesExactly := by
  intro d s c
  simp only [pdBits_eq_some, headerMatches_iff, pdBit_eq_some_iff_spaces, trailerMicros, and_assoc]

end Sys2Proof.Proofs

/-! PROOFS. The statement about the pulse-width decoder (spec/44_decode_pulse_width.md): which frames it accepts and
which bits it reads (R256 to R260). -/

namespace Sys2Proof.Proofs

open Sys2Proof Sys2Proof.Machine

/-! ## What the pulse-width decoder accepts (R256 to R260) -/

/-- One is tested before zero (R259), so a mark that both intervals hold is never read as a 0. -/
theorem pwMark_eq_some_iff_marks {d : Slot} {s : State} {k : Nat} {b : Bool} :
    pwMark d s k = some b ↔
      (b = true → matchMark s.cfg (s.entry (3 + 2 * k)) d.oneMarkMicros.toNat = true) ∧
        (b = false →
          matchMark s.cfg (s.entry (3 + 2 * k)) d.oneMarkMicros.toNat = false ∧
          matchMark s.cfg (s.entry (3 + 2 * k)) d.zeroMarkMicros.toNat = true) := by
  rw [pwMark_eq_some]
  cases b with
  | true => simp
  | false => simp [and_comm]

theorem pwSpacePresent_iff {d : Slot} {k : Nat} :
    pwSpacePresent d k = true ↔ k + 1 < d.bitCount.toNat ∨ d.trailerMarkMicros.isSome = true := by
  rw [pwSpacePresent, hasTrailer, Bool.or_eq_true, decide_eq_true_eq]

theorem pwLength_eq (d : Slot) :
    pwLength d =
      if d.trailerMarkMicros.isSome then 2 * d.bitCount.toNat + 4 else 2 * d.bitCount.toNat + 2 := rfl

/-- The trailer's test, with the trailer's width named rather than defaulted to 0. -/
theorem matchTrailer_iff {d : Slot} {cfg : Config} {m : Nat} :
    (hasTrailer d = true → matchMark cfg m (trailerMicros d).toNat = true) ↔
      ∀ t, d.trailerMarkMicros = some t → matchMark cfg m t.toNat = true := by
  rw [hasTrailer, trailerMicros]
  cases d.trailerMarkMicros with
  | none => simp
  | some t => simp

/-- Settles O44: the conditions of `pwBits_eq_some`, with the header's two entries, each bit's mark, the spaces that
are recorded and the optional trailer written out. -/
theorem pulseWidthDecodesExactly : Obligations.PulseWidthDecodesExactly := by
  intro d s c
  simp only [pwBits_eq_some, pwLength_eq, headerMatches_iff, pwBit_eq_some, pwMark_eq_some_iff_marks,
    pwSpacePresent_iff, matchTrailer_iff, and_assoc]

end Sys2Proof.Proofs

/-! PROOFS. The statements about the biphase decoder (spec/45_decode_biphase.md): which frames it accepts and which bits
it reads (R270 to R277), and that an entry of three half-units is never part of one (R279). -/

namespace Sys2Proof.Proofs

open Sys2Proof Sys2Proof.Machine

/-! ## The widths of a frame's entries (R272, R273) -/

/-- The width is the first multiple of the half-unit, of three, that matches. -/
theorem entryWidth_eq_some {c : Config} {u : Nat} {l : Level} {e w : Nat} :
    entryWidth c u l e = some w ↔
      1 ≤ w ∧ w ≤ 3 ∧ ∀ v, 1 ≤ v → v ≤ w → (matchLevel c l e (v * u) = true ↔ v = w) := by
  constructor
  · intro h
    obtain ⟨hpos, hle⟩ := entryWidth_bounds h
    refine ⟨hpos, hle, fun v hv hvw => ?_⟩
    unfold entryWidth at h
    split_ifs at h <;> cases h <;> interval_cases v <;> simp_all
  · rintro ⟨hpos, hle, hfirst⟩
    have hhit : matchLevel c l e (w * u) = true := (hfirst w hpos le_rfl).2 rfl
    have hmiss : ∀ v, 1 ≤ v → v < w → ¬ matchLevel c l e (v * u) = true := fun v hv hvw h =>
      hvw.ne ((hfirst v hv hvw.le).1 h)
    obtain rfl | rfl | rfl : w = 1 ∨ w = 2 ∨ w = 3 := by omega
    · rw [entryWidth, if_pos hhit]
    · rw [entryWidth, if_neg (hmiss 1 (by omega) (by omega)), if_pos hhit]
    · rw [entryWidth, if_neg (hmiss 1 (by omega) (by omega)), if_neg (hmiss 2 (by omega) (by omega)), if_pos hhit]

/-- The entries from index `off` to the end of the frame have the widths `ws`. -/
def EntryWidths (d : Slot) (s : State) (off : Nat) (ws : List Nat) : Prop :=
  off + ws.length = s.len ∧
    ∀ i (h : i < ws.length), entryWidth s.cfg (halfUnit d) (entryLevel (off + i)) (s.entry (off + i)) = some ws[i]

/-- The runs that the entries from index `off` on stand for when their widths are `ws`. -/
def entryRuns (off : Nat) (ws : List Nat) : List (Level × Nat) := ws.mapIdx fun i w => (entryLevel (off + i), w)

theorem entryRuns_cons (off w : Nat) (ws : List Nat) :
    entryRuns off (w :: ws) = (entryLevel off, w) :: entryRuns (off + 1) ws := by
  simp only [entryRuns, List.mapIdx_cons, Nat.add_zero, Nat.add_assoc, Nat.add_comm 1]

theorem entryWidths_nil {d : Slot} {s : State} {off : Nat} : EntryWidths d s off [] ↔ off = s.len := by
  simp [EntryWidths]

theorem EntryWidths.cons {d : Slot} {s : State} {off w : Nat} {ws : List Nat} (h : EntryWidths d s (off + 1) ws)
    (hw : entryWidth s.cfg (halfUnit d) (entryLevel off) (s.entry off) = some w) : EntryWidths d s off (w :: ws) := by
  obtain ⟨hlen, hwidth⟩ := h
  refine ⟨by rw [List.length_cons]; omega, fun i hi => ?_⟩
  cases i with
  | zero => exact hw
  | succ i =>
    have := hwidth i (by simpa using hi)
    rwa [Nat.add_right_comm] at this

theorem entryLevel_ne_succ (i : Nat) : entryLevel i ≠ entryLevel (i + 1) := by
  rcases Nat.mod_two_eq_zero_or_one i with h | h <;> simp [entryLevel, Nat.add_mod, h]

/-- Marks and spaces take turns (R25). -/
theorem entryRuns_isChain (off : Nat) (ws : List Nat) : (entryRuns off ws).IsChain fun a b => a.1 ≠ b.1 := by
  refine List.isChain_iff_getElem.2 fun i hi => ?_
  simp only [entryRuns, List.getElem_mapIdx]
  exact entryLevel_ne_succ (off + i)

/-! ## Reading a frame to its end (R272, R274) -/

/-- What is read from the start of an entry to the end of the frame: all entries, then virtual Spaces. -/
theorem readHalves_entryWidths {d : Slot} {s : State} {off : Nat} {ws : List Nat} (h : EntryWidths d s off ws)
    (k : Nat) :
    readHalves d s ((halvesOfRuns (entryRuns off ws)).length + k) ⟨off, 0⟩ =
      some (halvesOfRuns (entryRuns off ws) ++ List.replicate k .space, ⟨s.len, 0⟩) := by
  obtain ⟨hlen, hwidth⟩ := h
  have hruns : (entryRuns off ws).length = ws.length := List.length_mapIdx
  have hhead : ∀ r ∈ (entryRuns off ws).head?, r.1 = entryLevel off := by
    cases ws <;> simp [entryRuns]
  have hread := readHalves_runs (d := d) (s := s) (entryRuns_isChain off ws) hhead (by omega) fun i hi => by
    simpa [entryRuns] using hwidth i (by omega)
  rw [hruns, hlen] at hread
  exact readHalves_append (readHalves_past_end le_rfl k) hread

/-- The cursor stands at the start of an entry, or inside one of more half-units than are consumed (R271). -/
def CursorInside (d : Slot) (s : State) (cur : Cursor) : Prop :=
  cur.used = 0 ∨ cur.off < s.len ∧
    ∃ w, entryWidth s.cfg (halfUnit d) (entryLevel cur.off) (s.entry cur.off) = some w ∧ cur.used < w

theorem CursorInside.used_lt {d : Slot} {s : State} {cur : Cursor} {w : Nat} (h : CursorInside d s cur)
    (hw : entryWidth s.cfg (halfUnit d) (entryLevel cur.off) (s.entry cur.off) = some w) : cur.used < w := by
  obtain hzero | ⟨-, w', hw', hlt⟩ := h
  · exact hzero ▸ (entryWidth_bounds hw).1
  · cases hw.symm.trans hw'
    exact hlt

theorem CursorInside.used_eq_zero {d : Slot} {s : State} {cur : Cursor} (h : CursorInside d s cur)
    (hoff : cur.off = s.len) : cur.used = 0 :=
  h.resolve_right fun ⟨hlt, _⟩ => hlt.ne hoff

/-- A reading that stops at the end of the frame has read every entry, and behind them virtual Spaces only: together
with the half-units consumed before it, it is the runs of the entries and `k` Spaces. -/
theorem exists_entryWidths_of_readHalves {d : Slot} {s : State} : ∀ {n : Nat} {cur cur' : Cursor} {ls : List Level},
    readHalves d s n cur = some (ls, cur') → cur'.off = s.len → cur.off ≤ s.len → CursorInside d s cur →
    ∃ ws k, EntryWidths d s cur.off ws ∧
      List.replicate cur.used (entryLevel cur.off) ++ ls =
        halvesOfRuns (entryRuns cur.off ws) ++ List.replicate k .space := by
  intro n
  induction n with
  | zero =>
    intro cur cur' ls h hend hle hin
    cases h
    exact ⟨[], 0, entryWidths_nil.2 hend, by simp [hin.used_eq_zero hend, entryRuns, halvesOfRuns]⟩
  | succ n ih =>
    intro cur cur' ls h hend hle hin
    obtain hlt | hoff := hle.lt_or_eq
    · cases hw : entryWidth s.cfg (halfUnit d) (entryLevel cur.off) (s.entry cur.off) with
      | none => simp [readHalves, nextHalf_no_width hlt hw] at h
      | some w =>
        have hused := hin.used_lt hw
        rw [readHalves, nextHalf_of_entryWidth hlt hw, Option.bind_some, Option.map_eq_some_iff] at h
        obtain ⟨⟨ls', cur''⟩, hread, hcons⟩ := h
        cases hcons
        by_cases hlast : w ≤ cur.used + 1
        · obtain rfl : w = cur.used + 1 := by omega
          rw [if_pos hlast] at hread
          obtain ⟨ws, k, hws, hhalves⟩ := ih hread hend hlt (.inl rfl)
          refine ⟨(cur.used + 1) :: ws, k, hws.cons hw, ?_⟩
          rw [List.replicate_zero, List.nil_append] at hhalves
          rw [entryRuns_cons, halvesOfRuns, List.flatMap_cons, ← halvesOfRuns, List.append_assoc, ← hhalves,
            List.replicate_succ', List.append_assoc, List.singleton_append]
        · rw [if_neg hlast] at hread
          obtain ⟨ws, k, hws, hhalves⟩ := ih hread hend hle (.inr ⟨hlt, w, hw, by simp only; omega⟩)
          refine ⟨ws, k, hws, ?_⟩
          rw [← hhalves, List.replicate_succ', List.append_assoc, List.singleton_append]
    · rw [readHalves_past_end hoff.ge] at h
      cases h
      exact ⟨[], n + 1, entryWidths_nil.2 hoff, by simp [hin.used_eq_zero hoff, entryRuns, halvesOfRuns]⟩

/-! ## What the biphase decoder accepts (R275 to R277) -/

theorem halvesOfBit_ne (bit : Bool) : ∃ a b, halvesOfBit bit = [a, b] ∧ a ≠ b := by
  cases bit
  · exact ⟨.mark, .space, rfl, by simp⟩
  · exact ⟨.space, .mark, rfl, by simp⟩

/-- The half-units that `biBits` reads, and where it stops. -/
theorem readHalves_of_biBits {d : Slot} {s : State} {c : List Bool} (h : biBits d s = some c) :
    2 ≤ s.len ∧ c.length = d.bitCount.toNat - 1 ∧ ∃ n cur, cur.off = s.len ∧
      readHalves d s n ⟨1, 0⟩ = some (.mark :: c.flatMap halvesOfBit, cur) := by
  unfold biBits at h
  split at h
  · cases h
  next hlen =>
    split at h
    · cases h
    · cases h
    next cur hstart =>
      split at h
      · cases h
      next bits cur' hcells =>
        obtain ⟨hbits, hread⟩ := biCells_eq_some.1 hcells
        split at h
        next hend =>
          cases h
          exact ⟨by omega, hbits, 2 * (d.bitCount.toNat - 1) + 1, cur', hend, by simp [readHalves, hstart, hread]⟩
        · cases h

/-- Two equal half-units in a row lie in two cells, so the second half of the later cell follows and is different. -/
theorem exists_ne_of_equal_halves {l : Level} {rest : List Level} : ∀ {c : List Bool} {first : Level},
    l :: l :: rest <:+ first :: c.flatMap halvesOfBit → ∃ b rest', rest = b :: rest' ∧ b ≠ l := by
  intro c
  induction c with
  | nil =>
    intro first h
    simpa using h.length_le
  | cons bit c ih =>
    intro first h
    obtain ⟨a, b, hhalves, hne⟩ := halvesOfBit_ne bit
    rw [List.flatMap_cons, hhalves, List.cons_append, List.singleton_append, List.suffix_cons_iff,
      List.suffix_cons_iff] at h
    obtain h | h | h := h
    · cases h
      exact ⟨b, _, rfl, hne.symm⟩
    · cases h
      exact absurd rfl hne
    · exact ih h

/-- At most one Space is virtual: two of them would be equal halves of the last cell (R274). -/
theorem virtual_spaces_le_one {ls : List Level} {c : List Bool} {k : Nat}
    (h : ls ++ List.replicate k .space = .mark :: c.flatMap halvesOfBit) : k ≤ 1 := by
  by_contra hk
  obtain ⟨m, rfl⟩ : ∃ m, k = m + 2 := ⟨k - 2, by omega⟩
  obtain ⟨b, rest, hrest, hne⟩ := exists_ne_of_equal_halves ⟨ls, h⟩
  have hb : b ∈ List.replicate m Level.space := hrest ▸ List.mem_cons_self
  exact hne (List.eq_of_mem_replicate hb)

/-- No three half-units in a row are equal (R279). -/
theorem not_three_equal_halves {l : Level} {c : List Bool} :
    ¬ List.replicate 3 l <:+: .mark :: c.flatMap halvesOfBit := by
  rintro ⟨before, after, h⟩
  obtain ⟨b, rest, hrest, hne⟩ := exists_ne_of_equal_halves ⟨before, (List.append_assoc ..).symm.trans h⟩
  cases hrest
  exact hne rfl

/-- Laid end to end, the entries and at most one virtual Space are the start bit's Mark half and the bits' halves. -/
theorem biBits_eq_some {d : Slot} {s : State} {c : List Bool} :
    biBits d s = some c ↔
      c.length = d.bitCount.toNat - 1 ∧ ∃ ws, EntryWidths d s 1 ws ∧ ∃ k ≤ 1,
        halvesOfRuns (entryRuns 1 ws) ++ List.replicate k .space = .mark :: c.flatMap halvesOfBit := by
  constructor
  · intro h
    obtain ⟨hlen, hbits, n, cur, hend, hread⟩ := readHalves_of_biBits h
    obtain ⟨ws, k, hws, hhalves⟩ := exists_entryWidths_of_readHalves hread hend (by simp only; omega) (.inl rfl)
    rw [List.replicate_zero, List.nil_append] at hhalves
    exact ⟨hbits, ws, hws, k, virtual_spaces_le_one hhalves.symm, hhalves.symm⟩
  · rintro ⟨hbits, ws, hws, k, hk, hhalves⟩
    have hread := readHalves_entryWidths hws k
    have hcount := congrArg List.length hhalves
    rw [List.length_append, List.length_replicate, List.length_cons] at hcount
    rw [hcount, hhalves] at hread
    refine biBits_of_readHalves ?_ hbits hread
    obtain ⟨hlen, -⟩ := hws
    cases ws with
    | nil => cases k <;> cases hhalves
    | cons w ws => rw [← hlen, List.length_cons]; omega

/-! ## The statement's spelling of the widths and the half-units -/

theorem entryLevel_succ (i : Nat) : entryLevel (i + 1) = if i % 2 = 0 then .mark else .space := by
  unfold entryLevel
  exact if_congr (by omega) rfl rfl

theorem matchLevel_entryLevel_succ (c : Config) (i e t : Nat) :
    matchLevel c (entryLevel (i + 1)) e t = if i % 2 = 0 then matchMark c e t else matchSpace c e t := by
  rw [entryLevel_succ]
  split <;> rfl

theorem halvesOfRuns_entryRuns (ws : List Nat) :
    halvesOfRuns (entryRuns 1 ws) = (List.range ws.length).flatMap fun i =>
      List.replicate (ws.getD i 0) (if i % 2 = 0 then Level.mark else .space) := by
  have hruns : entryRuns 1 ws = (List.range ws.length).map fun i => (entryLevel (i + 1), ws.getD i 0) := by
    refine List.ext_getElem (by simp [entryRuns]) fun i hi _ => ?_
    have : i < ws.length := by simpa [entryRuns] using hi
    simp [entryRuns, this, Nat.add_comm 1]
  simp only [hruns, halvesOfRuns, List.flatMap_map, entryLevel_succ]

theorem halvesOfBit_eq_ite : halvesOfBit = fun bit => if bit then [Level.space, .mark] else [.mark, .space] := by
  funext bit
  cases bit <;> rfl

theorem entryWidths_one_iff {d : Slot} {s : State} {ws : List Nat} :
    EntryWidths d s 1 ws ↔
      ws.length + 1 = s.len ∧ ∀ i (h : i < ws.length),
        1 ≤ ws[i] ∧ ws[i] ≤ 3 ∧ ∀ v, 1 ≤ v → v ≤ ws[i] →
          ((if i % 2 = 0 then matchMark s.cfg (s.entry (i + 1)) (v * d.oneMarkMicros.toNat)
            else matchSpace s.cfg (s.entry (i + 1)) (v * d.oneMarkMicros.toNat)) = true ↔ v = ws[i]) := by
  simp only [EntryWidths, Nat.add_comm 1, entryWidth_eq_some, matchLevel_entryLevel_succ, halfUnit]

theorem exists_virtual_spaces_iff {ls halves : List Level} :
    (∃ k ≤ 1, ls ++ List.replicate k .space = halves) ↔
      ∃ past, (past = [] ∨ past = [.space]) ∧ ls ++ past = halves := by
  constructor
  · rintro ⟨k, hk, h⟩
    obtain rfl | rfl := Nat.le_one_iff_eq_zero_or_eq_one.1 hk
    · exact ⟨_, .inl rfl, h⟩
    · exact ⟨_, .inr rfl, h⟩
  · rintro ⟨past, rfl | rfl, h⟩
    · exact ⟨0, by omega, h⟩
    · exact ⟨1, by omega, h⟩

/-- Settles O45: the half-units that are read to the end of the frame are the entries' and at most one virtual Space, by
`biBits_eq_some`. -/
theorem biphaseDecodesExactly : Obligations.BiphaseDecodesExactly := by
  intro d s c
  simp only [biBits_eq_some, entryWidths_one_iff, exists_virtual_spaces_iff, halvesOfRuns_entryRuns,
    halvesOfBit_eq_ite, and_assoc]

/-! ## Entries of three half-units (R279) -/

/-- An entry's half-units stand together in those of the frame. -/
theorem replicate_infix_halvesOfRuns {off i : Nat} {ws : List Nat} (h : i < ws.length) :
    List.replicate ws[i] (entryLevel (off + i)) <:+: halvesOfRuns (entryRuns off ws) := by
  have hrun : (entryLevel (off + i), ws[i]) ∈ entryRuns off ws := List.mem_mapIdx.2 ⟨i, h, rfl⟩
  obtain ⟨before, after, hsplit⟩ := List.append_of_mem hrun
  rw [hsplit]
  exact ⟨halvesOfRuns before, halvesOfRuns after, by simp [halvesOfRuns]⟩

/-- Settles O46: such an entry gives three equal half-units in a row, and the halves of bits never do. -/
theorem widthThreeNeverDecodes : Obligations.WidthThreeNeverDecodes := by
  intro d s i hpos hlt hthree
  rw [Option.eq_none_iff_forall_ne_some]
  intro c h
  obtain ⟨-, ws, ⟨hlen, hwidth⟩, k, -, hhalves⟩ := biBits_eq_some.1 h
  obtain ⟨j, rfl⟩ : ∃ j, i = 1 + j := ⟨i - 1, by omega⟩
  have hj : j < ws.length := by omega
  have hw : ws[j] = 3 := Option.some.inj ((hwidth j hj).symm.trans hthree)
  have hinfix := (replicate_infix_halvesOfRuns (off := 1) hj).trans
    (List.prefix_append _ (List.replicate k .space)).isInfix
  rw [hw, hhalves] at hinfix
  exact not_three_equal_halves hinfix

end Sys2Proof.Proofs

/-! PROOFS. The statements about the encoders (spec/46_encode.md): the bits that are sent (R293), the frames of SEND and
their durations (R294 to R299, R303), and the pulses of SENDRAW and SENDBI (R300 to R302). -/

namespace Sys2Proof.Proofs

open Sys2Proof Sys2Proof.Machine

/-! ## The bits sent (R293) -/

section
variable {wb : WordBits} {chunks : List Chunk} {n j k : Nat}

/-- Place `jW + k` lies in chunk `j`, at position `k`. -/
theorem chunk_of_place (hk : k < wb.bits) : (j * wb.bits + k) / wb.bits = j ∧ (j * wb.bits + k) % wb.bits = k := by
  rw [Nat.mul_comm, Nat.mul_add_div (by omega), Nat.mul_add_mod, Nat.div_eq_of_lt hk, Nat.mod_eq_of_lt hk]
  exact ⟨rfl, rfl⟩

theorem getD_txBits_lsb (hk : k < min wb.bits (n - j * wb.bits)) :
    (txBits wb .lsbFirst chunks n).getD (j * wb.bits + k) false = (chunks.getD j 0).getLsbD k := by
  obtain ⟨hdiv, hmod⟩ := chunk_of_place (wb := wb) (j := j) (k := k) (by omega)
  rw [getD_txBits _ _ _ (by omega)]
  simp only [txBit, hdiv, hmod]

theorem getD_txBits_msb (hk : k < min wb.bits (n - j * wb.bits)) :
    (txBits wb .msbFirst chunks n).getD (j * wb.bits + k) false =
      (chunks.getD j 0).getLsbD (min wb.bits (n - j * wb.bits) - 1 - k) := by
  obtain ⟨hdiv, hmod⟩ := chunk_of_place (wb := wb) (j := j) (k := k) (by omega)
  rw [getD_txBits _ _ _ (by omega)]
  simp only [txBit, hdiv, hmod]

end

theorem getD_chunksOfBits {wb : WordBits} (o : BitOrder) {c : List Bool} {j : Nat} (hj : j * wb.bits < c.length) :
    (chunksOfBits wb o c).getD j 0 = chunkAt wb o c j := by
  have hlt : j < (chunksOfBits wb o c).length := by rwa [length_chunksOfBits, lt_chunkCount]
  rw [List.getD_eq_getElem _ _ hlt, getElem_chunksOfBits]

/-- The bit at each place of the list stands in the chunk where it is looked for when it is sent. -/
theorem txBits_chunksOfBits (wb : WordBits) (o : BitOrder) (c : List Bool) :
    txBits wb o (chunksOfBits wb o c) c.length = c := by
  refine List.ext_getElem (length_txBits ..) fun i hi hi' => ?_
  rw [← List.getD_eq_getElem _ false hi, ← List.getD_eq_getElem _ false hi']
  have hplace : i / wb.bits * wb.bits + i % wb.bits = i := Nat.div_add_mod' i wb.bits
  have hpos : i % wb.bits < wb.bits := Nat.mod_lt _ (by cases wb <;> decide)
  generalize i / wb.bits = j, i % wb.bits = k at hplace hpos
  subst hplace
  have hk : k < min wb.bits (c.length - j * wb.bits) := by omega
  have hchunk := getD_chunksOfBits o (wb := wb) (c := c) (j := j) (by omega)
  cases o with
  | lsbFirst => rw [getD_txBits_lsb hk, hchunk, getLsbD_chunkAt_lsb hk]
  | msbFirst => rw [getD_txBits_msb hk, hchunk, getLsbD_chunkAt_msb hk]

/-- Settles O40: the bit sent at each place, by its chunk and position; the chunks of a list hold its bits there. -/
theorem txBitsInvertChunks : Obligations.TxBitsInvertChunks := by
  refine ⟨fun wb o chunks n => ⟨length_txBits .., ?places⟩, txBits_chunksOfBits⟩
  case places =>
    intro j k _ nj hk
    refine ⟨fun ho => ?_, fun ho => ?_⟩ <;> subst ho
    · exact getD_txBits_lsb hk
    · exact getD_txBits_msb hk

/-! ## SEND (R294 to R299) -/

/-- A SEND that passes its operand checks (R296, R305). -/
theorem exec_send {s : State} {slot : BitVec 8} {nbits : BitVec 16} {d : Slot} (repeats : Word) (chunks : List Chunk)
    (hd : s.cfg.dtab[slot.toNat]? = some d) (hconv : d.convention ≠ .biphase) (hmin : 1 ≤ nbits.toNat)
    (hmax : nbits.toNat ≤ 32 * s.cfg.nwmax) :
    let t := txBits s.cfg.wordBits d.bitOrder chunks nbits.toNat
    exec (.send slot nbits repeats chunks) s = .next (respond .ok 0
      { s with
        txRepdeg := sendDegraded d t 0 repeats.toNat
        txCarrier := d.frequencyKHz
        txTrace := s.txTrace ++ .carrier d.frequencyKHz :: emitted (sendPulses d t 0 repeats.toNat) }) := by
  have hok : ¬(d.convention = .biphase ∨ nbits.toNat < 1 ∨ 32 * s.cfg.nwmax < nbits.toNat) := by
    simp only [hconv, false_or]
    omega
  simp only [exec, execSend, hd, if_neg hok, List.append_assoc, List.singleton_append]

/-- What is sent after the first transmission: the repeat signal if the slot has one, else the frame again (R296). -/
def laterTransmission (d : Slot) (t : List Bool) : List TxEvent :=
  match d.repeatSignal with
  | none => fullFrame d t
  | some sig => repeatFrame d sig

theorem transmission_eq (d : Slot) (t : List Bool) (r : Nat) :
    transmission d t r = if r = 0 then fullFrame d t else laterTransmission d t := by
  cases r with
  | zero => rfl
  | succ r =>
    rw [if_neg r.succ_ne_zero, laterTransmission]
    cases hsig : d.repeatSignal <;> simp only [transmission, hsig]

theorem toNat_max_zero (x : Int) : (max x 0).toNat = x.toNat := by
  rw [← Int.ofNat_toNat, Int.toNat_natCast]

/-- Settles O54: the pulses and the flag of an accepted SEND, transmission by transmission. -/
theorem sendAppendsTransmissions : Obligations.SendAppendsTransmissions := by
  intro s slot nbits repeats chunks d hd hconv hmin hmax bitPulses trailer full later frame wait pulses
  let t := txBits s.cfg.wordBits d.bitOrder chunks nbits.toNat
  have hframe : ∀ r, frame r = transmission d t r := fun r => (transmission_eq d t r).symm
  have hwait : ∀ r, wait r = repeatWait d (transmission d t r) := fun r => by rw [← hframe]; rfl
  have hpulses : pulses = sendPulses d t 0 repeats.toNat := by
    simp only [pulses, sendPulses_eq, hframe, hwait, toNat_max_zero, Nat.zero_add]
  refine ⟨sendDegraded d t 0 repeats.toNat, ?next, ?degraded⟩
  case next =>
    rw [exec_send repeats chunks hd hconv hmin hmax, hpulses]
    rfl
  case degraded => simp only [sendDegraded_iff, hwait, Nat.zero_add]

/-! ## Durations (R303) -/

@[simp] theorem totalMicros_nil : totalMicros [] = 0 := rfl

@[simp] theorem totalMicros_cons (p : TxEvent) (ps : List TxEvent) :
    totalMicros (p :: ps) = p.micros + totalMicros ps :=
  List.sum_cons

@[simp] theorem totalMicros_append (ps qs : List TxEvent) :
    totalMicros (ps ++ qs) = totalMicros ps + totalMicros qs := by
  simp only [totalMicros, List.map_append, List.sum_append]

@[simp] theorem micros_mark (n : Nat) : (TxEvent.mark n).micros = n := rfl
@[simp] theorem micros_space (n : Nat) : (TxEvent.space n).micros = n := rfl

theorem totalMicros_flatMap_bitPulses (d : Slot) (t : List Bool) :
    totalMicros (t.flatMap (bitPulses d)) =
      t.count true * (d.oneMarkMicros.toNat + d.oneSpaceMicros.toNat) +
        t.count false * (d.zeroMarkMicros.toNat + d.zeroSpaceMicros.toNat) := by
  induction t with
  | nil => simp
  | cons b t ih =>
    rw [List.flatMap_cons, totalMicros_append, ih, bitPulses_eq]
    cases b <;> simp <;> ring

theorem totalMicros_trailerPulses (d : Slot) : totalMicros (trailerPulses d) = (d.trailerMarkMicros.getD 0).toNat := by
  unfold trailerPulses
  cases d.trailerMarkMicros <;> simp

theorem totalMicros_fullFrame (d : Slot) (t : List Bool) :
    totalMicros (fullFrame d t) =
      d.headerMarkMicros.toNat + d.headerSpaceMicros.toNat +
        t.count true * (d.oneMarkMicros.toNat + d.oneSpaceMicros.toNat) +
        t.count false * (d.zeroMarkMicros.toNat + d.zeroSpaceMicros.toNat) +
        (d.trailerMarkMicros.getD 0).toNat := by
  simp [fullFrame, totalMicros_flatMap_bitPulses, totalMicros_trailerPulses, Nat.add_assoc]

theorem totalMicros_repeatFrame (d : Slot) (r : RepeatSignal) :
    totalMicros (repeatFrame d r) =
      r.markMicros.toNat + r.spaceMicros.toNat + (d.trailerMarkMicros.getD 0).toNat := by
  simp [repeatFrame, trailerMicros, Nat.add_assoc]

theorem micros_runPulse (u : Nat) (r : Level × Nat) : (runPulse u r).micros = r.2 * u := by
  obtain ⟨_ | _, k⟩ := r <;> rfl

theorem length_halvesOfRuns_cons (r : Level × Nat) (rs : List (Level × Nat)) :
    (halvesOfRuns (r :: rs)).length = r.2 + (halvesOfRuns rs).length := by
  simp only [halvesOfRuns, List.flatMap_cons, List.length_append, List.length_replicate]

/-- Runs last as long as their half-units do one by one. -/
theorem totalMicros_map_runPulse (u : Nat) (rs : List (Level × Nat)) :
    totalMicros (rs.map (runPulse u)) = (halvesOfRuns rs).length * u := by
  induction rs with
  | nil => simp [halvesOfRuns]
  | cons r rs ih =>
    rw [List.map_cons, totalMicros_cons, ih, micros_runPulse, length_halvesOfRuns_cons, Nat.add_mul]

theorem length_flatMap_halvesOfBit (bits : List Bool) : (bits.flatMap halvesOfBit).length = 2 * bits.length := by
  have htwo : ∀ b, (halvesOfBit b).length = 2 := by decide
  simp [List.length_flatMap, htwo, Nat.mul_comm]

theorem totalMicros_biPulses (u : Nat) (bits : List Bool) : totalMicros (biPulses u bits) = 2 * bits.length * u := by
  rw [biPulses, totalMicros_map_runPulse, halvesOfRuns_runs, length_flatMap_halvesOfBit]

/-- R303's codeword has as many ones as zeros. -/
theorem count_txBits_refPd :
    (txBits .w32 .lsbFirst [0xF30CFF00] 32).count true = 16 ∧
      (txBits .w32 .lsbFirst [0xF30CFF00] 32).count false = 16 := by
  decide

/-- Settles O55: each duration as a sum over the pulses, and the figures from the formulas. -/
theorem frameDurations : Obligations.FrameDurations := by
  obtain ⟨hones, hzeros⟩ := count_txBits_refPd
  have hfull : totalMicros (fullFrame .refPd (txBits .w32 .lsbFirst [0xF30CFF00] 32)) = 67980 := by
    rw [totalMicros_fullFrame, hones, hzeros]
    rfl
  have hrepeat : totalMicros (repeatFrame .refPd ⟨9000, 2250⟩) = 11810 := rfl
  exact ⟨totalMicros_fullFrame, totalMicros_repeatFrame, totalMicros_biPulses, hfull,
    by rw [repeatWait, hfull]; decide, hrepeat, by rw [repeatWait, hrepeat]; decide⟩

/-! ## SENDRAW (R300) -/

/-- The elements from element `k` of a list on: a mark for an even place in that list, a space for an odd one. -/
theorem rawPulses_eq_mapIdx (ws : List Word) : ∀ k : Nat,
    rawPulses (decide (k % 2 = 0)) ws =
      ws.mapIdx fun i w => if (k + i) % 2 = 0 then .mark w.toNat else .space w.toNat := by
  induction ws with
  | nil => intro k; cases decide (k % 2 = 0) <;> rfl
  | cons w ws ih =>
    intro k
    have htail := ih (k + 1)
    simp only [List.mapIdx_cons, Nat.add_zero, Nat.add_comm _ 1, ← Nat.add_assoc] at htail ⊢
    rw [← htail]
    rcases Nat.mod_two_eq_zero_or_one k with hk | hk <;> simp [hk, Nat.add_mod, rawPulses]

/-- Settles O56: the elements from element 0 on, a mark. -/
theorem sendRawAlternates : Obligations.SendRawAlternates := by
  intro s durations
  have hpulses := rawPulses_eq_mapIdx durations 0
  simp only [Nat.zero_mod, decide_true, Nat.zero_add] at hpulses
  rw [exec, execSendRaw, hpulses]
  rfl

/-! ## SENDBI (R301, R302) -/

/-- Every run of half-units is an event that is appended (R291). -/
theorem emitted_biPulses {u : Nat} (hu : 1 ≤ u) (bits : List Bool) : emitted (biPulses u bits) = biPulses u bits := by
  refine emitted_eq_self fun p hp => ?_
  obtain ⟨r, hr, rfl⟩ := List.mem_map.1 hp
  rw [micros_runPulse]
  exact Nat.mul_pos (runs_pos hr) hu

/-- A SENDBI that passes its operand checks (R301, R305). -/
theorem exec_sendBi {s : State} {nbits : BitVec 16} {unit : Word} (codeword : Chunk) (hmin : 1 ≤ nbits.toNat)
    (hmax : nbits.toNat ≤ s.cfg.wordBits.bits) (hunit : 1 ≤ unit.toNat) :
    exec (.sendBi nbits unit codeword) s = .next (respond .ok 0
      { s with txTrace := s.txTrace ++ biPulses unit.toNat (biBitsToSend codeword nbits.toNat) }) := by
  have hok : ¬(nbits.toNat < 1 ∨ s.cfg.wordBits.bits < nbits.toNat ∨ unit.toNat < 1) := by omega
  rw [exec, execSendBi, if_neg hok, emit, emitted_biPulses hunit]

theorem runPulse_eq (u : Nat) :
    runPulse u = fun r => match r.1 with
      | .mark => .mark (r.2 * u)
      | .space => .space (r.2 * u) := by
  funext ⟨l, k⟩
  cases l <;> rfl

/-- Settles O57: the runs are the maximal ones of the half-units (R302), of which none is longer than 2. -/
theorem sendBiSendsCoalescedHalves : Obligations.SendBiSendsCoalescedHalves := by
  intro s nbits unit codeword hmin hmax hunit
  refine ⟨runs ((biBitsToSend codeword nbits.toNat).flatMap halvesOfBit), ?halves, runs_isChain _, (runs_halves _).1,
    ?next⟩
  case halves => rw [flatMap_runs, biBitsToSend, List.flatMap_map, halvesOfBit_eq_ite]
  case next =>
    rw [exec_sendBi codeword hmin hmax hunit, biPulses, runPulse_eq]
    rfl

end Sys2Proof.Proofs

/-! PROOFS. The statements about the exceptions and the two contexts (spec/60_exceptions.md R338, R345), the sample words
of spec/30_encoding.md §8, and the step (spec/20_memory.md R66). -/

namespace Sys2Proof.Proofs

open Sys2Proof Sys2Proof.Machine

/-! ## The sample words and the step -/

/-- Settles O5: the packets are the operations' encodings, and decoding undoes encoding; the last word has a bit in the
B field, which TRYDEC's row wants zero. -/
theorem sampleWordsDecode : Obligations.SampleWordsDecode :=
  ⟨rfl, decodeOfEncodeIsIdentity .w32 (.rdsr 13) rfl, decodeOfEncodeIsIdentity .w32 (.rddesc 2 6) rfl,
    decodeOfEncodeIsIdentity .w32 (.matchMark 11 560) rfl, decodeOfEncodeIsIdentity .w32 (.tryDec 1) rfl,
    decodeOfEncodeIsIdentity .w64 (.send 0 48 2 [0x456789ABCDEF]) (by decide),
    decodeOfEncodeIsIdentity .w32 (.sendBi 14 889 0x300C) (by decide), by decide⟩

/-- Settles O7: the two ways a step with a legal configuration goes on when it is not given an illegal packet. -/
theorem stepRunsDecodedInput : Obligations.StepRunsDecodedInput :=
  ⟨fun _ _ _ _ hc hp hi => step_of_operation hc hp hi, fun _ hc hp => step_of_no_input hc hp⟩

/-! ## The two contexts (R345) -/

/-- RESUME, and START on a running unit, move the capture state from STOP to IDLE or not at all (R167, R168). -/
theorem capState_releaseFrame_ne {s : State} (h : (releaseFrame s).capState ≠ s.capState) :
    s.capState = .stop ∧ (releaseFrame s).capState = .idle := by
  rw [releaseFrame_capState] at h ⊢
  split at h
  · next hstop => exact ⟨hstop, if_pos hstop⟩
  · exact absurd rfl h

/-- A command other than START and RESUME writes no capture register; those two end in IDLE if they move it. -/
theorem capState_exec_command {i : Instr} {s t : State} (hi : ∀ pin, i ≠ .tick pin) (h : exec i s = .next t)
    (hmoved : t.capState ≠ s.capState) :
    t.capState = .idle ∧
      ((s.capState = .stop ∧ (i = .resume ∨ i = .start)) ∨ (i = .start ∧ s.run = false)) := by
  rcases exec_cases h with ⟨pin, htick, -⟩ | ⟨rfl, rfl⟩ | ⟨rfl, rfl⟩ | ⟨-, st, v, rfl, -⟩ |
    ⟨-, st, df, last, rfl, -⟩ | ⟨-, st, deg, car, evs, rfl, -⟩
  · exact absurd htick (hi pin)
  · cases hrun : s.run with
    | false => exact ⟨rfl, .inr ⟨rfl, rfl⟩⟩
    | true =>
      rw [hrun] at hmoved
      obtain ⟨hstop, hidle⟩ := capState_releaseFrame_ne hmoved
      exact ⟨hidle, .inl ⟨hstop, .inr rfl⟩⟩
  · obtain ⟨hstop, hidle⟩ := capState_releaseFrame_ne hmoved
    exact ⟨hidle, .inl ⟨hstop, .inl rfl⟩⟩
  · exact absurd rfl hmoved
  · exact absurd rfl hmoved
  · exact absurd rfl hmoved

/-- Settles O12: a TICK is neither of the two commands that leave STOP, and only those two move the capture state. -/
theorem stateLeavesStopInHostContextOnly : Obligations.StateLeavesStopInHostContextOnly := by
  refine fun i s t h => ⟨?tick, fun hi hmoved => capState_exec_command hi h hmoved⟩
  rintro pin rfl hstop
  exact (capState_exec_stop h hstop).resolve_right (by simp)

/-! ## BadOperand (R338) -/

/-- For a slot below NDEC, what is left of SEND's row of R338 is the check `execSend` makes (R305). -/
theorem badOperandCondition_send_iff {s : State} {slot : BitVec 8} {d : Slot} (hd : s.cfg.dtab[slot.toNat]? = some d)
    (nbits : BitVec 16) (repeats : Word) (chunks : List Chunk) :
    BadOperandCondition s (.send slot nbits repeats chunks) ↔
      d.convention = .biphase ∨ nbits.toNat < 1 ∨ 32 * s.cfg.nwmax < nbits.toNat := by
  have hlt : slot.toNat < s.cfg.ndec := (List.getElem?_eq_some_iff.1 hd).1
  simp [BadOperandCondition, hd, not_le.2 hlt]

/-- A listed operand value: command by command, the condition is the one of the branch that raises BadOperand. -/
theorem exec_of_badOperandCondition {i : Instr} {s : State} (h : BadOperandCondition s i) :
    exec i s = .next (raise .badOperand s) := by
  cases i with
  | rdsr n => simp only [exec, execRdsr, srRead_eq_none.2 h]
  | rdraw n => exact if_pos h
  | rddesc slot word => exact if_pos h
  | tryDec slot => simp only [exec, execTryDec, List.getElem?_eq_none_iff.2 h]
  | send slot nbits repeats chunks =>
    cases hd : s.cfg.dtab[slot.toNat]? with
    | none => simp only [exec, execSend, hd]
    | some d => simp only [exec, execSend, hd, if_pos ((badOperandCondition_send_iff hd ..).1 h)]
  | sendBi nbits unit codeword => exact if_pos h
  | tick | start | resume | isIdle | isAvail | toMicros | matchMark | matchSpace | matchExact | decode | sendRaw =>
    exact h.elim

/-- The decode chain's four ends give four statuses, none of them BadOperand (R332 to R334). -/
theorem exists_respond_decodeWith (slots : List Slot) (s : State) :
    ∃ st v u, decodeWith slots (clearDF s) = respond st v u ∧ u.responses = s.responses ∧ st ≠ .badOperand := by
  obtain ⟨st, df, last, h, -, -, hst⟩ := decodeWith_frame slots (clearDF s)
  exact ⟨st, 0, _, h, rfl, hst⟩

/-- On an operand value that is not listed, a command's one response has another status. -/
theorem exec_of_not_badOperandCondition {i : Instr} {s : State} (hi : ∀ pin, i ≠ .tick pin)
    (h : ¬ BadOperandCondition s i) :
    ∃ st v u, exec i s = .next (respond st v u) ∧ u.responses = s.responses ∧ st ≠ .badOperand := by
  cases i with
  | tick pin => exact absurd rfl (hi pin)
  | start => exact ⟨.ok, 0, _, rfl, by split <;> simp, nofun⟩
  | resume => exact ⟨.ok, 0, _, rfl, releaseFrame_responses s, nofun⟩
  | rdsr n =>
    obtain ⟨w, hw⟩ := Option.ne_none_iff_exists'.1 (mt srRead_eq_none.1 h)
    exact ⟨.ok, w, s, exec_rdsr hw, rfl, nofun⟩
  | rdraw n => exact ⟨.ok, _, s, if_neg h, rfl, nofun⟩
  | rddesc slot word =>
    obtain ⟨hslot, hword⟩ := not_or.1 h
    have hlt : word.toNat < 16 := Nat.lt_succ_of_le (not_lt.1 hword)
    exact ⟨.ok, _, s, exec_rddesc (List.getElem?_eq_getElem (not_le.1 hslot)) (not_lt.1 hword)
      (List.getElem?_eq_getElem hlt), rfl, nofun⟩
  | isIdle | isAvail | toMicros | matchMark | matchSpace | matchExact => exact ⟨.ok, _, s, rfl, rfl, nofun⟩
  | decode =>
    obtain ⟨st, v, u, hu, hkept⟩ := exists_respond_decodeWith s.cfg.dtab s
    exact ⟨st, v, u, congrArg _ hu, hkept⟩
  | tryDec slot =>
    obtain ⟨st, v, u, hu, hkept⟩ := exists_respond_decodeWith [s.cfg.dtab[slot.toNat]'(not_le.1 h)] s
    exact ⟨st, v, u, (exec_tryDec_of_slot (List.getElem?_eq_getElem _)).trans (congrArg _ hu), hkept⟩
  | send slot nbits repeats chunks =>
    have hd := List.getElem?_eq_getElem (not_le.1 (not_or.1 h).1)
    simp only [badOperandCondition_send_iff hd, not_or, not_lt] at h
    obtain ⟨hconv, hmin, hmax⟩ := h
    exact ⟨.ok, 0, _, exec_send repeats chunks hd hconv hmin hmax, rfl, nofun⟩
  | sendRaw durations => exact ⟨.ok, 0, _, rfl, rfl, nofun⟩
  | sendBi nbits unit codeword => exact ⟨.ok, 0, _, if_neg h, rfl, nofun⟩

/-- Settles O14: a TICK appends no response at all, and a command's only response is BadOperand iff its operands are
listed. -/
theorem badOperandExactlyWhenListed : Obligations.BadOperandExactlyWhenListed := by
  refine fun i s => ⟨exec_of_badOperandCondition, fun hnot t r h hresp => ?_⟩
  by_cases htick : ∃ pin, i = .tick pin
  · obtain ⟨pin, rfl⟩ := htick
    rw [responses_exec_tick h] at hresp
    simp at hresp
  · obtain ⟨st, v, u, hu, hkept, hst⟩ := exec_of_not_badOperandCondition (fun pin hpin => htick ⟨pin, hpin⟩) hnot
    cases hu.symm.trans h
    rw [respond_responses, hkept] at hresp
    cases List.append_cancel_left hresp
    exact hst

end Sys2Proof.Proofs
